-- ==== Sys2Proof/Word.lean ====
section
/-! DEFINITION. The value types of the display engine (spec/00_scope.md R7, R11; spec/10_state.md R20) and the
fixed geometry. Nothing here computes: the operand assembly and the cursor arithmetic live under Machine/. -/

namespace Sys2Proof

/-- `u8` (R11): a byte on the wire, a glyph byte, a contrast value. -/
abbrev Byte := BitVec 8

/-- A segment address, the pixel column 0..83 (R7, R20). -/
abbrev Segment := Fin 84

/-- A bank address, the group of eight pixel rows 0..5 (R7, R20). -/
abbrev Bank := Fin 6

/-- A pin is any natural number (R26, D24). -/
abbrev Pin := Nat

/-- `Char` (R11, D21): a character is its code point, looked up exactly. -/
abbrev CharCode := Nat

/-- The opaque handle `setupBitbangChannel` returns (R27). The engine only stores it and passes it on. -/
abbrev ChannelHandle := Nat

/-- The level of one line (R11). -/
inductive Level where
  | low
  | high
  deriving DecidableEq, Repr, Inhabited

/-- The result of one backend call (R35 `Outcome`): named `Answer` because `Host.Outcome` is the outcome of a step. -/
inductive Answer where
  | ok
  | fail
  deriving DecidableEq, Repr, Inhabited

/-- `FRAME_BYTES = 84*48/8` (R7). -/
def frameBytes : Nat := 504

end Sys2Proof
end

