-- ==== Sys2Proof/Config.lean ====
section
/-! DEFINITION. What is fixed before the first operation: the geometry and the open parameters of
spec/00_scope.md R10 (a model takes each of them as an argument, so `Config` is plain data that State carries and
no step writes), and the free values: constants with no body for what the spec leaves open. -/

namespace Sys2Proof

/-- The geometry arguments (R7, R8). -/
structure Geometry where
  width : Nat
  height : Nat
  bankHeight : Nat
  deriving DecidableEq, Repr, Inhabited

/-- `WIDTH = 84`, `HEIGHT = 48`, `BANK_HEIGHT = 8` (R7). -/
def Geometry.panel84x48 : Geometry := { width := 84, height := 48, bankHeight := 8 }

/-- R8: the two divisions that must be exact, or "the behavior is undefined". -/
def Geometry.exact (g : Geometry) : Bool :=
  (g.height * g.width) % 8 == 0 && g.bankHeight != 0 && g.height % g.bankHeight == 0

/-- `WIRE_BIT_ORDER` (R10, R62, D6): backend-owned, read by no rule. -/
inductive BitOrder where
  | msbFirst
  | lsbFirst
  deriving DecidableEq, Repr, Inhabited

/-- The font ROM (R59), a partial map from character codes to glyphs, as a list of pairs.
A code's glyph is the one of its first pair. -/
abbrev Font := List (CharCode × List Byte)

/-- The parameters a model takes as arguments (R10), in the record the host fixes before the first operation
(R214, R224). -/
structure Config where
  geometry : Geometry
  /-- `FONT` (R59, D20). -/
  font : Font
  /-- `SPI_MODE` (D5): passed through to the `SetupChannel` event, read by no rule. -/
  spiMode : Nat
  /-- `WIRE_BIT_ORDER` (D6). -/
  wireBitOrder : BitOrder
  /-- `DC_COMMAND_LEVEL` (R82, D3). -/
  dcCommandLevel : Level
  /-- `PANEL_LAST_WRAP` (R55, D17): the panel cursor after a data byte at (83, 5). -/
  panelLastWrap : Option (Segment × Bank)
  deriving DecidableEq, Repr

/-- One draw of the backend (R184): the answer to one backend call, the handle that call returns if it sets up the
channel, and by how many milliseconds a hold that stands before the call exceeds 100 ms (R213). -/
structure Draw where
  answer : Answer
  handle : ChannelHandle
  holdExtra : Nat
  deriving DecidableEq, Repr, Inhabited

/-- FREE VALUE (log entry 4): the backend's n-th draw, where State's script of draws does not fix it. -/
opaque Config.freeDraw : Nat → Draw

/-- FREE VALUE (log entry 5): the seven rows of column `j` of the reference font's glyph for a code, bit `i` being row `i`.
R59 and R60 give the table's domain and layout; its contents are not in the source (D20). -/
opaque Config.freeGlyphColumn : CharCode → Nat → BitVec 7

/-- FREE VALUE (log entry 5): `SPI_MODE` has no value in the source (D5). -/
opaque Config.freeSpiMode : Nat

/-- FREE VALUE (log entry 5): `WIRE_BIT_ORDER` has no value in the source (D6). -/
opaque Config.freeWireBitOrder : BitOrder

/-- Byte `j` of a 5×7 glyph (R60): its column's seven rows in bits 0 to 6, and nothing in bit 7. -/
def Config.referenceGlyphByte (c : CharCode) (j : Nat) : Byte := (Config.freeGlyphColumn c j).setWidth 8

/-- The reference font (R59, R60): "printable ASCII 0x20–0x7E", 95 glyphs of exactly five bytes, whose seven rows are
free. A font the host configures may use all eight bits, and the engine sends them unchanged. -/
def Config.referenceFont : Font :=
  (List.range 95).map fun k =>
    (0x20 + k, (List.range 5).map (Config.referenceGlyphByte (0x20 + k)))

/-- The configuration of the machine after reset: the fixed geometry, the decided levels and defaults of R10, and
free values where R10 leaves the parameter open. -/
def Config.reference : Config where
  geometry := Geometry.panel84x48
  font := Config.referenceFont
  spiMode := Config.freeSpiMode
  wireBitOrder := Config.freeWireBitOrder
  dcCommandLevel := .low
  panelLastWrap := none

/-- R214 item 1 with R8, R59 and R193: a configuration the engine accepts. A geometry other than 84×48 with bank
height 8, or a font with an entry that is not exactly five bytes, is `bad_configuration` (log entry 6). -/
def Config.accepted (c : Config) : Bool :=
  c.geometry == Geometry.panel84x48 && c.font.all (fun e => e.2.length == 5)

end Sys2Proof
end

