-- ==== Sys2Proof/Syntax.lean ====
section
/-! DEFINITION. The instructions: one constructor per row of spec/opcode_table.json. The ten rows of layer "wire"
are what the panel receives on the bus port (spec/30_encoding.md R83 to R92); the ten of layer "host" are the
operations of R94. -/

namespace Sys2Proof

/-- `PinMap` (R26). -/
structure PinMap where
  clock : Pin
  data : Pin
  dataCommand : Pin
  reset : Pin
  backlight : Pin
  chipEnable : Pin
  deriving DecidableEq, Repr, Inhabited

/-- The default pins (R9). -/
def PinMap.default : PinMap :=
  { clock := 11, data := 10, dataCommand := 22, reset := 24, backlight := 18, chipEnable := 8 }

/-- The default contrast (R9). -/
def defaultContrast : Byte := 0xB0#8

/-- Whether a transfer is a command or a data transfer (R81, R82). -/
inductive Framing where
  | command
  | data
  deriving DecidableEq, Repr, Inhabited

/-- Where the panel stands inside one of the two command sequences the engine composes (R85, R86), when the
sequence reaches it one byte at a time. The model's own state (log entry 3). -/
inductive WireSeq where
  /-- outside a sequence -/
  | idle
  /-- after the bank byte of a position sequence -/
  | bank (b : Bank)
  /-- after `0x21` -/
  | extended
  /-- after `0x21, 0x14`: the next command byte is the Vop byte -/
  | bias
  deriving DecidableEq, Repr, Inhabited

inductive Instr where
  /-- SET_BANK, `10000bbb` (R83). -/
  | setBank (bank : BitVec 3)
  /-- SET_SEGMENT, `01ssssss` (R84): the six bits the wire carries. -/
  | setSegment (segment : BitVec 6)
  /-- FUNCTION_SET_EXTENDED, `0x21` (R87). -/
  | functionSetExtended
  /-- CMD_0x14 (R88). -/
  | cmd0x14
  /-- SET_VOP (R89): the command byte after `0x21, 0x14`. -/
  | setVop (value : Byte)
  /-- FUNCTION_SET_NORMAL, `0x20` (R90). -/
  | functionSetNormal
  /-- DISPLAY_CONTROL_NORMAL, `0x0C` (R91). -/
  | displayControlNormal
  /-- DATA_BYTE (R92): one byte of a data transfer. -/
  | dataByte (pixels : Byte)
  /-- POSITION_SEQUENCE (R85). -/
  | positionSequence (bank : BitVec 3) (segment : BitVec 6)
  /-- CONTRAST_SEQUENCE (R86). -/
  | contrastSequence (value : Byte)
  /-- INIT (R150). -/
  | init (pins : PinMap) (contrast : Byte)
  /-- CONFIGURE (R111), internal to INIT. -/
  | configure (pins : PinMap)
  /-- WRITE_COMMAND (R112). -/
  | cmd (bytes : List Byte)
  /-- WRITE_DATA (R113). -/
  | data (bytes : List Byte)
  /-- SET_BACKLIGHT (R114). -/
  | backlight (on : Bool)
  /-- SET_POSITION (R131). -/
  | setpos (segment bank : Int)
  /-- LOCATE (R132). -/
  | locate (row col : Int)
  /-- CLEAR_SCREEN (R133). -/
  | cls
  /-- SET_CONTRAST (R151). -/
  | contrast (value : Byte)
  /-- DRAW_TEXT (R157). -/
  | text (row col : Int) (chars : List CharCode)
  deriving DecidableEq, Repr

/-- The table's "layer" of a row. -/
inductive Layer where
  | wire
  | host
  deriving DecidableEq, Repr

def Instr.layer : Instr → Layer
  | .setBank _ | .setSegment _ | .functionSetExtended | .cmd0x14 | .setVop _ | .functionSetNormal
  | .displayControlNormal | .dataByte _ | .positionSequence _ _ | .contrastSequence _ => .wire
  | .init _ _ | .configure _ | .cmd _ | .data _ | .backlight _ | .setpos _ _ | .locate _ _ | .cls
  | .contrast _ | .text _ _ _ => .host

end Sys2Proof
end

