-- ==== Sys2Proof/Machine/State.lean ====
section
/-! DEFINITION. The state as the spec gives it (spec/10_state.md R20 to R42) and the model's own bookkeeping beside
it: the host program, the two input ports and the backend's script of draws. Plain data throughout. -/

namespace Sys2Proof.Machine

/-- `Phase` (R25). -/
inductive Phase where
  | uninitialized
  | initialized
  deriving DecidableEq, Repr

/-- `Role` (R35): the PinMap field a pin write drives. -/
inductive Role where
  | dc
  | reset
  | backlight
  deriving DecidableEq, Repr

/-- `Kind` (R35): the rule that issued a serial transfer. -/
inductive Kind where
  | cmdPos (segment : Segment) (bank : Bank)
  | cmdContrast (value : Byte)
  | cmdRaw
  | dataClear
  | dataGlyph (c : CharCode)
  | dataRaw
  deriving DecidableEq, Repr

/-- What one wire row says to the panel. The model's own type (log entry 3). -/
inductive WireOp where
  | setBank (bank : BitVec 3)
  | setSegment (segment : BitVec 6)
  | functionSetExtended
  | cmd0x14
  | setVop (value : Byte)
  | functionSetNormal
  | displayControlNormal
  | dataByte (pixels : Byte)
  | positionSequence (bank : BitVec 3) (segment : BitVec 6)
  | contrastSequence (value : Byte)
  /-- a command byte that is none of the table's (R93) -/
  | reserved (byte : Byte)
  deriving DecidableEq, Repr

/-- `Event` (R35). The last constructor is the model's own: no host operation appends it (log entry 3). -/
inductive Event where
  | setupGpio (answer : Answer)
  | setupChannel (chipEnable data clock : Pin) (mode : Nat) (answer : Answer)
  /-- `PinMode(pin, OUTPUT)` -/
  | pinMode (pin : Pin) (answer : Answer)
  | write (pin : Pin) (level : Level) (role : Role) (answer : Answer)
  | hold (ms : Nat)
  | serial (channel : ChannelHandle) (bytes : List Byte) (kind : Kind) (answer : Answer)
  | wire (op : WireOp)
  deriving DecidableEq, Repr

/-- The error kinds of R180, with the info they record. -/
inductive Error where
  | busInit
  | transfer
  | range
  | unsupportedCharacter (c : CharCode)
  deriving DecidableEq, Repr

/-- The reasons of R193. -/
inductive Reason where
  | reinitialize
  | notInitialized
  | internal
  | badDescriptor
  | badConfiguration
  deriving DecidableEq, Repr

/-- `Result` (R14, R22). -/
inductive Result where
  | ok
  | err (e : Error)
  | refused (r : Reason)
  deriving DecidableEq, Repr

/-- The controller's instruction-set mode (R39). -/
inductive PanelMode where
  | normal
  | extended
  deriving DecidableEq, Repr

/-- The controller's display-control setting (R41): the source names one value. -/
inductive DisplayControl where
  | normal
  deriving DecidableEq, Repr

/-- The frame memory (R37, R51) as its known bytes, by address `84 * bank + segment`, addresses strictly rising. An
unlisted cell is `none`, unknown. -/
abbrev Memory := List Host.Cell

/-- The panel projection (R37 to R41). `seq` is the model's own (log entry 3). -/
structure Panel where
  ram : Memory
  cursor : Option (Segment × Bank)
  mode : Option PanelMode
  vop : Option Byte
  display : Option DisplayControl
  seq : WireSeq
  deriving DecidableEq, Repr

/-- The panel at power-on (R42): everything unknown. -/
def Panel.powerOn : Panel :=
  { ram := [], cursor := none, mode := none, vop := none, display := none, seq := .idle }

/-- One item of the host program: an abstract operation (R94), or bytes of a host stream (R95, R98). -/
inductive Issue where
  | op (i : Instr)
  | bytes (bs : List Byte)
  deriving DecidableEq, Repr

/-- A transfer waiting at the panel's side of the bus port. The model's own (log entry 3). -/
structure Transfer where
  framing : Framing
  bytes : List Byte
  deriving DecidableEq, Repr

/-- Why the machine stops. Both are safe, and no state that reset or INIT leads to raises one (R115). -/
inductive Fault where
  /-- Raised by SET_BACKLIGHT and by every operation that frames a transfer, when `pins` is unknown (R12: the model
  faults where a rule needs the value of a register that holds `none`). Safe. -/
  | unknownPins
  /-- Raised by every operation that frames a transfer, when `channel` is unknown (R12). Safe. -/
  | unknownChannel
  deriving DecidableEq, Repr

/-- What the model gives no meaning. -/
inductive Refusal where
  /-- Raised by exec's arm of an instruction that has no meaning yet; there is none. Safe. -/
  | notModelled (mnemonic : String)
  deriving DecidableEq, Repr

structure State where
  /-- The configuration (R10, R214): no step writes it. -/
  cfg : Config
  /-- R25 -/
  phase : Phase
  /-- R26 -/
  pins : Option PinMap
  /-- R27 -/
  channel : Option ChannelHandle
  /-- R28 -/
  dc : Option Level
  /-- R29 -/
  rst : Option Level
  /-- R30 -/
  blPin : Option Level
  /-- R31 -/
  blOn : Option Bool
  /-- R32 -/
  contrast : Option Byte
  /-- R33 -/
  lastPos : Option (Segment × Bank)
  /-- R34, a set: pins strictly rising -/
  outputs : List Pin
  /-- R35 -/
  trace : List Event
  /-- R36 -/
  refused : Bool
  /-- R22 -/
  lastResult : Option Result
  /-- R24 -/
  pc : Nat
  /-- R37 to R41 -/
  panel : Panel
  /-- The host program `prog` of R23. -/
  prog : List Issue
  /-- The model's own: the run has ended in an error or a refusal (R24, R223; log entry 8). -/
  ended : Bool
  /-- The model's own: the host programs of the runs that follow (R192; log entry 8). -/
  runs : List (List Issue)
  /-- The model's own: transfers waiting at the panel (log entry 3). -/
  busIn : List Transfer
  /-- The model's own: the backend's draws (R184), the first one first (log entry 4). -/
  script : List Draw
  /-- The model's own: how many backend calls have been made (log entry 4). -/
  drawn : Nat
  deriving DecidableEq, Repr

/-- The power-on state (R42, R210). -/
def State.reset : State where
  cfg := Config.reference
  phase := .uninitialized
  pins := none
  channel := none
  dc := none
  rst := none
  blPin := none
  blOn := none
  contrast := none
  lastPos := none
  outputs := []
  trace := []
  refused := false
  lastResult := none
  pc := 0
  panel := Panel.powerOn
  prog := []
  ended := false
  runs := []
  busIn := []
  script := []
  drawn := 0

end Sys2Proof.Machine
end

