-- ==== Sys2Proof/Machine/Panel.lean ====
section
/-! DEFINITION. The panel projection (spec/20_memory.md R51 to R58): the frame memory's operations, the effect of one
event of the trace, and the effect of each wire row (spec/30_encoding.md R83 to R92). -/

namespace Sys2Proof.Machine

/-! ### Frame memory -/

/-- The address of cell `(bank, segment)` (R51). -/
def cellAddress (bank : Bank) (segment : Segment) : Nat := 84 * bank.val + segment.val

/-- What a cell holds: `none` is unknown (R37). -/
def Memory.read : Memory → Nat → Option Byte
  | [], _ => none
  | (k, v) :: m, a => if k = a then some v else Memory.read m a

/-- `p.ram[..] <- some v`. -/
def Memory.write (a : Nat) (v : Byte) : Memory → Memory
  | [] => [(a, v)]
  | (k, w) :: m =>
    if a < k then (a, v) :: (k, w) :: m
    else if a = k then (a, v) :: m
    else (k, w) :: Memory.write a v m

/-- `p.ram[..] <- none`: the cell is no longer listed. -/
def Memory.forget (a : Nat) : Memory → Memory
  | [] => []
  | (k, w) :: m => if k = a then m else (k, w) :: Memory.forget a m

/-- The canonical form from an address on: addresses strictly rising and inside the 504 cells (R51). -/
def Memory.wfFrom : Nat → Memory → Bool
  | _, [] => true
  | lo, (k, _) :: m => decide (lo ≤ k) && decide (k < frameBytes) && Memory.wfFrom (k + 1) m

def Memory.wf (m : Memory) : Bool := Memory.wfFrom 0 m

/-- Cell `(bank, segment)` of the projection (R37). -/
def Panel.cell (p : Panel) (bank : Bank) (segment : Segment) : Option Byte :=
  Memory.read p.ram (cellAddress bank segment)

/-- Pixel `(x, y)` (R52): bit `y mod 8` of cell `(y div 8, x)`. -/
def Panel.pixel (p : Panel) (x : Segment) (y : Fin 48) : Option Bool :=
  (p.cell ⟨y.val / 8, by omega⟩ x).map fun v => v.getLsbD (y.val % 8)

/-! ### Events -/

/-- Cursor advance (R55). -/
def nextCell (wrap : Option (Segment × Bank)) (c : Segment × Bank) : Option (Segment × Bank) :=
  if h : c.1.val < 83 then some (⟨c.1.val + 1, by omega⟩, c.2)
  else if h : c.2.val < 5 then some (⟨0, by omega⟩, ⟨c.2.val + 1, by omega⟩)
  else wrap

/-- `dataByte(p, v)` (R54). -/
def Panel.dataByte (wrap : Option (Segment × Bank)) (p : Panel) (v : Byte) : Panel :=
  match p.cursor with
  | some c => { p with ram := Memory.write (cellAddress c.2 c.1) v p.ram, cursor := nextCell wrap c }
  | none => { p with ram := [] }

/-- The bytes of one data transfer, in order (R56). -/
def Panel.dataBytes (wrap : Option (Segment × Bank)) (p : Panel) (bs : List Byte) : Panel :=
  bs.foldl (Panel.dataByte wrap) p

/-- The cells of a path of `n` positions become unknown, or every cell where the path leaves the known (R57). -/
def forgetPath (wrap : Option (Segment × Bank)) : Nat → Option (Segment × Bank) → Memory → Memory
  | 0, _, m => m
  | _ + 1, none, _ => []
  | n + 1, some c, m => forgetPath wrap n (nextCell wrap c) (Memory.forget (cellAddress c.2 c.1) m)

/-- A failed data transfer of `n` bytes (R57). -/
def Panel.dataFailed (wrap : Option (Segment × Bank)) (p : Panel) (n : Nat) : Panel :=
  match p.cursor with
  | some c => { p with ram := forgetPath wrap n (some c) p.ram, cursor := none }
  | none => { p with ram := [] }

/-- The controller's registers become unknown: a raw command (R56), a failed command (R57). -/
def Panel.forgetRegisters (p : Panel) : Panel :=
  { p with cursor := none, mode := none, vop := none, display := none, seq := .idle }

/-- A reset pulse makes the whole panel unknown (R58). -/
def Panel.resetPulse (p : Panel) : Panel := { p.forgetRegisters with ram := [] }

/-- A position command (R56): it sets the cursor in normal mode, and the controller cannot tell a segment above 63
from the one 64 below it. -/
def Panel.position (p : Panel) (segment : Segment) (bank : Bank) : Panel :=
  { p with
    cursor := if p.mode = some .normal ∧ segment.val ≤ 63 then some (segment, bank) else none
    seq := .idle }

/-- A contrast sequence (R56). -/
def Panel.contrast (p : Panel) (value : Byte) : Panel :=
  { p with mode := some .normal, vop := some value, display := some .normal, seq := .idle }

/-- A kind starting `Cmd` is a command transfer (R35). -/
def Kind.isCommand : Kind → Bool
  | .cmdPos _ _ | .cmdContrast _ | .cmdRaw => true
  | .dataClear | .dataGlyph _ | .dataRaw => false

/-- A serial transfer that succeeded (R56). -/
def Panel.serialOk (wrap : Option (Segment × Bank)) (p : Panel) (bs : List Byte) : Kind → Panel
  | .cmdPos segment bank => p.position segment bank
  | .cmdContrast value => p.contrast value
  | .cmdRaw => p.forgetRegisters
  | .dataClear | .dataGlyph _ | .dataRaw => { p.dataBytes wrap bs with seq := .idle }

/-- A serial transfer that failed (R57). -/
def Panel.serialFailed (wrap : Option (Segment × Bank)) (p : Panel) (bs : List Byte) (kind : Kind) : Panel :=
  if kind.isCommand then p.forgetRegisters else { p.dataFailed wrap bs.length with seq := .idle }

/-! ### Wire rows

The panel's side of each row of layer "wire", and what each does outside its place, are the model's DESIGN CHOICE
(log entry 3). A position byte outside normal mode, or a segment byte with no bank byte just before it, makes the cursor
alone unknown, as R56 says of a whole position command outside normal mode. A reserved bank, a byte of the contrast
sequence outside its place, and a byte of no row are command bytes with no stated meaning, so each has the one effect R93
allows, `forgetRegisters`. -/

/-- SET_BANK (R83), the first byte of a position sequence (R85). The cursor is unknown until the segment byte, and
outside normal mode it stays so (log entry 3). -/
def Panel.setBank (p : Panel) (bank : BitVec 3) : Panel :=
  if h : bank.toNat ≤ 5 then
    { p with cursor := none, seq := if p.mode = some .normal then .bank ⟨bank.toNat, by omega⟩ else .idle }
  else p.forgetRegisters

/-- SET_SEGMENT (R84), the second byte of a position sequence (R85). DESIGN CHOICE (log entry 3): with no bank byte just
before it, of which the spec says nothing, it makes the cursor unknown and leaves mode, Vop and display setting. -/
def Panel.setSegment (p : Panel) (segment : BitVec 6) : Panel :=
  { p with
    cursor :=
      match p.seq with
      | .bank bank => if p.mode = some .normal then some (⟨segment.toNat, by omega⟩, bank) else none
      | _ => none
    seq := .idle }

/-- `0x21` (R87): extended mode, in which the later command bytes are read. -/
def Panel.functionSetExtended (p : Panel) : Panel := { p with mode := some .extended, seq := .extended }

/-- `0x14` (R88): no effect on the projection. -/
def Panel.cmd0x14 (p : Panel) : Panel :=
  if p.seq = .extended then { p with seq := .bias } else p.forgetRegisters

/-- The Vop byte (R89), after `0x21, 0x14`. -/
def Panel.setVop (p : Panel) (value : Byte) : Panel :=
  if p.seq = .bias then { p with vop := some value, seq := .idle } else p.forgetRegisters

/-- `0x20` (R90): back to normal mode. -/
def Panel.functionSetNormal (p : Panel) : Panel := { p with mode := some .normal, seq := .idle }

/-- `0x0C` (R91), in normal mode. -/
def Panel.displayControlNormal (p : Panel) : Panel :=
  if p.mode = some .normal then { p with display := some .normal, seq := .idle } else p.forgetRegisters

/-- A position sequence (R85) of the wire's three and six bits. -/
def Panel.positionSequence (p : Panel) (bank : BitVec 3) (segment : BitVec 6) : Panel :=
  if h : bank.toNat ≤ 5 then p.position ⟨segment.toNat, by omega⟩ ⟨bank.toNat, by omega⟩ else p.forgetRegisters

def Panel.wire (wrap : Option (Segment × Bank)) (p : Panel) : WireOp → Panel
  | .setBank bank => p.setBank bank
  | .setSegment segment => p.setSegment segment
  | .functionSetExtended => p.functionSetExtended
  | .cmd0x14 => p.cmd0x14
  | .setVop value => p.setVop value
  | .functionSetNormal => p.functionSetNormal
  | .displayControlNormal => p.displayControlNormal
  | .dataByte pixels => { p.dataByte wrap pixels with seq := .idle }
  | .positionSequence bank segment => p.positionSequence bank segment
  | .contrastSequence value => p.contrast value
  | .reserved _ => p.forgetRegisters

/-- `panelStep(p, ev)` (R56, R58). -/
def Panel.step (wrap : Option (Segment × Bank)) (p : Panel) : Event → Panel
  | .write _ .low .reset .ok => p.resetPulse
  | .write _ _ .reset .fail => p.resetPulse
  | .write _ _ _ _ => p
  | .serial _ bs kind .ok => p.serialOk wrap bs kind
  | .serial _ bs kind .fail => p.serialFailed wrap bs kind
  | .setupGpio _ => p
  | .setupChannel _ _ _ _ _ => p
  | .pinMode _ _ => p
  | .hold _ => p
  | .wire op => p.wire wrap op

/-- `foldl panelStep panel0 trace` (R56). -/
def Panel.project (wrap : Option (Segment × Bank)) (trace : List Event) : Panel :=
  trace.foldl (Panel.step wrap) Panel.powerOn

end Sys2Proof.Machine
end

