-- ==== Sys2Proof/Machine/Ops.lean ====
section
/-! DEFINITION. The operations every meaning is built from: a backend call, the framing step, ending an operation
with a result (an error is an exception of this block: spec/60_exceptions.md R186 to R193), and the host port. -/

namespace Sys2Proof.Machine

/-! ### Backend calls -/

/-- Appends an event to the trace (R13, R35) and lets the panel see it (R56). -/
def State.emit (e : Event) (s : State) : State :=
  { s with trace := s.trace ++ [e], panel := s.panel.step s.cfg.panelLastWrap e }

/-- The backend's n-th draw (R184): the script's, and beyond it a free value (log entry 4). -/
def State.drawAt (s : State) (n : Nat) : Draw := s.script[n]?.getD (Config.freeDraw n)

/-- The draw of the next backend call. -/
def State.draw (s : State) : Draw := s.drawAt s.drawn

/-- `call(ev)` (R13): the event records the outcome drawn. -/
def State.call (ev : Answer → Event) (s : State) : State :=
  { s.emit (ev s.draw.answer) with drawn := s.drawn + 1 }

/-- The reset hold (R150, R213): `t ≥ 100` ms, no outcome, never fails. -/
def State.hold (s : State) : State := s.emit (.hold (100 + s.draw.holdExtra))

/-! ### Sequencing -/

/-- A piece of an operation has run: the state it leaves, and its value or the error it raised (R13 `raise`). -/
structure Ran (α : Type) where
  st : State
  res : Except Error α

/-- What follows runs only after success; an error ends the whole operation unchanged (R186), and undoes nothing
(R187). -/
def Ran.andThen {α β : Type} (r : Ran α) (k : α → State → Ran β) : Ran β :=
  match r.res with
  | .ok a => k a r.st
  | .error e => ⟨r.st, .error e⟩

/-- The cleanup an operation's rule lists for a failure (R188). -/
def Ran.onError {α : Type} (r : Ran α) (clean : State → State) : Ran α :=
  match r.res with
  | .ok _ => r
  | .error e => ⟨clean r.st, .error e⟩

/-- Success with a register update. -/
def Ran.done (s : State) : Ran Unit := ⟨s, .ok ()⟩

/-- One backend call whose failure raises `e`: `onFail` and `onOk` write the registers its rule names. -/
def attempt (ev : Answer → Event) (e : Error) (onFail onOk : State → State) (s : State) : Ran Unit :=
  match s.draw.answer with
  | .ok => ⟨onOk (s.call ev), .ok ()⟩
  | .fail => ⟨onFail (s.call ev), .error e⟩

/-- The two registers a transfer reads (R26, R27). -/
structure Handle where
  pins : PinMap
  channel : ChannelHandle
  deriving DecidableEq, Repr

/-- `command` and `data` levels (R82). -/
def Level.flip : Level → Level
  | .low => .high
  | .high => .low

def dcLevel (c : Config) (isCmd : Bool) : Level :=
  if isCmd then c.dcCommandLevel else Level.flip c.dcCommandLevel

/-- `frame(isCmd, bytes, kind)` (R110), with the `raise TransferError` of its callers: the D/C line is driven, then
the bytes go out in one call. -/
def frame (h : Handle) (isCmd : Bool) (bytes : List Byte) (kind : Kind) (s : State) : Ran Unit :=
  (attempt (.write h.pins.dataCommand (dcLevel s.cfg isCmd) .dc) .transfer
      (fun t => { t with dc := none })
      (fun t => { t with dc := some (dcLevel s.cfg isCmd) }) s).andThen fun _ t =>
    attempt (.serial h.channel bytes kind) .transfer id id t

/-! ### Ending an operation -/

/-- The result an operation writes when it ends (R22, R186, R191): nothing else changes. -/
def State.finish (res : Except Error Unit) (s : State) : State :=
  { s with
    lastResult := some <| match res with
      | .ok _ => .ok
      | .error e => .err e }

def Ran.finish (r : Ran Unit) : State := r.st.finish r.res

/-- A refusal (R13, R193): the sticky mark and the result, nothing else. -/
def State.refuse (r : Reason) (s : State) : State :=
  { s with refused := true, lastResult := some (.refused r) }

/-- A read of the register `pins` (R12, R26). -/
def State.readPins (s : State) : Except Fault PinMap :=
  match s.pins with
  | some p => .ok p
  | none => .error .unknownPins

/-- A read of the registers `pins` and `channel` (R12, R26, R27). -/
def State.readHandle (s : State) : Except Fault Handle :=
  match s.pins, s.channel with
  | some p, some c => .ok ⟨p, c⟩
  | some _, none => .error .unknownChannel
  | none, _ => .error .unknownPins

/-- An operation that needs an initialized handle, with the order of checks of R189: the phase (R193), then the
operand check, then the backend calls of `body`. -/
def operate {α β : Type} (check : Except Error β) (read : State → Except Fault α) (body : β → α → State → Ran Unit)
    (s : State) : Host.Outcome State Fault Refusal :=
  match s.phase with
  | .uninitialized => .next (s.refuse .notInitialized)
  | .initialized =>
    match check with
    | .error e => .next (s.finish (.error e))
    | .ok b =>
      match read s with
      | .error f => .fault f
      | .ok a => .next (body b a s).finish

/-! ### The set of output pins (R34) -/

/-- `outputs ∪ {p}`, pins strictly rising. -/
def insertPin (p : Pin) : List Pin → List Pin
  | [] => [p]
  | q :: qs => if p < q then p :: q :: qs else if p = q then q :: qs else q :: insertPin p qs

/-- The canonical form of a set of pins. -/
def pinsWfFrom : Nat → List Pin → Bool
  | _, [] => true
  | lo, q :: qs => decide (lo ≤ q) && pinsWfFrom (q + 1) qs

end Sys2Proof.Machine
end

