-- ==== Sys2Proof/Machine/Operands.lean ====
section
/-! DEFINITION. Operand assembly (spec/30_encoding.md R99), the range checks (spec/41_addressing.md R130,
spec/42_renderer.md R155) and the compositor (R152 to R154). -/

namespace Sys2Proof.Machine

/-- `inRange(segment, bank)` over the integers (R130). -/
def inRange (segment bank : Int) : Bool :=
  decide (0 ≤ segment) && decide (segment ≤ 83) && decide (0 ≤ bank) && decide (bank ≤ 5)

/-- The checked position of two integer operands, or `RangeError` (R130, R183). -/
def place (segment bank : Int) : Except Error (Segment × Bank) :=
  if inRange segment bank then .ok (Fin.ofNat 84 segment.toNat, Fin.ofNat 6 bank.toNat) else .error .range

/-- `[0x80 | bank, 0x40 | segment]` (R85, R99): bitwise OR, bank byte first. -/
def positionBytes (segment : Segment) (bank : Bank) : List Byte :=
  [0x80#8 ||| BitVec.ofNat 8 bank.val, 0x40#8 ||| BitVec.ofNat 8 segment.val]

/-- `[0x21, 0x14, v, 0x20, 0x0C]` (R86). -/
def contrastBytes (value : Byte) : List Byte := [0x21#8, 0x14#8, value, 0x20#8, 0x0C#8]

/-- `zeros(n)` (R11). -/
def zeros (n : Nat) : List Byte := List.replicate n 0x00#8

/-- The backlight pin is active-low (R99, R114). -/
def backlightLevel (on : Bool) : Level := if on then .low else .high

/-- The segment of a character column (R99, R132). -/
def columnSegment (col : Int) : Int := 6 * col

/-! ### Font rasterizer and compositor -/

/-- `glyph(c)` (R152): exact lookup, no default. -/
def glyph (font : Font) (c : CharCode) : Option (List Byte) := font.lookup c

/-- `cellBytes(g)` (R153): the glyph's columns and the spacing column. -/
def cellBytes (g : List Byte) : List Byte := g ++ [0x00#8]

/-- `compose(text)` (R154): the bytes of one character row and the first unsupported character. -/
def compose (font : Font) : List CharCode → List Byte × Option CharCode
  | [] => ([], none)
  | c :: cs =>
    match glyph font c with
    | none => ([], some c)
    | some g =>
      let more := compose font cs
      (cellBytes g ++ more.1, more.2)

/-- `textFits(row, col, n)` (R155). -/
def textFits (row col : Int) (n : Nat) : Bool :=
  decide (0 ≤ row) && decide (row ≤ 5) && decide (0 ≤ col) && decide (col ≤ 13) &&
    decide (6 * col + 6 * (n : Int) ≤ 84)

/-- The start of a text that fits, or `RangeError` before any event (R155, R157). -/
def textStart (row col : Int) (n : Nat) : Except Error (Segment × Bank) :=
  if textFits row col n then place (columnSegment col) row else .error .range

end Sys2Proof.Machine
end

