-- ==== Sys2Proof/Machine/Addressing.lean ====
section
/-! DEFINITION. The Addressing Model's operations (spec/41_addressing.md R131 to R133). -/

namespace Sys2Proof.Machine

/-- `setPositionBody` (R131) after its range check. -/
def setPositionBody (h : Handle) (p : Segment × Bank) (s : State) : Ran Unit :=
  ((frame h true (positionBytes p.1 p.2) (.cmdPos p.1 p.2) s).onError fun t => { t with lastPos := none }).andThen
    fun _ t => .done { t with lastPos := some p }

/-- `clearBody` (R133): position, 504 zero bytes in one transfer, position. -/
def clearBody (h : Handle) (s : State) : Ran Unit :=
  (setPositionBody h (0, 0) s).andThen fun _ t =>
    ((frame h false (zeros frameBytes) .dataClear t).onError fun u => { u with lastPos := none }).andThen fun _ u =>
      setPositionBody h (0, 0) u

/-- A position operation: the range check before any backend call (R130), then the position command. -/
def setPosition (segment bank : Int) (s : State) : Host.Outcome State Fault Refusal :=
  operate (place segment bank) State.readHandle (fun p h t => setPositionBody h p t) s

/-- SET_POSITION (R131). -/
def execSetpos (segment bank : Int) (s : State) : Host.Outcome State Fault Refusal := setPosition segment bank s

/-- LOCATE (R132): cell `(row, col)` is segment `6 * col` of bank `row`. -/
def execLocate (row col : Int) (s : State) : Host.Outcome State Fault Refusal :=
  setPosition (columnSegment col) row s

/-- CLEAR_SCREEN (R133). -/
def execCls (s : State) : Host.Outcome State Fault Refusal :=
  operate (.ok ()) State.readHandle (fun _ h t => clearBody h t) s

end Sys2Proof.Machine
end

