-- ==== Sys2Proof/Machine/BusAdapter.lean ====
section
/-! DEFINITION. The Bus Adapter's operations (spec/40_bus_adapter.md R111 to R114). -/

namespace Sys2Proof.Machine

/-- The six pins in the listed order (R111, D4). -/
def pinOrder (pins : PinMap) : List Pin :=
  [pins.clock, pins.data, pins.dataCommand, pins.reset, pins.backlight, pins.chipEnable]

/-- The `PinMode` loop of CONFIGURE (R111). -/
def setOutputs : List Pin → State → Ran Unit
  | [], s => .done s
  | p :: ps, s =>
    (attempt (.pinMode p) .busInit id (fun t => { t with outputs := insertPin p t.outputs }) s).andThen fun _ t =>
      setOutputs ps t

/-- The body of CONFIGURE (R111): it returns the handle it has set up. -/
def configureBody (pins : PinMap) (s : State) : Ran Handle :=
  (attempt .setupGpio .busInit id id { s with pins := some pins }).andThen fun _ t =>
    (attempt (.setupChannel pins.chipEnable pins.data pins.clock t.cfg.spiMode) .busInit id
        (fun u => { u with channel := some t.draw.handle }) t).andThen fun _ u =>
      (setOutputs (pinOrder pins) u).andThen fun _ v => ⟨v, .ok ⟨pins, t.draw.handle⟩⟩

/-- CONFIGURE (R111), the operation itself: the host port refuses it before it gets here (R97), and INIT runs its
body. Its precondition is the one R111 states, `phase = Uninitialized`. -/
def execConfigure (pins : PinMap) (s : State) : Host.Outcome State Fault Refusal :=
  match s.phase with
  | .initialized => .next (s.refuse .internal)
  | .uninitialized => .next ((configureBody pins s).andThen fun _ t => .done t).finish

/-- WRITE_COMMAND (R112). -/
def execCmd (bytes : List Byte) (s : State) : Host.Outcome State Fault Refusal :=
  operate (.ok ()) State.readHandle (fun _ h t => frame h true bytes .cmdRaw t) s

/-- WRITE_DATA (R113). -/
def execData (bytes : List Byte) (s : State) : Host.Outcome State Fault Refusal :=
  operate (.ok ()) State.readHandle (fun _ h t => frame h false bytes .dataRaw t) s

/-- The pin write of SET_BACKLIGHT and the two registers it sets (R114). -/
def driveBacklight (on : Bool) (pins : PinMap) (s : State) : Ran Unit :=
  attempt (.write pins.backlight (backlightLevel on) .backlight) .transfer
    (fun t => { t with blPin := none, blOn := none })
    (fun t => { t with blPin := some (backlightLevel on), blOn := some on }) s

/-- SET_BACKLIGHT (R114). -/
def execBacklight (on : Bool) (s : State) : Host.Outcome State Fault Refusal :=
  operate (.ok ()) State.readPins (fun _ pins t => driveBacklight on pins t) s

end Sys2Proof.Machine
end

