-- ==== Sys2Proof/Machine/Renderer.lean ====
section
/-! DEFINITION. The Renderer's operations (spec/42_renderer.md R150, R151, R157). -/

namespace Sys2Proof.Machine

/-- A write of the panel's reset pin (R150, R188). -/
def driveReset (pins : PinMap) (level : Level) (s : State) : Ran Unit :=
  attempt (.write pins.reset level .reset) .transfer
    (fun t => { t with rst := none })
    (fun t => { t with rst := some level }) s

/-- The contrast sequence and the register it sets (R150, R151). -/
def sendContrast (h : Handle) (value : Byte) (s : State) : Ran Unit :=
  ((frame h true (contrastBytes value) (.cmdContrast value) s).onError fun t => { t with contrast := none }).andThen
    fun _ t => .done { t with contrast := some value }

/-- The body of INIT, in the order of R150 and R211. -/
def initBody (pins : PinMap) (contrast : Byte) (s : State) : Ran Unit :=
  (configureBody pins s).andThen fun h t =>
    (driveReset pins .low t).andThen fun _ u =>
      (driveReset pins .high u.hold).andThen fun _ v =>
        (sendContrast h contrast v).andThen fun _ w =>
          (clearBody h w).andThen fun _ x => .done { x with phase := .initialized }

/-- INIT (R150). -/
def execInit (pins : PinMap) (contrast : Byte) (s : State) : Host.Outcome State Fault Refusal :=
  match s.phase with
  | .initialized => .next (s.refuse .reinitialize)
  | .uninitialized => .next (initBody pins contrast s).finish

/-- SET_CONTRAST (R151). -/
def execContrast (value : Byte) (s : State) : Host.Outcome State Fault Refusal :=
  operate (.ok ()) State.readHandle (fun _ h t => sendContrast h value t) s

/-- The per-character loop of DRAW_TEXT (R156, R157): lookup at the point of encounter, one transfer per glyph. -/
def drawChars (h : Handle) : List CharCode → State → Ran Unit
  | [], s => .done s
  | c :: cs, s =>
    match glyph s.cfg.font c with
    | none => ⟨s, .error (.unsupportedCharacter c)⟩
    | some g =>
      ((frame h false (cellBytes g) (.dataGlyph c) s).onError fun t => { t with lastPos := none }).andThen fun _ t =>
        drawChars h cs t

/-- DRAW_TEXT (R157). -/
def execText (row col : Int) (chars : List CharCode) (s : State) : Host.Outcome State Fault Refusal :=
  operate (textStart row col chars.length) State.readHandle
    (fun p h t => (setPositionBody h p t).andThen fun _ u => drawChars h chars u) s

end Sys2Proof.Machine
end

