-- ==== Sys2Proof/Machine/Wire.lean ====
section
/-! DEFINITION. The wire rows (spec/30_encoding.md R83 to R92): each reaches the panel as one event, and no engine
register changes (log entry 3). What each does there is in Machine/Panel.lean. -/

namespace Sys2Proof.Machine

def receive (op : WireOp) (s : State) : Host.Outcome State Fault Refusal := .next (s.emit (.wire op))

/-- SET_BANK (R83). -/
def execSetBank (bank : BitVec 3) (s : State) : Host.Outcome State Fault Refusal := receive (.setBank bank) s

/-- SET_SEGMENT (R84). -/
def execSetSegment (segment : BitVec 6) (s : State) : Host.Outcome State Fault Refusal :=
  receive (.setSegment segment) s

/-- FUNCTION_SET_EXTENDED (R87). -/
def execFunctionSetExtended (s : State) : Host.Outcome State Fault Refusal := receive .functionSetExtended s

/-- CMD_0x14 (R88). -/
def execCmd0x14 (s : State) : Host.Outcome State Fault Refusal := receive .cmd0x14 s

/-- SET_VOP (R89). -/
def execSetVop (value : Byte) (s : State) : Host.Outcome State Fault Refusal := receive (.setVop value) s

/-- FUNCTION_SET_NORMAL (R90). -/
def execFunctionSetNormal (s : State) : Host.Outcome State Fault Refusal := receive .functionSetNormal s

/-- DISPLAY_CONTROL_NORMAL (R91). -/
def execDisplayControlNormal (s : State) : Host.Outcome State Fault Refusal := receive .displayControlNormal s

/-- DATA_BYTE (R92). -/
def execDataByte (pixels : Byte) (s : State) : Host.Outcome State Fault Refusal := receive (.dataByte pixels) s

/-- POSITION_SEQUENCE (R85). -/
def execPositionSequence (bank : BitVec 3) (segment : BitVec 6) (s : State) : Host.Outcome State Fault Refusal :=
  receive (.positionSequence bank segment) s

/-- CONTRAST_SEQUENCE (R86). -/
def execContrastSequence (value : Byte) (s : State) : Host.Outcome State Fault Refusal :=
  receive (.contrastSequence value) s

end Sys2Proof.Machine
end

