-- ==== Sys2Proof/Machine/Dispatch.lean ====
section
/-! DEFINITION. One arm per constructor of Instr: the meaning of every row of spec/opcode_table.json. -/

namespace Sys2Proof.Machine

def exec (i : Instr) (s : State) : Host.Outcome State Fault Refusal :=
  match i with
  | .setBank bank => Sys2Proof.Machine.execSetBank bank s
  | .setSegment segment => Sys2Proof.Machine.execSetSegment segment s
  | .functionSetExtended => Sys2Proof.Machine.execFunctionSetExtended s
  | .cmd0x14 => Sys2Proof.Machine.execCmd0x14 s
  | .setVop value => Sys2Proof.Machine.execSetVop value s
  | .functionSetNormal => Sys2Proof.Machine.execFunctionSetNormal s
  | .displayControlNormal => Sys2Proof.Machine.execDisplayControlNormal s
  | .dataByte pixels => Sys2Proof.Machine.execDataByte pixels s
  | .positionSequence bank segment => Sys2Proof.Machine.execPositionSequence bank segment s
  | .contrastSequence value => Sys2Proof.Machine.execContrastSequence value s
  | .init pins contrast => Sys2Proof.Machine.execInit pins contrast s
  | .configure pins => Sys2Proof.Machine.execConfigure pins s
  | .cmd bytes => Sys2Proof.Machine.execCmd bytes s
  | .data bytes => Sys2Proof.Machine.execData bytes s
  | .backlight on => Sys2Proof.Machine.execBacklight on s
  | .setpos segment bank => Sys2Proof.Machine.execSetpos segment bank s
  | .locate row col => Sys2Proof.Machine.execLocate row col s
  | .cls => Sys2Proof.Machine.execCls s
  | .contrast value => Sys2Proof.Machine.execContrast value s
  | .text row col chars => Sys2Proof.Machine.execText row col chars s

end Sys2Proof.Machine
end

