-- ==== Sys2Proof/WellFormed.lean ====
section
/-! DEFINITION. Which instructions have a spelling in their layer's encoding (spec/30_encoding.md R83, R85, R95,
R96). The host's abstract term (R94) has none of these limits: a term that no descriptor spells, such as a negative
row, is still an operation and runs. -/

namespace Sys2Proof

/-- A pin is one descriptor byte (R95). -/
def PinMap.spellable (p : PinMap) : Bool :=
  decide (p.clock < 256) && decide (p.data < 256) && decide (p.dataCommand < 256) &&
    decide (p.reset < 256) && decide (p.backlight < 256) && decide (p.chipEnable < 256)

/-- An `Int` operand is one descriptor byte, zero-extended (R95): 0..255 and no negative value. -/
def spellableInt (v : Int) : Bool := decide (0 ≤ v) && decide (v < 256)

/-- The instruction has a spelling: no reserved bank (R83), and every operand fits its descriptor field (R95, R96). -/
def Instr.wellFormed : Instr → Bool
  | .setBank bank => decide (bank.toNat ≤ 5)
  | .setSegment _ => true
  | .functionSetExtended => true
  | .cmd0x14 => true
  | .setVop _ => true
  | .functionSetNormal => true
  | .displayControlNormal => true
  | .dataByte _ => true
  | .positionSequence bank _ => decide (bank.toNat ≤ 5)
  | .contrastSequence _ => true
  | .init pins _ => pins.spellable
  | .configure pins => pins.spellable
  | .cmd bytes => decide (bytes.length < 65536)
  | .data bytes => decide (bytes.length < 65536)
  | .backlight _ => true
  | .setpos segment bank => spellableInt segment && spellableInt bank
  | .locate row col => spellableInt row && spellableInt col
  | .cls => true
  | .contrast _ => true
  | .text row col chars =>
    spellableInt row && spellableInt col && decide (chars.length < 65536) &&
      chars.all (fun c => decide (c < 4294967296))

end Sys2Proof
end

