-- ==== Sys2Proof/Decode.lean ====
section
/-! DEFINITION. The decoder, total on any bytes and rejecting by name, and the encoder written from the same tables:
the host descriptor (spec/30_encoding.md R95 to R98) and the wire encoding (R83 to R92). -/

namespace Sys2Proof

/-- Why the decoder gives no instruction. -/
inductive Reject where
  /-- there is no byte to read -/
  | noBytes
  /-- tag `0x00` or `0x0B..0xFF` (R97) -/
  | noSuchOperation (tag : Byte)
  /-- a descriptor shorter than its layout requires (R97) -/
  | truncated (tag : Byte)
  /-- a SET_BACKLIGHT operand other than `0x00` and `0x01` (R97) -/
  | badBacklight (operand : Byte)
  /-- tag `0x02`: CONFIGURE is internal to INIT (R97) -/
  | internalOperation
  /-- a command byte that is none of R83 to R91 (R93) -/
  | reservedCommand (byte : Byte)
  deriving DecidableEq, Repr

/-- Where the bytes arrive: the host port, or the panel's side of the bus port with the level of the D/C line and,
for a command, the panel's place in a sequence. -/
inductive Port where
  | host
  | command (seq : WireSeq)
  | data
  deriving DecidableEq, Repr

/-! ### Fields -/

/-- A u16 descriptor field, least significant byte first (R96). -/
def u16 (lo hi : Byte) : Nat := lo.toNat + 256 * hi.toNat

/-- A u32 descriptor field, least significant byte first (R96). -/
def u32 (b0 b1 b2 b3 : Byte) : Nat :=
  b0.toNat + 256 * b1.toNat + 65536 * b2.toNat + 16777216 * b3.toNat

def u16Bytes (n : Nat) : List Byte := [BitVec.ofNat 8 n, BitVec.ofNat 8 (n / 256)]

def u32Bytes (n : Nat) : List Byte :=
  [BitVec.ofNat 8 n, BitVec.ofNat 8 (n / 256), BitVec.ofNat 8 (n / 65536), BitVec.ofNat 8 (n / 16777216)]

/-- The first `n` bytes and the rest, if there are that many. -/
def takeBytes (n : Nat) (bs : List Byte) : Option (List Byte × List Byte) :=
  if n ≤ bs.length then some (bs.take n, bs.drop n) else none

/-- `n` u32 character codes and the rest, if there are enough bytes. -/
def takeCodes : Nat → List Byte → Option (List CharCode × List Byte)
  | 0, bs => some ([], bs)
  | n + 1, b0 :: b1 :: b2 :: b3 :: bs =>
    (takeCodes n bs).map fun r => (u32 b0 b1 b2 b3 :: r.1, r.2)
  | _ + 1, _ => none

/-- A pin byte becomes the pin by zero extension (R95). -/
def pinsOf (clock data dataCommand reset backlight chipEnable : Byte) : PinMap :=
  { clock := clock.toNat, data := data.toNat, dataCommand := dataCommand.toNat,
    reset := reset.toNat, backlight := backlight.toNat, chipEnable := chipEnable.toNat }

/-! ### The host descriptor -/

def orTruncated (tag : Byte) : Option (Instr × List Byte) → Except Reject (Instr × List Byte)
  | some r => .ok r
  | none => .error (.truncated tag)

/-- The operand fields after the tag (R95), for each of the ten tags. -/
def decodeInit (bs : List Byte) : Option (Instr × List Byte) :=
  match bs with
  | clk :: din :: dc :: rst :: bl :: ce :: v :: rest => some (.init (pinsOf clk din dc rst bl ce) v, rest)
  | _ => none

def decodeConfigure (bs : List Byte) : Option (Instr × List Byte) :=
  match bs with
  | clk :: din :: dc :: rst :: bl :: ce :: rest => some (.configure (pinsOf clk din dc rst bl ce), rest)
  | _ => none

/-- `n : u16`, then `n` bytes. -/
def decodeCounted (make : List Byte → Instr) (bs : List Byte) : Option (Instr × List Byte) :=
  match bs with
  | lo :: hi :: rest => (takeBytes (u16 lo hi) rest).map fun r => (make r.1, r.2)
  | _ => none

/-- Two u8 operands, each an `Int` by zero extension. -/
def decodePair (make : Int → Int → Instr) (bs : List Byte) : Option (Instr × List Byte) :=
  match bs with
  | a :: b :: rest => some (make a.toNat b.toNat, rest)
  | _ => none

def decodeText (bs : List Byte) : Option (Instr × List Byte) :=
  match bs with
  | row :: col :: lo :: hi :: rest =>
    (takeCodes (u16 lo hi) rest).map fun r => (.text row.toNat col.toNat r.1, r.2)
  | _ => none

def decodeBacklight (bs : List Byte) : Except Reject (Instr × List Byte) :=
  match bs with
  | on :: rest =>
    if on = 0x00#8 then .ok (.backlight false, rest)
    else if on = 0x01#8 then .ok (.backlight true, rest)
    else .error (.badBacklight on)
  | _ => .error (.truncated 0x05#8)

def decodeContrast (bs : List Byte) : Option (Instr × List Byte) :=
  match bs with
  | v :: rest => some (.contrast v, rest)
  | _ => none

/-- One descriptor at the head of a host stream, and the rest of the stream (R95, R97, R98). -/
def decodeHost : List Byte → Except Reject (Instr × List Byte)
  | [] => .error .noBytes
  | tag :: bs =>
    match tag.toNat with
    | 1 => orTruncated tag (decodeInit bs)
    | 2 => orTruncated tag (decodeConfigure bs)
    | 3 => orTruncated tag (decodeCounted .cmd bs)
    | 4 => orTruncated tag (decodeCounted .data bs)
    | 5 => decodeBacklight bs
    | 6 => orTruncated tag (decodePair .setpos bs)
    | 7 => orTruncated tag (decodePair .locate bs)
    | 8 => .ok (.cls, bs)
    | 9 => orTruncated tag (decodeContrast bs)
    | 10 => orTruncated tag (decodeText bs)
    | _ => .error (.noSuchOperation tag)

/-! ### The wire -/

/-- `10000bbb` with a legal bank (R83). -/
def isBankByte (b : Byte) : Bool := b &&& 0xF8#8 == 0x80#8 && decide ((b.setWidth 3).toNat ≤ 5)

/-- `01ssssss` (R84). -/
def isSegmentByte (b : Byte) : Bool := b &&& 0xC0#8 == 0x40#8

/-- One command byte (R83, R84, R87 to R91). The Vop byte is the one after `0x21, 0x14`, whatever its value (R89). -/
def decodeCommandByte (seq : WireSeq) (b : Byte) : Except Reject Instr :=
  if seq = .bias then .ok (.setVop b)
  else if isBankByte b then .ok (.setBank (b.setWidth 3))
  else if isSegmentByte b then .ok (.setSegment (b.setWidth 6))
  else if b = 0x21#8 then .ok .functionSetExtended
  else if b = 0x14#8 then .ok .cmd0x14
  else if b = 0x20#8 then .ok .functionSetNormal
  else if b = 0x0C#8 then .ok .displayControlNormal
  else .error (.reservedCommand b)

/-- The operand of a command transfer that is exactly a contrast sequence (R86). -/
def contrastOperand (bs : List Byte) : Option Byte :=
  match bs with
  | [b0, b1, v, b3, b4] =>
    if b0 = 0x21#8 ∧ b1 = 0x14#8 ∧ b3 = 0x20#8 ∧ b4 = 0x0C#8 then some v else none
  | _ => none

/-- The operands of a command transfer that is exactly a position sequence (R85). -/
def positionOperands (bs : List Byte) : Option (BitVec 3 × BitVec 6) :=
  match bs with
  | [b0, b1] => if isBankByte b0 && isSegmentByte b1 then some (b0.setWidth 3, b1.setWidth 6) else none
  | _ => none

/-- The first instruction of a command transfer: a whole sequence where the transfer is one, else its first byte. -/
def decodeCommand (seq : WireSeq) (bs : List Byte) : Except Reject (Instr × List Byte) :=
  match bs with
  | [] => .error .noBytes
  | b :: rest =>
    if seq = .bias then .ok (.setVop b, rest)
    else
      match contrastOperand bs, positionOperands bs with
      | some v, _ => .ok (.contrastSequence v, [])
      | none, some (bank, segment) => .ok (.positionSequence bank segment, [])
      | none, none =>
        match decodeCommandByte seq b with
        | .ok i => .ok (i, rest)
        | .error r => .error r

/-- In a data transfer every byte value is legal (R92). -/
def decodeData : List Byte → Except Reject (Instr × List Byte)
  | [] => .error .noBytes
  | b :: rest => .ok (.dataByte b, rest)

/-- The decoder: the first instruction at a port, and the bytes after it. -/
def decode : Port → List Byte → Except Reject (Instr × List Byte)
  | .host, bs => decodeHost bs
  | .command seq, bs => decodeCommand seq bs
  | .data, bs => decodeData bs

/-- What the host port's decoder gives: `decodeHost`, with tag `0x02` refused whatever follows it (R97). -/
def decodeDescriptor (bs : List Byte) : Except Reject (Instr × List Byte) :=
  if bs.head? = some 0x02#8 then .error .internalOperation else decodeHost bs

/-- A whole host stream (R98): "every byte string decodes to a list of operations, possibly ending in a refusal".
The fuel is the stream's length, since every descriptor has at least its tag. -/
def decodeStreamFuel : Nat → List Byte → List Instr × Option Reject
  | _, [] => ([], none)
  | 0, _ :: _ => ([], some .noBytes)
  | fuel + 1, bs =>
    match decodeDescriptor bs with
    | .error r => ([], some r)
    | .ok (i, rest) =>
      let more := decodeStreamFuel fuel rest
      (i :: more.1, more.2)

def decodeStream (bs : List Byte) : List Instr × Option Reject := decodeStreamFuel bs.length bs

/-! ### The encoder -/

def PinMap.bytes (p : PinMap) : List Byte :=
  [BitVec.ofNat 8 p.clock, BitVec.ofNat 8 p.data, BitVec.ofNat 8 p.dataCommand,
   BitVec.ofNat 8 p.reset, BitVec.ofNat 8 p.backlight, BitVec.ofNat 8 p.chipEnable]

def bankByte (bank : BitVec 3) : Byte := 0x80#8 ||| bank.setWidth 8

def segmentByte (segment : BitVec 6) : Byte := 0x40#8 ||| segment.setWidth 8

/-- The words of a well-formed instruction (R83 to R92, R95). -/
def encode : Instr → List Byte
  | .setBank bank => [bankByte bank]
  | .setSegment segment => [segmentByte segment]
  | .functionSetExtended => [0x21#8]
  | .cmd0x14 => [0x14#8]
  | .setVop value => [value]
  | .functionSetNormal => [0x20#8]
  | .displayControlNormal => [0x0C#8]
  | .dataByte pixels => [pixels]
  | .positionSequence bank segment => [bankByte bank, segmentByte segment]
  | .contrastSequence value => [0x21#8, 0x14#8, value, 0x20#8, 0x0C#8]
  | .init pins contrast => 0x01#8 :: (pins.bytes ++ [contrast])
  | .configure pins => 0x02#8 :: pins.bytes
  | .cmd bytes => 0x03#8 :: (u16Bytes bytes.length ++ bytes)
  | .data bytes => 0x04#8 :: (u16Bytes bytes.length ++ bytes)
  | .backlight on => [0x05#8, if on then 0x01#8 else 0x00#8]
  | .setpos segment bank => [0x06#8, BitVec.ofInt 8 segment, BitVec.ofInt 8 bank]
  | .locate row col => [0x07#8, BitVec.ofInt 8 row, BitVec.ofInt 8 col]
  | .cls => [0x08#8]
  | .contrast value => [0x09#8, value]
  | .text row col chars =>
    0x0A#8 :: BitVec.ofInt 8 row :: BitVec.ofInt 8 col :: (u16Bytes chars.length ++ chars.flatMap u32Bytes)

/-- The port an instruction's words are read at. -/
def Instr.port : Instr → Port
  | .setBank _ | .setSegment _ | .functionSetExtended | .cmd0x14 | .functionSetNormal
  | .displayControlNormal | .positionSequence _ _ | .contrastSequence _ => .command .idle
  | .setVop _ => .command .bias
  | .dataByte _ => .data
  | .init _ _ | .configure _ | .cmd _ | .data _ | .backlight _ | .setpos _ _ | .locate _ _ | .cls
  | .contrast _ | .text _ _ _ => .host

/-! ### The words of spec/opcode_table.json (log entry 15) -/

/-- The length a descriptor's tag and count give it (R98), a missing count byte read as zero. -/
def descriptorLength (bs : List Byte) : Nat :=
  match (bs.headD 0#8).toNat with
  | 1 => 8
  | 2 => 7
  | 3 | 4 => 3 + u16 (bs.getD 1 0#8) (bs.getD 2 0#8)
  | 5 => 2
  | 6 | 7 => 3
  | 8 => 1
  | 9 => 2
  | 10 => 5 + 4 * u16 (bs.getD 3 0#8) (bs.getD 4 0#8)
  | _ => bs.length

/-- A descriptor cut or filled with zero bytes to its length. -/
def fitDescriptor (bs : List Byte) : List Byte :=
  (bs ++ List.replicate (descriptorLength bs) 0#8).take (descriptorLength bs)

/-- The bytes of a number, least significant first. -/
def leBytes : Nat → Nat → List Byte
  | 0, _ => []
  | k + 1, w => BitVec.ofNat 8 w :: leBytes k (w / 256)

/-- The port and the bytes a word of the table stands for. A row of one byte is that byte, and a descriptor's tag
byte is followed by zero operand bytes. The table numbers the two-byte row with its first byte at bits 15..8, so a
longer word is read that way first and with its first byte lowest after that. -/
def tableWord (nbits w : Nat) : Option (Port × List Byte) :=
  let low := leBytes (nbits / 8) w
  [(Port.host, fitDescriptor low), (Port.command .idle, low.reverse), (Port.command .idle, low), (Port.data, low)].find?
    fun c =>
      match decode c.1 c.2 with
      | .ok (_, []) => true
      | _ => false

def decodeTableWord (nbits w : Nat) : Option Instr :=
  match tableWord nbits w with
  | some (port, bs) =>
    match decode port bs with
    | .ok (i, _) => some i
    | .error _ => none
  | none => none

end Sys2Proof
end

