-- ==== Sys2Proof/Machine/Fetch.lean ====
section
/-! DEFINITION. The two ports the step reads: the host port with its program (spec/10_state.md R23, R24,
spec/30_encoding.md R97, R98) and the panel's side of the bus port, and what a step does before and after the
instruction it runs. -/

namespace Sys2Proof.Machine

/-- What the step finds: an instruction to run in a state, or a step that ends without one. -/
inductive Fetched where
  | run (i : Instr) (s : State)
  | settled (s : State)

/-! ### The panel's side of the bus port (log entry 3) -/

def Transfer.port (seq : WireSeq) (t : Transfer) : Port :=
  match t.framing with
  | .command => .command seq
  | .data => .data

/-- The first instruction of a waiting transfer; its other bytes go on waiting. A command byte that is none of the
table's has the effect R93 allows. -/
def fetchTransfer (t : Transfer) (more : List Transfer) (s : State) : Fetched :=
  match decode (t.port s.panel.seq) t.bytes with
  | .ok (i, []) => .run i { s with busIn := more }
  | .ok (i, rest) => .run i { s with busIn := { t with bytes := rest } :: more }
  | .error _ =>
    match t.bytes with
    | [] => .settled { s with busIn := more }
    | b :: [] => .settled ({ s with busIn := more }.emit (.wire (.reserved b)))
    | b :: rest => .settled ({ s with busIn := { t with bytes := rest } :: more }.emit (.wire (.reserved b)))

/-! ### The host port -/

/-- The reason R193 gives for a rejected descriptor (`noBytes` is none: `fetchIssue` decodes no empty stream). -/
def rejectReason : Reject → Reason
  | .internalOperation => .internal
  | .noBytes | .noSuchOperation _ | .truncated _ | .badBacklight _ | .reservedCommand _ => .badDescriptor

/-- A refusal at the port ends the run (R223). -/
def State.refuseAtPort (r : Reason) (s : State) : State := { s.refuse r with ended := true }

/-- Bytes after the first descriptor of an item become the next item (R98: "The decoder then moves to the next
descriptor"). -/
def State.splitProgram (bs rest : List Byte) (s : State) : State :=
  match rest with
  | [] => s
  | _ :: _ =>
    { s with
      prog := s.prog.take s.pc ++ .bytes (bs.take (bs.length - rest.length)) :: .bytes rest :: s.prog.drop (s.pc + 1) }

/-- CONFIGURE is no operation of the host's (R97, R193), and a wire row is none at all (R94; log entry 17).
DESIGN CHOICE (log entry 7): a CONFIGURE issued before initialization fits two rows of R193, `internal` and
`not_initialized` (which R211 says of any other first operation), and the port answers `internal` in either phase. -/
def portReason : Instr → Option Reason
  | .configure _ => some .internal
  | .setBank _ | .setSegment _ | .functionSetExtended | .cmd0x14 | .setVop _ | .functionSetNormal
  | .displayControlNormal | .dataByte _ | .positionSequence _ _ | .contrastSequence _ => some .badDescriptor
  | .init _ _ | .cmd _ | .data _ | .backlight _ | .setpos _ _ | .locate _ _ | .cls | .contrast _
  | .text _ _ _ => none

/-- The program without its item at `pc`. -/
def State.dropItem (s : State) : State := { s with prog := s.prog.take s.pc ++ s.prog.drop (s.pc + 1) }

/-- The program's item at `pc`: the checks of R189 item 1. DESIGN CHOICE (log entry 8): an item of no bytes is an empty
host stream, which R98 decodes to no operation and no refusal, so a step takes it out of the program and issues
nothing. -/
def fetchIssue (issue : Issue) (s : State) : Fetched :=
  match issue with
  | .op i =>
    match portReason i with
    | some r => .settled (s.refuseAtPort r)
    | none => .run i s
  | .bytes [] => .settled s.dropItem
  | .bytes (tag :: fields) =>
    match decodeDescriptor (tag :: fields) with
    | .error r => .settled (s.refuseAtPort (rejectReason r))
    | .ok (i, rest) => .run i (s.splitProgram (tag :: fields) rest)

/-- The start of a run (R24). -/
def State.startRun (prog : List Issue) (s : State) : State := { s with prog := prog, pc := 0, ended := false }

/-- The run is over: the host's next run starts, or there is no operation to issue and nothing changes (R192;
log entry 8). -/
def fetchNextRun (s : State) : Fetched :=
  match s.runs with
  | [] => .settled s
  | prog :: more => .settled ({ s with runs := more }.startRun prog)

/-- The host issues `prog[pc]` while the run goes on (R23, R24, R223); a bad configuration is refused before any
operation (R193). -/
def fetchHost (s : State) : Fetched :=
  if s.ended then fetchNextRun s
  else
    match s.prog[s.pc]? with
    | none => fetchNextRun s
    | some issue =>
      if s.cfg.accepted then fetchIssue issue s else .settled (s.refuseAtPort .badConfiguration)

/-- A transfer waiting at the panel goes first. -/
def fetch (s : State) : Fetched :=
  match s.busIn with
  | t :: more => fetchTransfer t more s
  | [] => fetchHost s

/-! ### After the instruction -/

/-- R24: after `ok` the next operation, after an error or a refusal the run ends. A wire row is no operation of the
program. -/
def retire (i : Instr) (s : State) : State :=
  match i.layer with
  | .wire => s
  | .host =>
    match s.lastResult with
    | some .ok => { s with pc := s.pc + 1 }
    | _ => { s with ended := true }

/-- A host stream as the host program of a new run (R95, R98). -/
def State.load (stream : List Byte) (s : State) : State :=
  s.startRun (if stream = [] then [] else [.bytes stream])

/-- A word of the opcode table at the port it belongs to, for the next step. -/
def placeWord (s : State) (nbits w : Nat) : State :=
  match tableWord nbits w with
  | some (.command seq, bs) => { s with busIn := [⟨.command, bs⟩], panel := { s.panel with seq := seq } }
  | some (.data, bs) => { s with busIn := [⟨.data, bs⟩] }
  | some (.host, bs) => { s.startRun [.bytes bs] with busIn := [] }
  | none => { s.startRun [.bytes (leBytes (nbits / 8) w)] with busIn := [] }

end Sys2Proof.Machine
end

