-- ==== Sys2Proof/Machine/Step.lean ====
section
/-! DEFINITION. One step: fetch, run, retire. -/

namespace Sys2Proof.Machine

def step (s : State) : Host.Outcome State Fault Refusal :=
  match fetch s with
  | .settled t => .next t
  | .run i t =>
    match exec i t with
    | .next u => .next (retire i u)
    | .fault f => .fault f
    | .refused r => .refused r

/-- `s` with a word of the opcode table where the next step fetches (log entry 15). -/
def State.withFetchWord (s : State) (nbits w : Nat) : State := placeWord s nbits w

end Sys2Proof.Machine
end

