-- ==== Sys2Proof/Machine/Assembler.lean ====
section
/-! DEFINITION. The assembler syntax of spec/30_encoding.md R100, "for test programs": text, as a list of code points, to the
abstract operations of R94. It stands outside the step: the host issues what it gives. Comments, and a `cmd` or
`data` with no bytes, are read from the programs and vectors of spec/95_test_vectors.md (log entry 20). -/

namespace Sys2Proof.Machine

inductive Token where
  | name (chars : List Char)
  | number (value : Nat)
  | comma
  | equals
  | string (codes : List CharCode)
  deriving DecidableEq, Repr

/-! ### Words and numbers -/

/-- The value of a hexadecimal digit. -/
def hexDigit (c : CharCode) : Option Nat :=
  if 0x30 ≤ c ∧ c ≤ 0x39 then some (c - 0x30)
  else if 0x41 ≤ c ∧ c ≤ 0x46 then some (c - 0x37)
  else if 0x61 ≤ c ∧ c ≤ 0x66 then some (c - 0x57)
  else none

def decimalDigit (c : CharCode) : Option Nat := if 0x30 ≤ c ∧ c ≤ 0x39 then some (c - 0x30) else none

def isLetter (c : CharCode) : Bool :=
  (decide (0x41 ≤ c) && decide (c ≤ 0x5A)) || (decide (0x61 ≤ c) && decide (c ≤ 0x7A))

/-- The digits of a number, the first one the most significant. -/
def digitsValue (digit : CharCode → Option Nat) (base : Nat) : Nat → List CharCode → Option Nat
  | acc, [] => some acc
  | acc, c :: cs => (digit c).bind fun d => digitsValue digit base (base * acc + d) cs

/-- "Numbers are decimal or `0x` hexadecimal" (R100). -/
def wordToken (codes : List CharCode) : Option Token :=
  match codes with
  | [] => none
  | 0x30 :: 0x78 :: c :: cs => (digitsValue hexDigit 16 0 (c :: cs)).map .number
  | c :: cs =>
    if isLetter c then some (.name ((c :: cs).map Char.ofNat))
    else (digitsValue decimalDigit 10 0 (c :: cs)).map .number

/-! ### The scanner of one line -/

inductive Scan where
  | between
  /-- in a word, its characters so far, the last one first -/
  | word (rev : List CharCode)
  /-- in a string, its characters so far, the last one first -/
  | string (rev : List CharCode)
  /-- after a backslash -/
  | escape (rev : List CharCode)
  /-- after `\u` -/
  | unicode (rev : List CharCode)
  /-- in the digits of a `\u` escape -/
  | hex (rev digits : List CharCode)

def isWordCode (c : CharCode) : Bool := isLetter c || (decimalDigit c).isSome

/-- A token, before those that follow. -/
def addToken (t : Option Token) (rest : Option (List Token)) : Option (List Token) :=
  match t, rest with
  | some t, some ts => some (t :: ts)
  | _, _ => none

/-- One character between tokens: a separator's tokens, and the scanner's next place. -/
def scanBetween (c : CharCode) : Option (List Token × Scan) :=
  if c = 0x20 ∨ c = 0x09 ∨ c = 0x0D then some ([], .between)
  else if c = 0x2C then some ([.comma], .between)
  else if c = 0x3D then some ([.equals], .between)
  else if c = 0x22 then some ([], .string [])
  else if isWordCode c then some ([], .word [c])
  else none

/-- The tokens of one line. A semicolon outside a string starts a comment. -/
def scan : Scan → List CharCode → Option (List Token)
  | .between, [] => some []
  | .word rev, [] => addToken (wordToken rev.reverse) (some [])
  | .string _, [] | .escape _, [] | .unicode _, [] | .hex _ _, [] => none
  | .between, c :: cs =>
    if c = 0x3B then some []
    else
      match scanBetween c with
      | none => none
      | some (ts, next) => (scan next cs).map fun rest => ts ++ rest
  | .word rev, c :: cs =>
    if isWordCode c then scan (.word (c :: rev)) cs
    else if c = 0x3B then addToken (wordToken rev.reverse) (some [])
    else
      match scanBetween c with
      | none => none
      | some (ts, next) => addToken (wordToken rev.reverse) ((scan next cs).map fun rest => ts ++ rest)
  | .string rev, c :: cs =>
    if c = 0x22 then addToken (some (.string rev.reverse)) (scan .between cs)
    else if c = 0x5C then scan (.escape rev) cs
    else scan (.string (c :: rev)) cs
  | .escape rev, c :: cs =>
    if c = 0x22 ∨ c = 0x5C then scan (.string (c :: rev)) cs
    else if c = 0x75 then scan (.unicode rev) cs
    else none
  | .unicode rev, c :: cs => if c = 0x7B then scan (.hex rev []) cs else none
  | .hex rev digits, c :: cs =>
    if c = 0x7D then
      match digits with
      | [] => none
      | _ :: _ =>
        match digitsValue hexDigit 16 0 digits.reverse with
        | some v => scan (.string (v :: rev)) cs
        | none => none
    else scan (.hex rev (c :: digits)) cs

/-! ### The operations -/

/-- A `B` or a `V`: a number that fits a byte. -/
def byteOperand (n : Nat) : Option Byte := if n < 256 then some (BitVec.ofNat 8 n) else none

/-- `B {, B}`. -/
def byteOperands : List Token → Option (List Byte)
  | [] => some []
  | [.number n] => (byteOperand n).map fun b => [b]
  | .number n :: .comma :: .number m :: ts =>
    match byteOperand n, byteOperands (.number m :: ts) with
    | some b, some bs => some (b :: bs)
    | _, _ => none
  | _ => none

/-- The qualifiers of `init`, in their order: which one it is, and the operands with it set. -/
def initQualifier (name : List Char) (v : Nat) (i : PinMap × Byte) : Option (Nat × PinMap × Byte) :=
  if name = ['c', 'l', 'k'] then some (0, { i.1 with clock := v }, i.2)
  else if name = ['d', 'i', 'n'] then some (1, { i.1 with data := v }, i.2)
  else if name = ['d', 'c'] then some (2, { i.1 with dataCommand := v }, i.2)
  else if name = ['r', 's', 't'] then some (3, { i.1 with reset := v }, i.2)
  else if name = ['b', 'l'] then some (4, { i.1 with backlight := v }, i.2)
  else if name = ['c', 'e'] then some (5, { i.1 with chipEnable := v }, i.2)
  else if name = ['c', 'o', 'n', 't', 'r', 'a', 's', 't'] then (byteOperand v).map fun b => (6, i.1, b)
  else none

/-- `[clk=P] [, din=P] …`: "an absent qualifier is the stated default". -/
def initQualifiers (least : Nat) (i : PinMap × Byte) : List Token → Option (PinMap × Byte)
  | [] => some i
  | [.name name, .equals, .number v] =>
    match initQualifier name v i with
    | some (k, j) => if least ≤ k then some j else none
    | none => none
  | .name name :: .equals :: .number v :: .comma :: .name next :: ts =>
    match initQualifier name v i with
    | some (k, j) => if least ≤ k then initQualifiers (k + 1) j (.name next :: ts) else none
    | none => none
  | _ => none

/-- The operands of `init`. DESIGN CHOICE (log entry 20): R100 writes a comma before every qualifier but `clk`. Where `clk`
is absent that comma may stand, as the syntax is written, or be left out, and before `clk` none may stand. -/
def initOperands (i : PinMap × Byte) : List Token → Option (PinMap × Byte)
  | .comma :: .name name :: ts => initQualifiers 1 i (.name name :: ts)
  | ts => initQualifiers 0 i ts

/-- The operation of one line's tokens (R100). -/
def lineOperation (mnemonic : List Char) (operands : List Token) : Option Instr :=
  if mnemonic = ['i', 'n', 'i', 't'] then
    (initOperands (PinMap.default, defaultContrast) operands).map fun i => .init i.1 i.2
  else if mnemonic = ['c', 'm', 'd'] then (byteOperands operands).map .cmd
  else if mnemonic = ['d', 'a', 't', 'a'] then (byteOperands operands).map .data
  else if mnemonic = ['b', 'a', 'c', 'k', 'l', 'i', 'g', 'h', 't'] then
    if operands = [.name ['o', 'n']] then some (.backlight true)
    else if operands = [.name ['o', 'f', 'f']] then some (.backlight false)
    else none
  else if mnemonic = ['s', 'e', 't', 'p', 'o', 's'] then
    match operands with
    | [.number segment, .comma, .number bank] => some (.setpos segment bank)
    | _ => none
  else if mnemonic = ['l', 'o', 'c', 'a', 't', 'e'] then
    match operands with
    | [.number row, .comma, .number col] => some (.locate row col)
    | _ => none
  else if mnemonic = ['c', 'l', 's'] then
    match operands with
    | [] => some .cls
    | _ => none
  else if mnemonic = ['c', 'o', 'n', 't', 'r', 'a', 's', 't'] then
    match operands with
    | [.number v] => (byteOperand v).map .contrast
    | _ => none
  else if mnemonic = ['t', 'e', 'x', 't'] then
    match operands with
    | [.number row, .comma, .number col, .comma, .string chars] => some (.text row col chars)
    | _ => none
  else none

/-- One line: no operation where it is empty or a comment. -/
def assembleLine (line : List CharCode) : Option (List Instr) :=
  match scan .between line with
  | some [] => some []
  | some (.name mnemonic :: operands) => (lineOperation mnemonic operands).map fun i => [i]
  | _ => none

/-- The lines of a text. -/
def splitLines : List CharCode → List (List CharCode)
  | [] => [[]]
  | c :: cs =>
    if c = 0x0A then [] :: splitLines cs
    else
      match splitLines cs with
      | [] => [[c]]
      | l :: ls => (c :: l) :: ls

/-- The operations of a text, or none where a line is not of the syntax. -/
def assembleLines : List (List CharCode) → Option (List Instr)
  | [] => some []
  | l :: ls =>
    match assembleLine l, assembleLines ls with
    | some is, some js => some (is ++ js)
    | _, _ => none

/-- A program in the syntax of R100. -/
def assemble (text : List CharCode) : Option (List Instr) := assembleLines (splitLines text)

end Sys2Proof.Machine
end

