-- ==== Sys2Proof/Machine/Flags.lean ====
section
/-! DEFINITION. The engine's one status flag: the result of the last operation (spec/10_state.md R22) and its code
(spec/60_exceptions.md R180). -/

namespace Sys2Proof.Machine

/-- The numeric result codes (R180). -/
def Result.code : Result → Nat
  | .ok => 0
  | .err .busInit => 1
  | .err .transfer => 2
  | .err .range => 3
  | .err (.unsupportedCharacter _) => 4
  | .refused _ => 5

/-- The info R180 records beside the code. -/
def Result.character : Result → Option CharCode
  | .err (.unsupportedCharacter c) => some c
  | .ok | .err .busInit | .err .transfer | .err .range | .refused _ => none

/-- The outcome an event records (R35); `Hold` and the model's own event have none. -/
def Event.answer : Event → Option Answer
  | .setupGpio a => some a
  | .setupChannel _ _ _ _ a => some a
  | .pinMode _ a => some a
  | .write _ _ _ a => some a
  | .serial _ _ _ a => some a
  | .hold _ => none
  | .wire _ => none

end Sys2Proof.Machine
end

