-- ==== Sys2Proof/Safety.lean ====
section
/-! DEFINITION. What counts as a safe run: the invariant of the machine, and the premises a claim about an
operation takes on the state (spec/60_exceptions.md R184, R193) in the terms the statements use. -/

namespace Sys2Proof.Machine

/-- What every step keeps. -/
structure State.Inv (s : State) : Prop where
  /-- R56: the panel projection is the fold of the trace. -/
  projection : s.panel = Panel.project s.cfg.panelLastWrap s.trace
  /-- R115: an initialized engine knows its pins and its channel. -/
  handle : s.phase = .initialized → s.pins.isSome = true ∧ s.channel.isSome = true
  /-- R29: the reset line is HIGH after a successful initialization. -/
  resetLine : s.phase = .initialized → s.rst = some .high
  /-- R31: the logical backlight state and the level of its pin agree. -/
  backlight : (s.blOn = some true ↔ s.blPin = some .low) ∧ (s.blOn = some false ↔ s.blPin = some .high)
  /-- R37, R51: the frame memory keeps its canonical form and lists only its 504 cells. -/
  ram : Memory.wf s.panel.ram = true
  /-- R34: the set of output pins keeps its canonical form. -/
  outputs : pinsWfFrom 0 s.outputs = true
  /-- R213: every reset hold lasted at least 100 ms. -/
  holds : ∀ ms, Event.hold ms ∈ s.trace → 100 ≤ ms
  /-- R36, R193: a refusal leaves its sticky mark. -/
  refusal : ∀ r, s.lastResult = some (.refused r) → s.refused = true

/-- The oracle answers `ok` to the next `n` backend calls (R184). -/
def State.AnswersOk (s : State) (n : Nat) : Prop :=
  ∀ k, k < n → (s.drawAt (s.drawn + k)).answer = .ok

/-- The oracle answers `ok` to the next `n` backend calls and `fail` to the one after them (R184). -/
def State.FailsAfter (s : State) (n : Nat) : Prop :=
  s.AnswersOk n ∧ (s.drawAt (s.drawn + n)).answer = .fail

/-- An initialized engine with these pins and this channel (R115, R193). -/
def State.Ready (s : State) (h : Handle) : Prop :=
  s.phase = .initialized ∧ s.pins = some h.pins ∧ s.channel = some h.channel

/-- The state after `events` have been appended to the trace (R35), the panel having seen each of them in order
(R56), and `calls` backend calls having been made. -/
def State.afterEvents (s : State) (events : List Event) (calls : Nat) : State :=
  { s with
    trace := s.trace ++ events
    panel := events.foldl (Panel.step s.cfg.panelLastWrap) s.panel
    drawn := s.drawn + calls }

/-- The two events of a transfer that succeeds (R81). -/
def transferEvents (c : Config) (h : Handle) (isCmd : Bool) (bytes : List Byte) (kind : Kind) : List Event :=
  [.write h.pins.dataCommand (dcLevel c isCmd) .dc .ok, .serial h.channel bytes kind .ok]

/-- The six events of a clear screen that succeeds (R133). -/
def clearEvents (c : Config) (h : Handle) : List Event :=
  transferEvents c h true [0x80#8, 0x40#8] (.cmdPos 0 0) ++
    transferEvents c h false (zeros 504) .dataClear ++
      transferEvents c h true [0x80#8, 0x40#8] (.cmdPos 0 0)

/-- The eight events of a CONFIGURE that succeeds (R111). -/
def configureEvents (c : Config) (p : PinMap) : List Event :=
  [.setupGpio .ok, .setupChannel p.chipEnable p.data p.clock c.spiMode .ok, .pinMode p.clock .ok, .pinMode p.data .ok,
   .pinMode p.dataCommand .ok, .pinMode p.reset .ok, .pinMode p.backlight .ok, .pinMode p.chipEnable .ok]

/-- The nineteen events of an INIT that succeeds (R150, V-INIT-1), with a hold of `ms`. -/
def initEvents (c : Config) (h : Handle) (contrast : Byte) (ms : Nat) : List Event :=
  configureEvents c h.pins ++
    [.write h.pins.reset .low .reset .ok, .hold ms, .write h.pins.reset .high .reset .ok] ++
      transferEvents c h true [0x21#8, 0x14#8, contrast, 0x20#8, 0x0C#8] (.cmdContrast contrast) ++
        clearEvents c h

/-- The events of the glyph transfers of a text whose characters all have glyphs (R157). -/
def glyphEvents (c : Config) (h : Handle) (chars : List CharCode) : List Event :=
  chars.flatMap fun ch =>
    transferEvents c h false (cellBytes ((glyph c.font ch).getD [])) (.dataGlyph ch)

/-- The backend calls of an event list that are not the reset hold. -/
def wireBytes : List Event → List (Pin × Level ⊕ List Byte)
  | [] => []
  | .write pin level _ _ :: es => .inl (pin, level) :: wireBytes es
  | .serial _ bs _ _ :: es => .inr bs :: wireBytes es
  | _ :: es => wireBytes es

end Sys2Proof.Machine
end

