-- ==== Sys2Proof/Certificates/Slice0/Obligations.lean ====
section
/-! DEFINITION. The statements for the provers. Each docstring names the rules of spec/ it rests on; where a clause rests
on the model's own choice it names the log entry. In every statement `drawn` and `drawAt` are the model's form of the
backend oracle of R184 (log entry 4). `State.Ready`, `State.AnswersOk`, `State.FailsAfter`, `State.afterEvents` and the event lists
are in Sys2Proof/Safety.lean. -/

open Sys2Proof Sys2Proof.Machine

/-! ### Reset, the invariant, and the step -/

/-- R42, R210: the power-on table, field by field. -/
def Obligations.ResetIsThePowerOnTable : Prop :=
  State.reset.phase = .uninitialized ∧ State.reset.pins = none ∧ State.reset.channel = none ∧ State.reset.dc = none ∧
    State.reset.rst = none ∧ State.reset.blPin = none ∧ State.reset.blOn = none ∧ State.reset.contrast = none ∧
    State.reset.lastPos = none ∧ State.reset.outputs = [] ∧ State.reset.trace = [] ∧ State.reset.refused = false ∧
    State.reset.lastResult = none ∧ State.reset.pc = 0 ∧
    (∀ bank segment, State.reset.panel.cell bank segment = none) ∧ State.reset.panel.cursor = none ∧
    State.reset.panel.mode = none ∧ State.reset.panel.vop = none ∧ State.reset.panel.display = none

/-- The invariant of `State.Inv` holds at reset. -/
def Obligations.ResetMeetsTheInvariant : Prop := State.reset.Inv

/-- Every step keeps `State.Inv`: the panel is the fold of the trace (R56), an initialized engine has its handle (R115)
and its reset line HIGH (R29), the backlight registers agree (R31), the frame memory and the output set are canonical
(R34, R37), holds last 100 ms (R213), a refusal leaves its mark (R36, R193). The wire events in the trace and the log's own
fields are the model's (log entries 3 and 8). -/
def Obligations.EveryStepKeepsTheInvariant : Prop :=
  ∀ s t : State, s.Inv → step s = .next t → t.Inv

/-- From every state that meets the invariant the machine takes a step: no fault, no refusal, whatever the backend
answers (R115, R202, R222: every operation is total over its draws). -/
def Obligations.NoStepStopsUnderTheInvariant : Prop :=
  ∀ s : State, s.Inv → ∃ t, step s = .next t

/-- R35: each call appends one event, and no event is removed or reordered. -/
def Obligations.EachCallAppendsOneEvent : Prop :=
  ∀ s t : State, step s = .next t →
    ∃ events, t.trace = s.trace ++ events ∧
      t.drawn = s.drawn + (events.filter fun e => e.answer.isSome).length

/-- R36: no step clears the sticky mark. -/
def Obligations.RefusedMarkIsSticky : Prop :=
  ∀ s t : State, step s = .next t → s.refused = true → t.refused = true

/-- R23, R24, R98: when the item at `pc` is a host stream whose first descriptor decodes to `i`, the step is exec of `i`
(the rest of the stream split off as the next item), and then `pc` advances after `ok`, or the run ends. -/
def Obligations.StepRunsTheDecodedDescriptor : Prop :=
  ∀ (s u : State) (bs rest : List Byte) (i : Instr),
    s.busIn = [] → s.ended = false → s.cfg.accepted = true → s.prog[s.pc]? = some (.bytes bs) →
    decodeDescriptor bs = .ok (i, rest) → exec i (s.splitProgram bs rest) = .next u →
      (u.lastResult = some .ok → step s = .next { u with pc := u.pc + 1 }) ∧
      (u.lastResult ≠ some .ok → step s = .next { u with ended := true })

/-- R23, R24, R94: the same for an abstract operation at `pc`, which may be any operation but CONFIGURE. -/
def Obligations.StepRunsTheAbstractOperation : Prop :=
  ∀ (s u : State) (i : Instr),
    s.busIn = [] → s.ended = false → s.cfg.accepted = true → s.prog[s.pc]? = some (.op i) →
    i.layer = .host → (∀ pins, i ≠ .configure pins) → exec i s = .next u →
      (u.lastResult = some .ok → step s = .next { u with pc := u.pc + 1 }) ∧
      (u.lastResult ≠ some .ok → step s = .next { u with ended := true })

/-- The panel's port (log entry 3): when a transfer waits there and its first instruction decodes to `i`, the step is
exec of `i`, and the transfer's other bytes go on waiting. -/
def Obligations.StepRunsTheWaitingTransfer : Prop :=
  ∀ (s u : State) (framing : Framing) (bs rest : List Byte) (more : List Transfer) (i : Instr),
    s.busIn = ⟨framing, bs⟩ :: more →
    decode (match framing with | .command => .command s.panel.seq | .data => .data) bs = .ok (i, rest) →
    exec i { s with busIn := if rest = [] then more else ⟨framing, rest⟩ :: more } = .next u →
      step s = .next u

/-- R24, R192, R223 (log entry 8): when the run is over the host's next run starts at `pc = 0` in the state the run left,
and when there is none nothing changes. -/
def Obligations.EndedRunGivesWayToTheNext : Prop :=
  ∀ s : State, s.busIn = [] → (s.ended = true ∨ s.prog.length ≤ s.pc) →
    (s.runs = [] → step s = .next s) ∧
    (∀ prog more, s.runs = prog :: more →
      step s = .next { s with runs := more, prog := prog, pc := 0, ended := false })

/-! ### Refusals -/

/-- R193: every operation but INIT, CONFIGURE apart, is refused before initialization, with no event and nothing else
changed. -/
def Obligations.UninitializedEngineRefuses : Prop :=
  ∀ (s : State) (i : Instr), s.phase = .uninitialized → i.layer = .host →
    (∀ pins contrast, i ≠ .init pins contrast) → (∀ pins, i ≠ .configure pins) →
      exec i s = .next { s with refused := true, lastResult := some (.refused .notInitialized) }

/-- R193: INIT is refused in `Initialized`. That CONFIGURE, should it run there, is refused as `internal` is the model's
reading of R111's precondition and R194 (log entry 7). -/
def Obligations.InitializedEngineRefusesInit : Prop :=
  ∀ (s : State) (pins : PinMap) (contrast : Byte), s.phase = .initialized →
    exec (.init pins contrast) s = .next { s with refused := true, lastResult := some (.refused .reinitialize) } ∧
    exec (.configure pins) s = .next { s with refused := true, lastResult := some (.refused .internal) }

/-- R97, R193: the descriptors the host port refuses, with the reason of each and nothing else changed (that the run ends
is R24). -/
def Obligations.BadDescriptorsAreRefused : Prop :=
  ∀ (s : State) (bs : List Byte),
    s.busIn = [] → s.ended = false → s.cfg.accepted = true → s.prog[s.pc]? = some (.bytes bs) →
      (bs.head? = some 0x02#8 →
        step s = .next { s with refused := true, lastResult := some (.refused .internal), ended := true }) ∧
      ((∃ tag rest, bs = tag :: rest ∧ (tag = 0x00#8 ∨ 0x0B#8 ≤ tag)) ∨
        (∃ on rest, bs = 0x05#8 :: on :: rest ∧ on ≠ 0x00#8 ∧ on ≠ 0x01#8) ∨
        (∃ tag rest, bs = tag :: rest ∧ tag ≠ 0x02#8 ∧ bs.length < descriptorLength bs) →
        step s = .next { s with refused := true, lastResult := some (.refused .badDescriptor), ended := true })

/-- R193: CONFIGURE issued by the host as an abstract operation, in either phase. Before initialization it fits two rows of
R193, and that the reason is `internal` and not `not_initialized` (R211) is the model's choice (log entry 7). -/
def Obligations.HostConfigureIsRefused : Prop :=
  ∀ (s : State) (pins : PinMap),
    s.busIn = [] → s.ended = false → s.cfg.accepted = true → s.prog[s.pc]? = some (.op (.configure pins)) →
      step s = .next { s with refused := true, lastResult := some (.refused .internal), ended := true }

/-- R8, R59, R193, R214: a geometry whose divisions are not exact, or a font with an entry that is not five bytes, is
refused before any operation. -/
def Obligations.BadConfigurationIsRefused : Prop :=
  ∀ (s : State) (issue : Issue),
    s.busIn = [] → s.ended = false → s.prog[s.pc]? = some issue →
    (s.cfg.geometry.exact = false ∨ ∃ c g, (c, g) ∈ s.cfg.font ∧ g.length ≠ 5) →
      step s = .next { s with refused := true, lastResult := some (.refused .badConfiguration), ended := true }

/-! ### The Bus Adapter -/

/-- R110, R112, R113: what a raw write does, for each answer of the backend: both calls succeed, the D/C write fails, the
serial call fails. -/
def Obligations.RawWritesFollowTheirPseudocode : Prop :=
  ∀ (s : State) (h : Handle) (bs : List Byte), s.Ready h →
    (s.AnswersOk 2 →
      exec (.cmd bs) s = .next { s.afterEvents (transferEvents s.cfg h true bs .cmdRaw) 2 with
        dc := some (dcLevel s.cfg true), lastResult := some .ok } ∧
      exec (.data bs) s = .next { s.afterEvents (transferEvents s.cfg h false bs .dataRaw) 2 with
        dc := some (dcLevel s.cfg false), lastResult := some .ok }) ∧
    (s.FailsAfter 0 →
      exec (.cmd bs) s = .next { s.afterEvents [.write h.pins.dataCommand (dcLevel s.cfg true) .dc .fail] 1 with
        dc := none, lastResult := some (.err .transfer) } ∧
      exec (.data bs) s = .next { s.afterEvents [.write h.pins.dataCommand (dcLevel s.cfg false) .dc .fail] 1 with
        dc := none, lastResult := some (.err .transfer) }) ∧
    (s.FailsAfter 1 →
      exec (.cmd bs) s = .next { s.afterEvents [.write h.pins.dataCommand (dcLevel s.cfg true) .dc .ok,
          .serial h.channel bs .cmdRaw .fail] 2 with
        dc := some (dcLevel s.cfg true), lastResult := some (.err .transfer) } ∧
      exec (.data bs) s = .next { s.afterEvents [.write h.pins.dataCommand (dcLevel s.cfg false) .dc .ok,
          .serial h.channel bs .dataRaw .fail] 2 with
        dc := some (dcLevel s.cfg false), lastResult := some (.err .transfer) })

/-- R114: SET_BACKLIGHT drives the active-low pin, LOW for on and HIGH for off, and writes its two registers; a failed pin
write makes them unknown. -/
def Obligations.BacklightFollowsItsPseudocode : Prop :=
  ∀ (s : State) (h : Handle), s.Ready h →
    (s.AnswersOk 1 →
      exec (.backlight true) s = .next { s.afterEvents [.write h.pins.backlight .low .backlight .ok] 1 with
        blPin := some .low, blOn := some true, lastResult := some .ok } ∧
      exec (.backlight false) s = .next { s.afterEvents [.write h.pins.backlight .high .backlight .ok] 1 with
        blPin := some .high, blOn := some false, lastResult := some .ok }) ∧
    (s.FailsAfter 0 →
      exec (.backlight true) s = .next { s.afterEvents [.write h.pins.backlight .low .backlight .fail] 1 with
        blPin := none, blOn := none, lastResult := some (.err .transfer) } ∧
      exec (.backlight false) s = .next { s.afterEvents [.write h.pins.backlight .high .backlight .fail] 1 with
        blPin := none, blOn := none, lastResult := some (.err .transfer) })

/-- R111, R181, R188: CONFIGURE for each answer of the backend. All ok: the eight calls in the listed order, the pins, the
handle drawn by the channel call, and six pins more in the output set. At the first failure it stops with BusInitError,
and `pins`, `channel` and `outputs` are as far as it got (that a failed channel call leaves `channel` as it was is log
entry 12; that exec runs CONFIGURE by itself is log entry 7). -/
def Obligations.ConfigureCompletes : Prop :=
  ∀ (s : State) (pins : PinMap), s.phase = .uninitialized →
    let order := [pins.clock, pins.data, pins.dataCommand, pins.reset, pins.backlight, pins.chipEnable]
    let handle := (s.drawAt (s.drawn + 1)).handle
    (s.AnswersOk 8 →
      exec (.configure pins) s = .next { s.afterEvents (configureEvents s.cfg pins) 8 with
        pins := some pins
        channel := some handle
        outputs := order.foldl (fun o p => insertPin p o) s.outputs
        lastResult := some .ok }) ∧
    (s.FailsAfter 0 →
      exec (.configure pins) s = .next { s.afterEvents [.setupGpio .fail] 1 with
        pins := some pins, lastResult := some (.err .busInit) }) ∧
    (s.FailsAfter 1 →
      exec (.configure pins) s = .next { s.afterEvents
          [.setupGpio .ok, .setupChannel pins.chipEnable pins.data pins.clock s.cfg.spiMode .fail] 2 with
        pins := some pins, lastResult := some (.err .busInit) }) ∧
    (∀ (k : Nat) (p : Pin), order[k]? = some p → s.FailsAfter (2 + k) →
      exec (.configure pins) s = .next { s.afterEvents
          ((configureEvents s.cfg pins).take (2 + k) ++ [.pinMode p .fail]) (3 + k) with
        pins := some pins
        channel := some handle
        outputs := (order.take k).foldl (fun o p => insertPin p o) s.outputs
        lastResult := some (.err .busInit) })

/-- R82, R10: LOW is the command level the reference configuration fixes (the spec's decision from general knowledge,
log entry 9). R110: data is the other level, in every configuration. -/
def Obligations.FramingLevelsDiffer : Prop :=
  Config.reference.dcCommandLevel = .low ∧
    ∀ c : Config, dcLevel c true = c.dcCommandLevel ∧ dcLevel c false ≠ c.dcCommandLevel

/-! ### The Addressing Model -/

/-- R83, R84, R85: the two bytes of a position for every legal position, and the aliasing of segments 64 to 83 (R84's own
"Derived consequence"). -/
def Obligations.PositionBytesAlias : Prop :=
  ∀ (segment : Segment) (bank : Bank),
    (∃ b0 b1 : Byte, positionBytes segment bank = [b0, b1] ∧ b0.toNat = 0x80 + bank.val ∧
      b1.toNat = if segment.val < 64 then 0x40 + segment.val else segment.val) ∧
    ∀ other : Segment, segment.val = other.val + 64 → positionBytes segment bank = positionBytes other bank

/-- R131: SET_POSITION at every position in range, for each answer of the backend. -/
def Obligations.SetPositionFollowsItsPseudocode : Prop :=
  ∀ (s : State) (h : Handle) (segment : Segment) (bank : Bank), s.Ready h →
    (s.AnswersOk 2 →
      exec (.setpos segment.val bank.val) s = .next { s.afterEvents
          (transferEvents s.cfg h true (positionBytes segment bank) (.cmdPos segment bank)) 2 with
        dc := some (dcLevel s.cfg true), lastPos := some (segment, bank), lastResult := some .ok }) ∧
    (s.FailsAfter 0 →
      exec (.setpos segment.val bank.val) s = .next { s.afterEvents
          [.write h.pins.dataCommand (dcLevel s.cfg true) .dc .fail] 1 with
        dc := none, lastPos := none, lastResult := some (.err .transfer) }) ∧
    (s.FailsAfter 1 →
      exec (.setpos segment.val bank.val) s = .next { s.afterEvents
          [.write h.pins.dataCommand (dcLevel s.cfg true) .dc .ok,
            .serial h.channel (positionBytes segment bank) (.cmdPos segment bank) .fail] 2 with
        dc := some (dcLevel s.cfg true), lastPos := none, lastResult := some (.err .transfer) })

/-- R132, R101: LOCATE is SET_POSITION at segment `6 * col` of bank `row`, for every two integers; and at every legal cell it
completes there. -/
def Obligations.LocateIsScaledSetPosition : Prop :=
  (∀ (s : State) (row col : Int), exec (.locate row col) s = exec (.setpos (6 * col) row) s) ∧
  ∀ (s : State) (h : Handle) (row : Bank) (col : Fin 14) (segment : Segment), s.Ready h → s.AnswersOk 2 →
    segment.val = 6 * col.val →
    exec (.locate row.val col.val) s = .next { s.afterEvents
        (transferEvents s.cfg h true (positionBytes segment row) (.cmdPos segment row)) 2 with
      dc := some (dcLevel s.cfg true), lastPos := some (segment, row), lastResult := some .ok }

/-- R130, R132, R155, R157, R183: the three range checks, exactly when each fails, and that a RangeError appends no event
and changes nothing but the result. -/
def Obligations.RangeErrorsPrecedeEveryCall : Prop :=
  ∀ (s : State), s.phase = .initialized →
    (∀ segment bank : Int, ¬ (0 ≤ segment ∧ segment ≤ 83 ∧ 0 ≤ bank ∧ bank ≤ 5) →
      exec (.setpos segment bank) s = .next { s with lastResult := some (.err .range) }) ∧
    (∀ row col : Int, ¬ (0 ≤ row ∧ row ≤ 5 ∧ 0 ≤ col ∧ col ≤ 13) →
      exec (.locate row col) s = .next { s with lastResult := some (.err .range) }) ∧
    (∀ (row col : Int) (chars : List CharCode),
      ¬ (0 ≤ row ∧ row ≤ 5 ∧ 0 ≤ col ∧ col ≤ 13 ∧ 6 * col + 6 * (chars.length : Int) ≤ 84) →
      exec (.text row col chars) s = .next { s with lastResult := some (.err .range) })

/-- R133: CLEAR_SCREEN with a backend that answers ok: the six events, position (0, 0). -/
def Obligations.ClearScreenCompletes : Prop :=
  ∀ (s : State) (h : Handle), s.Ready h → s.AnswersOk 6 →
    exec .cls s = .next { s.afterEvents (clearEvents s.cfg h) 6 with
      dc := some (dcLevel s.cfg true), lastPos := some (0, 0), lastResult := some .ok }

/-- R133, R54 to R56: with the panel's mode known to be normal, a completed CLEAR_SCREEN leaves every cell `0x00` and the
cursor at (0, 0), whatever PANEL_LAST_WRAP is. -/
def Obligations.ClearScreenFillsTheFrame : Prop :=
  ∀ (s t : State) (h : Handle), s.Ready h → s.AnswersOk 6 → s.panel.mode = some .normal →
    exec .cls s = .next t →
      (∀ bank segment, t.panel.cell bank segment = some 0x00#8) ∧ t.panel.cursor = some (0, 0) ∧
        t.panel.mode = some .normal

/-! ### The Renderer -/

/-- R150, R211, R213: INIT with a backend that answers ok to its eighteen calls: the nineteen events with a hold of at
least 100 ms, and every register INIT writes. -/
def Obligations.InitCompletes : Prop :=
  ∀ (s : State) (pins : PinMap) (contrast : Byte), s.phase = .uninitialized → s.AnswersOk 18 →
    ∃ ms, 100 ≤ ms ∧
      exec (.init pins contrast) s = .next { s.afterEvents
          (initEvents s.cfg ⟨pins, (s.drawAt (s.drawn + 1)).handle⟩ contrast ms) 18 with
        phase := .initialized
        pins := some pins
        channel := some (s.drawAt (s.drawn + 1)).handle
        dc := some (dcLevel s.cfg true)
        rst := some .high
        contrast := some contrast
        lastPos := some (0, 0)
        outputs := [pins.clock, pins.data, pins.dataCommand, pins.reset, pins.backlight, pins.chipEnable].foldl
          (fun o p => insertPin p o) s.outputs
        lastResult := some .ok }

/-- R150, R111, R188: what INIT leaves when its call of number `n` is the first to fail. In CONFIGURE's eight calls it
leaves what CONFIGURE leaves; after them TransferError, with `pins`, `channel` and `outputs` written, and each other
register as far as INIT got or unknown by R188. -/
def Obligations.InitFailuresFollowTheirPseudocode : Prop :=
  ∀ (s : State) (pins : PinMap) (contrast : Byte), s.phase = .uninitialized →
    (∀ n, n < 8 → s.FailsAfter n → exec (.init pins contrast) s = exec (.configure pins) s) ∧
    ∃ ms, 100 ≤ ms ∧
      let handle := (s.drawAt (s.drawn + 1)).handle
      let events := initEvents s.cfg ⟨pins, handle⟩ contrast ms
      let left := fun (k : Nat) (failed : Event) (calls : Nat) => { s.afterEvents (events.take k ++ [failed]) calls with
        pins := some pins
        channel := some handle
        outputs := [pins.clock, pins.data, pins.dataCommand, pins.reset, pins.backlight, pins.chipEnable].foldl
          (fun o p => insertPin p o) s.outputs
        lastResult := some (.err .transfer) }
      let command := dcLevel s.cfg true
      let data := dcLevel s.cfg false
      (s.FailsAfter 8 → exec (.init pins contrast) s = .next { left 8 (.write pins.reset .low .reset .fail) 9 with
        rst := none }) ∧
      (s.FailsAfter 9 → exec (.init pins contrast) s = .next { left 10 (.write pins.reset .high .reset .fail) 10 with
        rst := none }) ∧
      (s.FailsAfter 10 → exec (.init pins contrast) s = .next { left 11 (.write pins.dataCommand command .dc .fail) 11 with
        rst := some .high, dc := none, contrast := none }) ∧
      (s.FailsAfter 11 → exec (.init pins contrast) s = .next
        { left 12 (.serial handle [0x21#8, 0x14#8, contrast, 0x20#8, 0x0C#8] (.cmdContrast contrast) .fail) 12 with
          rst := some .high, dc := some command, contrast := none }) ∧
      (s.FailsAfter 12 → exec (.init pins contrast) s = .next { left 13 (.write pins.dataCommand command .dc .fail) 13 with
        rst := some .high, dc := none, contrast := some contrast, lastPos := none }) ∧
      (s.FailsAfter 13 → exec (.init pins contrast) s = .next
        { left 14 (.serial handle [0x80#8, 0x40#8] (.cmdPos 0 0) .fail) 14 with
          rst := some .high, dc := some command, contrast := some contrast, lastPos := none }) ∧
      (s.FailsAfter 14 → exec (.init pins contrast) s = .next { left 15 (.write pins.dataCommand data .dc .fail) 15 with
        rst := some .high, dc := none, contrast := some contrast, lastPos := none }) ∧
      (s.FailsAfter 15 → exec (.init pins contrast) s = .next { left 16 (.serial handle (zeros 504) .dataClear .fail) 16 with
        rst := some .high, dc := some data, contrast := some contrast, lastPos := none }) ∧
      (s.FailsAfter 16 → exec (.init pins contrast) s = .next { left 17 (.write pins.dataCommand command .dc .fail) 17 with
        rst := some .high, dc := none, contrast := some contrast, lastPos := none }) ∧
      (s.FailsAfter 17 → exec (.init pins contrast) s = .next
        { left 18 (.serial handle [0x80#8, 0x40#8] (.cmdPos 0 0) .fail) 18 with
          rst := some .high, dc := some command, contrast := some contrast, lastPos := none })

/-- R212: the state after a successful INIT from power-on, field by field, for every five-byte font and every
PANEL_LAST_WRAP, with the command level LOW that R212's table takes. -/
def Obligations.InitFromPowerOnReachesTheTable : Prop :=
  ∀ (cfg : Config) (script : List Draw) (pins : PinMap) (c : Byte) (s : State),
    cfg.accepted = true → cfg.dcCommandLevel = .low →
    s = { State.reset with cfg := cfg, script := script, prog := [.op (.init pins c)] } → s.AnswersOk 18 →
    ∃ t, step s = .next t ∧
      t.phase = .initialized ∧ t.pins = some pins ∧ t.channel = some (s.drawAt 1).handle ∧ t.dc = some .low ∧
      t.rst = some .high ∧ t.blPin = none ∧ t.blOn = none ∧ t.contrast = some c ∧ t.lastPos = some (0, 0) ∧
      (∀ p, p ∈ t.outputs ↔
        p ∈ [pins.clock, pins.data, pins.dataCommand, pins.reset, pins.backlight, pins.chipEnable]) ∧
      (∃ ms, 100 ≤ ms ∧ t.trace = initEvents cfg ⟨pins, (s.drawAt 1).handle⟩ c ms) ∧
      t.refused = false ∧ t.lastResult = some .ok ∧ t.pc = 1 ∧
      (∀ bank segment, t.panel.cell bank segment = some 0x00#8) ∧ t.panel.cursor = some (0, 0) ∧
      t.panel.mode = some .normal ∧ t.panel.vop = some c ∧ t.panel.display = some .normal

/-- R86, R151: SET_CONTRAST, for all 256 values and each answer of the backend. -/
def Obligations.SetContrastFollowsItsPseudocode : Prop :=
  ∀ (s : State) (h : Handle) (v : Byte), s.Ready h →
    (s.AnswersOk 2 →
      exec (.contrast v) s = .next { s.afterEvents
          (transferEvents s.cfg h true [0x21#8, 0x14#8, v, 0x20#8, 0x0C#8] (.cmdContrast v)) 2 with
        dc := some (dcLevel s.cfg true), contrast := some v, lastResult := some .ok }) ∧
    (s.FailsAfter 0 →
      exec (.contrast v) s = .next { s.afterEvents [.write h.pins.dataCommand (dcLevel s.cfg true) .dc .fail] 1 with
        dc := none, contrast := none, lastResult := some (.err .transfer) }) ∧
    (s.FailsAfter 1 →
      exec (.contrast v) s = .next { s.afterEvents [.write h.pins.dataCommand (dcLevel s.cfg true) .dc .ok,
          .serial h.channel [0x21#8, 0x14#8, v, 0x20#8, 0x0C#8] (.cmdContrast v) .fail] 2 with
        dc := some (dcLevel s.cfg true), contrast := none, lastResult := some (.err .transfer) })

/-- R101: SET_CONTRAST puts the same bytes and levels on the bus as the raw command of its five bytes, and SET_POSITION the
same as the raw command of its two, whatever the backend answers. -/
def Obligations.ComposedCommandsSendTheRawBytes : Prop :=
  ∀ (s t u : State),
    (∀ v : Byte, exec (.contrast v) s = .next t → exec (.cmd [0x21#8, 0x14#8, v, 0x20#8, 0x0C#8]) s = .next u →
      wireBytes t.trace = wireBytes u.trace) ∧
    (∀ (segment : Segment) (bank : Bank), exec (.setpos segment.val bank.val) s = .next t →
      exec (.cmd [0x80#8 ||| BitVec.ofNat 8 bank.val, 0x40#8 ||| BitVec.ofNat 8 segment.val]) s = .next u →
      wireBytes t.trace = wireBytes u.trace)

/-- R155, R157: DRAW_TEXT of a text that fits and whose characters all have glyphs, with a backend that answers ok: one
position command, then one transfer for each character. -/
def Obligations.DrawTextCompletes : Prop :=
  ∀ (s : State) (h : Handle) (row : Bank) (col : Fin 14) (segment : Segment) (chars : List CharCode),
    s.Ready h → s.AnswersOk (2 + 2 * chars.length) → segment.val = 6 * col.val →
    6 * col.val + 6 * chars.length ≤ 84 → (∀ c ∈ chars, glyph s.cfg.font c ≠ none) →
    exec (.text row.val col.val chars) s = .next { s.afterEvents
        (transferEvents s.cfg h true (positionBytes segment row) (.cmdPos segment row) ++ glyphEvents s.cfg h chars)
        (2 + 2 * chars.length) with
      dc := some (dcLevel s.cfg (chars.isEmpty))
      lastPos := some (segment, row)
      lastResult := some .ok }

/-- R156, R157, R185: at the first character with no glyph DRAW_TEXT ends with its error; the glyphs before it stay
transmitted and nothing is sent after it. -/
def Obligations.DrawTextStopsAtAnUnsupportedCharacter : Prop :=
  ∀ (s : State) (h : Handle) (row : Bank) (col : Fin 14) (segment : Segment) (before after : List CharCode)
    (c : CharCode),
    s.Ready h → s.AnswersOk (2 + 2 * before.length) → segment.val = 6 * col.val →
    6 * col.val + 6 * (before.length + 1 + after.length) ≤ 84 →
    (∀ x ∈ before, glyph s.cfg.font x ≠ none) → glyph s.cfg.font c = none →
    exec (.text row.val col.val (before ++ c :: after)) s = .next { s.afterEvents
        (transferEvents s.cfg h true (positionBytes segment row) (.cmdPos segment row) ++ glyphEvents s.cfg h before)
        (2 + 2 * before.length) with
      dc := some (dcLevel s.cfg (before.isEmpty))
      lastPos := some (segment, row)
      lastResult := some (.err (.unsupportedCharacter c)) }

/-- R154, R157: a completed text at a column whose position does not alias fills its cells with the compositor's bytes, and
no other cell changes; the panel's cursor ends after the last one. -/
def Obligations.DrawnTextFillsItsCells : Prop :=
  ∀ (s t : State) (h : Handle) (row : Bank) (col : Fin 14) (chars : List CharCode),
    s.Ready h → s.AnswersOk (2 + 2 * chars.length) → s.panel.mode = some .normal → col.val ≤ 10 →
    6 * col.val + 6 * chars.length ≤ 84 → (∀ c ∈ chars, ∃ g, glyph s.cfg.font c = some g ∧ g.length = 5) →
    exec (.text row.val col.val chars) s = .next t →
      (compose s.cfg.font chars).1.length = 6 * chars.length ∧
      (∀ segment : Segment, 6 * col.val ≤ segment.val → segment.val < 6 * col.val + 6 * chars.length →
        t.panel.cell row segment = (compose s.cfg.font chars).1[segment.val - 6 * col.val]?) ∧
      (∀ (bank : Bank) (segment : Segment),
        ¬ (bank = row ∧ 6 * col.val ≤ segment.val ∧ segment.val < 6 * col.val + 6 * chars.length) →
        t.panel.cell bank segment = s.panel.cell bank segment) ∧
      (∀ segment : Segment, segment.val = 6 * (col.val + chars.length) → t.panel.cursor = some (segment, row))

/-- R153: the six bytes of a cell, for every glyph. -/
def Obligations.CellBytesEndInTheSpacingColumn : Prop :=
  ∀ g0 g1 g2 g3 g4 : Byte, cellBytes [g0, g1, g2, g3, g4] = [g0, g1, g2, g3, g4, 0x00#8]

/-- R152 to R154: the compositor's bytes and its first unsupported character, for every font of five-byte glyphs. -/
def Obligations.ComposerStopsAtUnsupportedCharacters : Prop :=
  ∀ (font : Font) (before after : List CharCode), (∀ c g, glyph font c = some g → g.length = 5) →
    (∀ c ∈ before, glyph font c ≠ none) →
      (compose font before).2 = none ∧
      (compose font before).1 = before.flatMap (fun c => cellBytes ((glyph font c).getD [])) ∧
      (compose font before).1.length = 6 * before.length ∧
      (∀ c, glyph font c = none → compose font (before ++ c :: after) = ((compose font before).1, some c))

/-! ### Errors -/

/-- R14, R22, R180 to R182, R189, R191: a host operation that ends with `TransferError` or `BusInitError` appended events of which
the last, and only the last, failed; with any other result none failed. -/
def Obligations.ErrorsArePrecise : Prop :=
  ∀ (s t : State) (i : Instr), i.layer = .host → exec i s = .next t →
    ∃ events, t.trace = s.trace ++ events ∧
      ((t.lastResult = some (.err .busInit) ∧
          ∃ done p, events = done ++ [p] ∧ (∀ e ∈ done, e.answer ≠ some .fail) ∧
            (p = .setupGpio .fail ∨ (∃ a b c m, p = .setupChannel a b c m .fail) ∨ ∃ q, p = .pinMode q .fail)) ∨
        (t.lastResult = some (.err .transfer) ∧
          ∃ done p, events = done ++ [p] ∧ (∀ e ∈ done, e.answer ≠ some .fail) ∧
            ((∃ q l r, p = .write q l r .fail) ∨ ∃ ch bs k, p = .serial ch bs k .fail)) ∨
        ((∀ e ∈ events, e.answer ≠ some .fail) ∧
          (t.lastResult = some .ok ∨ t.lastResult = some (.err .range) ∨
            (∃ c, t.lastResult = some (.err (.unsupportedCharacter c))) ∨ ∃ r, t.lastResult = some (.refused r))))

/-- R188, R150: what a `TransferError` leaves: the registers its operation was to set are unknown, and the phase is
unchanged. The last clause is INIT's: a D/C write that fails before any serial call is the contrast transfer's, and one
that fails after the contrast went out is a clear-screen transfer's. -/
def Obligations.TransferErrorForgetsRegisters : Prop :=
  ∀ (s t : State) (i : Instr), i.layer = .host → exec i s = .next t → t.lastResult = some (.err .transfer) →
    t.phase = s.phase ∧
    (∀ segment bank, i = .setpos segment bank → t.lastPos = none) ∧
    (∀ row col, i = .locate row col → t.lastPos = none) ∧
    (i = .cls → t.lastPos = none) ∧
    (∀ row col chars, i = .text row col chars → t.lastPos = none) ∧
    (∀ v, i = .contrast v → t.contrast = none) ∧
    (∀ on, i = .backlight on → t.blPin = none ∧ t.blOn = none) ∧
    (∀ pin level, t.trace.getLast? = some (.write pin level .dc .fail) → t.dc = none) ∧
    (∀ pin level, t.trace.getLast? = some (.write pin level .reset .fail) → t.rst = none) ∧
    (∀ ch bs v, t.trace.getLast? = some (.serial ch bs (.cmdContrast v) .fail) → t.contrast = none) ∧
    (∀ ch bs segment bank, t.trace.getLast? = some (.serial ch bs (.cmdPos segment bank) .fail) → t.lastPos = none) ∧
    (∀ ch bs, t.trace.getLast? = some (.serial ch bs .dataClear .fail) → t.lastPos = none) ∧
    (∀ pins c events pin level, i = .init pins c → t.trace = s.trace ++ events →
      events.getLast? = some (.write pin level .dc .fail) →
        ((∀ ch bs kind answer, .serial ch bs kind answer ∉ events) → t.contrast = none) ∧
        ((∃ ch bs, .serial ch bs (.cmdContrast c) .ok ∈ events) → t.contrast = some c ∧ t.lastPos = none))

/-- R25, R194: the phase changes only by an INIT that returns `ok`, and never back. -/
def Obligations.PhaseChangesOnlyByInit : Prop :=
  (∀ (s t : State) (i : Instr), exec i s = .next t → t.phase ≠ s.phase →
    s.phase = .uninitialized ∧ t.phase = .initialized ∧ t.lastResult = some .ok ∧
      ∃ pins contrast, i = .init pins contrast) ∧
  ∀ s t : State, step s = .next t → s.phase = .initialized → t.phase = .initialized

/-- R222: the bounded number of backend calls of CONFIGURE, INIT, CLEAR_SCREEN and DRAW_TEXT, and from the pseudocode of R110,
R112 to R114, R131, R132 and R151 that of the others. A wire row makes none, by log entry 3. -/
def Obligations.OperationsMakeBoundedCalls : Prop :=
  ∀ (s t : State) (i : Instr), exec i s = .next t →
    t.drawn ≤ s.drawn + (match i with
      | .init _ _ => 18
      | .configure _ => 8
      | .cmd _ | .data _ | .setpos _ _ | .locate _ _ | .contrast _ => 2
      | .backlight _ => 1
      | .cls => 6
      | .text _ _ chars => 2 + 2 * chars.length
      | _ => 0)

/-! ### Frames -/

/-- The frame of every instruction that answers a next state, whatever the backend answers: the configuration (R10, R214,
R224), `pc` and the host program (R23, R24), and the model's own fields: the run's end and the queued runs (log entry 8),
the waiting transfers (log entry 3), the script of draws (log entry 4). -/
def Obligations.InstructionsLeaveTheHostAlone : Prop :=
  ∀ (s t : State) (i : Instr), exec i s = .next t →
    t.cfg = s.cfg ∧ t.pc = s.pc ∧ t.prog = s.prog ∧ t.ended = s.ended ∧ t.runs = s.runs ∧ t.busIn = s.busIn ∧
      t.script = s.script

/-- The frame of the registers (R110 to R114, R131 to R133, R150, R151, R157, "Registers written"): each operation leaves every
register it does not name unchanged; R32, R33: raw commands and data change neither `contrast` nor `lastPos`. -/
def Obligations.OperationsWriteOnlyTheirRegisters : Prop :=
  ∀ (s t : State) (i : Instr), i.layer = .host → exec i s = .next t →
    ((∀ pins c, i ≠ .init pins c) → t.phase = s.phase ∧ t.rst = s.rst) ∧
    ((∀ pins c, i ≠ .init pins c) → (∀ pins, i ≠ .configure pins) →
      t.pins = s.pins ∧ t.channel = s.channel ∧ t.outputs = s.outputs) ∧
    ((∀ on, i ≠ .backlight on) → t.blPin = s.blPin ∧ t.blOn = s.blOn) ∧
    ((∀ pins c, i ≠ .init pins c) → (∀ v, i ≠ .contrast v) → t.contrast = s.contrast) ∧
    ((∀ pins c, i ≠ .init pins c) → (∀ a b, i ≠ .setpos a b) → (∀ a b, i ≠ .locate a b) → i ≠ .cls →
      (∀ a b cs, i ≠ .text a b cs) → t.lastPos = s.lastPos) ∧
    ((∃ on, i = .backlight on) ∨ (∃ pins, i = .configure pins) → t.dc = s.dc) ∧
    (t.refused = s.refused ∨ (t.refused = true ∧ ∃ r, t.lastResult = some (.refused r)))

/-- R56, R113: an operation whose transfers are all commands leaves every frame-memory cell unchanged, unless it pulses
the reset line; so do SET_BACKLIGHT and CONFIGURE, which transfer nothing. -/
def Obligations.CommandsLeaveTheFrameMemory : Prop :=
  ∀ (s t : State) (i : Instr), exec i s = .next t →
    ((∃ bs, i = .cmd bs) ∨ (∃ on, i = .backlight on) ∨ (∃ a b, i = .setpos a b) ∨ (∃ a b, i = .locate a b) ∨
      (∃ v, i = .contrast v) ∨ (∃ pins, i = .configure pins)) →
      ∀ bank segment, t.panel.cell bank segment = s.panel.cell bank segment

/-- R71: the engine never reads the panel: a host operation in a state with another panel does the same to everything
but the panel. -/
def Obligations.EngineNeverReadsThePanel : Prop :=
  ∀ (s t : State) (i : Instr) (p : Panel), i.layer = .host → exec i s = .next t →
    ∃ q, exec i { s with panel := p } = .next { t with panel := q }

/-! ### The panel projection -/

/-- R54, R55: one data byte at a known cursor writes its cell, leaves every other cell, and advances the cursor; at an
unknown cursor every cell becomes unknown. PANEL_LAST_WRAP is unknown by default. -/
def Obligations.DataByteWritesAndAdvances : Prop :=
  Config.reference.panelLastWrap = none ∧
  ∀ (wrap : Option (Segment × Bank)) (p : Panel) (v : Byte),
    (∀ (segment : Segment) (bank : Bank), p.cursor = some (segment, bank) →
      (p.dataByte wrap v).cell bank segment = some v ∧
      (∀ b s, (b, s) ≠ (bank, segment) → (p.dataByte wrap v).cell b s = p.cell b s) ∧
      (∀ s : Segment, s.val = segment.val + 1 → (p.dataByte wrap v).cursor = some (s, bank)) ∧
      (∀ b : Bank, segment.val = 83 → b.val = bank.val + 1 → (p.dataByte wrap v).cursor = some (0, b)) ∧
      (segment.val = 83 → bank.val = 5 → (p.dataByte wrap v).cursor = wrap)) ∧
    (p.cursor = none →
      (∀ b s, (p.dataByte wrap v).cell b s = none) ∧ (p.dataByte wrap v).cursor = none)

/-- R52: one data byte at a known cursor sets the eight pixels of its column in that bank, bit 0 at the top, and no other
pixel. -/
def Obligations.DataByteSetsEightPixels : Prop :=
  ∀ (wrap : Option (Segment × Bank)) (p : Panel) (v : Byte) (segment : Segment) (bank : Bank) (x : Segment) (y : Fin 48),
    p.cursor = some (segment, bank) →
      (x = segment ∧ y.val / 8 = bank.val → (p.dataByte wrap v).pixel x y = some (v.getLsbD (y.val % 8))) ∧
      (¬ (x = segment ∧ y.val / 8 = bank.val) → (p.dataByte wrap v).pixel x y = p.pixel x y)

/-- R54 to R56, R113: a raw data write that succeeds at a known cursor and does not pass the last cell lands its bytes in the
cells that follow, in order, and leaves every other cell; `lastPos` stays. -/
def Obligations.RawDataLandsAtTheCursor : Prop :=
  ∀ (s t : State) (h : Handle) (bs : List Byte) (segment : Segment) (bank : Bank),
    s.Ready h → s.AnswersOk 2 → s.panel.cursor = some (segment, bank) →
    cellAddress bank segment + bs.length ≤ 504 → exec (.data bs) s = .next t →
      t.lastPos = s.lastPos ∧
      ∀ (b : Bank) (x : Segment),
        t.panel.cell b x =
          if cellAddress bank segment ≤ cellAddress b x ∧ cellAddress b x < cellAddress bank segment + bs.length then
            bs[cellAddress b x - cellAddress bank segment]?
          else s.panel.cell b x

/-- R56: what each serial transfer that succeeds does to the controller's registers and, for commands, to no cell. -/
def Obligations.CommandTransfersSetThePanelRegisters : Prop :=
  ∀ (wrap : Option (Segment × Bank)) (p : Panel) (ch : ChannelHandle) (bs : List Byte),
    (∀ (segment : Segment) (bank : Bank),
      let q := p.step wrap (.serial ch bs (.cmdPos segment bank) .ok)
      (p.mode = some .normal → segment.val ≤ 63 → q.cursor = some (segment, bank)) ∧
      (p.mode ≠ some .normal ∨ 64 ≤ segment.val → q.cursor = none) ∧
      q.ram = p.ram ∧ q.mode = p.mode ∧ q.vop = p.vop ∧ q.display = p.display) ∧
    (∀ v : Byte,
      let q := p.step wrap (.serial ch bs (.cmdContrast v) .ok)
      q.mode = some .normal ∧ q.vop = some v ∧ q.display = some .normal ∧ q.cursor = p.cursor ∧ q.ram = p.ram) ∧
    (let q := p.step wrap (.serial ch bs .cmdRaw .ok);
      q.cursor = none ∧ q.mode = none ∧ q.vop = none ∧ q.display = none ∧ q.ram = p.ram)

/-- R57, with its path of `n` positions as log entry 13 reads it: a failed command makes the controller's registers unknown and no cell; a failed data transfer of `n` bytes makes
the cells on its path unknown, or every cell where the path is not known, and the cursor unknown. -/
def Obligations.FailedTransfersForget : Prop :=
  ∀ (wrap : Option (Segment × Bank)) (p : Panel) (ch : ChannelHandle) (bs : List Byte) (kind : Kind),
    Memory.wf p.ram = true →
    let q := p.step wrap (.serial ch bs kind .fail)
    (kind.isCommand = true →
      q.cursor = none ∧ q.mode = none ∧ q.vop = none ∧ q.display = none ∧
        ∀ b s, q.cell b s = p.cell b s) ∧
    (kind.isCommand = false →
      q.cursor = none ∧ q.mode = p.mode ∧ q.vop = p.vop ∧ q.display = p.display ∧
      (p.cursor = none → ∀ b s, q.cell b s = none) ∧
      (∀ c, p.cursor = some c →
        (∀ path : Nat → Option (Segment × Bank),
          path 0 = some c → (∀ k, path (k + 1) = (path k).bind (nextCell wrap)) →
          ((∃ k, k < bs.length ∧ path k = none) → ∀ b s, q.cell b s = none) ∧
          ((∀ k, k < bs.length → path k ≠ none) →
            (∀ k, k < bs.length → ∀ d, path k = some d → q.cell d.2 d.1 = none) ∧
            (∀ b s, (∀ k, k < bs.length → path k ≠ some (s, b)) → q.cell b s = p.cell b s)))))

/-- R58: a reset pulse, or a failed write of the reset pin, makes the whole panel unknown. -/
def Obligations.ResetPulseForgetsThePanel : Prop :=
  ∀ (wrap : Option (Segment × Bank)) (p : Panel) (pin : Pin) (level : Level) (answer : Answer),
    (level = .low ∨ answer = .fail) →
      let q := p.step wrap (.write pin level .reset answer)
      (∀ b s, q.cell b s = none) ∧ q.cursor = none ∧ q.mode = none ∧ q.vop = none ∧ q.display = none

/-! ### The wire rows -/

/-- R83 to R92 (log entry 3: that a wire row is a step of its own, with an event of the model's own, is the model's
choice): each wire row completes in every state, and this is what it does to the panel at the place the source gives
it. Nothing but the trace and the panel changes. -/
def Obligations.WireRowsReachThePanel : Prop :=
  ∀ (s : State) (bank : BitVec 3) (segment : BitVec 6) (v : Byte),
    (bank.toNat ≤ 5 → s.panel.mode = some .normal →
      ∃ b : Bank, b.val = bank.toNat ∧
      exec (.setBank bank) s = .next { s with
        trace := s.trace ++ [.wire (.setBank bank)], panel := { s.panel with cursor := none, seq := .bank b } }) ∧
    (∀ b : Bank, s.panel.mode = some .normal → s.panel.seq = .bank b →
      ∃ x : Segment, x.val = segment.toNat ∧
      exec (.setSegment segment) s = .next { s with
        trace := s.trace ++ [.wire (.setSegment segment)],
        panel := { s.panel with cursor := some (x, b), seq := .idle } }) ∧
    exec .functionSetExtended s = .next { s with
      trace := s.trace ++ [.wire .functionSetExtended],
      panel := { s.panel with mode := some .extended, seq := .extended } } ∧
    (s.panel.seq = .extended → exec .cmd0x14 s = .next { s with
      trace := s.trace ++ [.wire .cmd0x14], panel := { s.panel with seq := .bias } }) ∧
    (s.panel.seq = .bias → exec (.setVop v) s = .next { s with
      trace := s.trace ++ [.wire (.setVop v)], panel := { s.panel with vop := some v, seq := .idle } }) ∧
    exec .functionSetNormal s = .next { s with
      trace := s.trace ++ [.wire .functionSetNormal],
      panel := { s.panel with mode := some .normal, seq := .idle } } ∧
    (s.panel.mode = some .normal → exec .displayControlNormal s = .next { s with
      trace := s.trace ++ [.wire .displayControlNormal],
      panel := { s.panel with display := some .normal, seq := .idle } }) ∧
    exec (.dataByte v) s = .next { s with
      trace := s.trace ++ [.wire (.dataByte v)],
      panel := { s.panel.dataByte s.cfg.panelLastWrap v with seq := .idle } } ∧
    (bank.toNat ≤ 5 → s.panel.mode = some .normal →
      ∃ (b : Bank) (x : Segment), b.val = bank.toNat ∧ x.val = segment.toNat ∧
      exec (.positionSequence bank segment) s = .next { s with
        trace := s.trace ++ [.wire (.positionSequence bank segment)],
        panel := { s.panel with cursor := some (x, b), seq := .idle } }) ∧
    exec (.contrastSequence v) s = .next { s with
      trace := s.trace ++ [.wire (.contrastSequence v)],
      panel := { s.panel with mode := some .normal, vop := some v, display := some .normal, seq := .idle } }

/-- R93, R56 (log entry 3: that a wire row or a byte is a step of its own, and what it does outside its place, are the
model's choice): command bytes outside the place the spec gives them. A reserved bank, `0x14`, a Vop byte and `0x0C` outside
theirs make the controller's registers unknown; a segment byte with no bank byte just before it or outside normal mode,
and SET_BANK and a position sequence outside normal mode, make the cursor alone unknown. A waiting byte of no row makes the
registers unknown, in a step that takes it off the transfer. No cell and no engine register changes. -/
def Obligations.MisplacedCommandBytesAreUnknown : Prop :=
  ∀ (s : State) (bank : BitVec 3) (segment : BitVec 6) (v : Byte),
    let received := fun (op : WireOp) (p : Panel) => { s with trace := s.trace ++ [.wire op], panel := p }
    let cursorLost : Panel := { s.panel with cursor := none, seq := .idle }
    (6 ≤ bank.toNat →
      exec (.setBank bank) s = .next (received (.setBank bank) s.panel.forgetRegisters) ∧
      exec (.positionSequence bank segment) s =
        .next (received (.positionSequence bank segment) s.panel.forgetRegisters)) ∧
    (s.panel.seq ≠ .extended → exec .cmd0x14 s = .next (received .cmd0x14 s.panel.forgetRegisters)) ∧
    (s.panel.seq ≠ .bias → exec (.setVop v) s = .next (received (.setVop v) s.panel.forgetRegisters)) ∧
    (s.panel.mode ≠ some .normal →
      exec .displayControlNormal s = .next (received .displayControlNormal s.panel.forgetRegisters)) ∧
    ((∀ b, s.panel.seq ≠ .bank b) ∨ s.panel.mode ≠ some .normal →
      exec (.setSegment segment) s = .next (received (.setSegment segment) cursorLost)) ∧
    (bank.toNat ≤ 5 → s.panel.mode ≠ some .normal →
      exec (.setBank bank) s = .next (received (.setBank bank) cursorLost) ∧
      exec (.positionSequence bank segment) s = .next (received (.positionSequence bank segment) cursorLost)) ∧
    (∀ (rest : List Byte) (more : List Transfer), s.busIn = ⟨.command, v :: rest⟩ :: more → s.panel.seq ≠ .bias →
      ¬ (0x80 ≤ v.toNat ∧ v.toNat ≤ 0x85) → ¬ (0x40 ≤ v.toNat ∧ v.toNat ≤ 0x7F) →
      v ∉ [0x21#8, 0x14#8, 0x20#8, 0x0C#8] →
        step s = .next { received (.reserved v) s.panel.forgetRegisters with
          busIn := if rest = [] then more else ⟨.command, rest⟩ :: more })

/-- R85, R86, R195: received one byte at a time, which is the model's choice (log entry 3: R85 and R86 give one transfer), the
two sequences do to the panel what the whole transfer does. -/
def Obligations.SequencesAreTheirBytes : Prop :=
  ∀ (wrap : Option (Segment × Bank)) (p : Panel) (bank : BitVec 3) (segment : BitVec 6) (v : Byte),
    ([WireOp.setBank bank, .setSegment segment].foldl (Panel.wire wrap) p =
      p.wire wrap (.positionSequence bank segment)) ∧
    ([WireOp.functionSetExtended, .cmd0x14, .setVop v, .functionSetNormal, .displayControlNormal].foldl
        (Panel.wire wrap) p = p.wire wrap (.contrastSequence v))

/-- R56, R84, R86, R92: the engine's own successful transfers do to the panel what the wire rows their bytes decode to do, for
a segment the wire can carry. -/
def Obligations.EngineTransfersAreWireRows : Prop :=
  ∀ (wrap : Option (Segment × Bank)) (p : Panel) (ch : ChannelHandle) (bank : Bank) (segment : Segment) (v : Byte)
    (bs : List Byte),
    (segment.val ≤ 63 → ∃ i x y, decode (.command .idle) (positionBytes segment bank) = .ok (i, []) ∧
      i = .positionSequence x y ∧
      p.step wrap (.serial ch (positionBytes segment bank) (.cmdPos segment bank) .ok) =
        p.wire wrap (.positionSequence x y)) ∧
    (decode (.command .idle) (contrastBytes v) = .ok (.contrastSequence v, []) ∧
      p.step wrap (.serial ch (contrastBytes v) (.cmdContrast v) .ok) = p.wire wrap (.contrastSequence v)) ∧
    (bs ≠ [] → p.step wrap (.serial ch bs .dataRaw .ok) = (bs.map WireOp.dataByte).foldl (Panel.wire wrap) p)

/-! ### Encoding -/

/-- R83 to R92, R95, R96: decoding the words of a well-formed instruction gives it back, for every instruction and every
operand. `decode .host` reads R95's layout, CONFIGURE's too; the host port itself refuses tag `0x02` before it is read (R97,
BadDescriptorsAreRefused; log entry 7). SET_VOP is read in its place after `0x21, 0x14` (log entry 3). -/
def Obligations.DecodeOfEncodeIsTheInstruction : Prop :=
  ∀ i : Instr, i.wellFormed = true → decode i.port (encode i) = .ok (i, [])

/-- R98: the decoder reads back a host stream of any well-formed host operations, in order and with no refusal. -/
def Obligations.StreamsDecodeToTheirOperations : Prop :=
  ∀ ops : List Instr,
    (∀ i ∈ ops, i.wellFormed = true ∧ i.layer = .host ∧ ∀ pins, i ≠ .configure pins) →
      decodeStream (ops.flatMap encode) = (ops, none)

/-- R95 to R97: each descriptor has one meaning: bytes that decode are the encoding of a well-formed host instruction,
followed by the rest. -/
def Obligations.DescriptorsHaveOneMeaning : Prop :=
  ∀ (bs rest : List Byte) (i : Instr), decode .host bs = .ok (i, rest) →
    i.wellFormed = true ∧ i.layer = .host ∧ bs = encode i ++ rest

/-- Words written out from the encodings of R83, R84, R86, R95 and R96. -/
def Obligations.WrittenOutWordsDecode : Prop :=
  decode .host [0x01#8, 0x0B#8, 0x0A#8, 0x16#8, 0x18#8, 0x12#8, 0x08#8, 0xB0#8] =
      .ok (.init { clock := 11, data := 10, dataCommand := 22, reset := 24, backlight := 18, chipEnable := 8 } 0xB0#8, []) ∧
    decode .host [0x07#8, 0x05#8, 0x0D#8, 0x08#8] = .ok (.locate 5 13, [0x08#8]) ∧
    decode .host [0x04#8, 0x01#8, 0x00#8, 0xFF#8] = .ok (.data [0xFF#8], []) ∧
    decode (.command .idle) [0b10000101#8] = .ok (.setBank 5#3, []) ∧
    decode (.command .idle) [0b01010010#8] = .ok (.setSegment 18#6, []) ∧
    decode (.command .idle) [0x21#8, 0x14#8, 0xB0#8, 0x20#8, 0x0C#8] = .ok (.contrastSequence 0xB0#8, []) ∧
    decode .data [0x21#8] = .ok (.dataByte 0x21#8, [])

/-- R100, R9: what the lines of the assembler syntax stand for: `init` alone takes the defaults, and every other mnemonic its
operands as they stand. That `init` with `rst=P` as its first qualifier and no comma before it is a line is the model's choice
(log entry 20): R100 writes `[, rst=P]`. -/
def Obligations.AssemblerFollowsItsSyntax : Prop :=
  ∀ (a b v : Nat) (chars : List CharCode),
    lineOperation ['i', 'n', 'i', 't'] [] =
      some (.init { clock := 11, data := 10, dataCommand := 22, reset := 24, backlight := 18, chipEnable := 8 } 0xB0#8) ∧
    lineOperation ['i', 'n', 'i', 't'] [.name ['r', 's', 't'], .equals, .number a] =
      some (.init { clock := 11, data := 10, dataCommand := 22, reset := a, backlight := 18, chipEnable := 8 } 0xB0#8) ∧
    lineOperation ['s', 'e', 't', 'p', 'o', 's'] [.number a, .comma, .number b] = some (.setpos a b) ∧
    lineOperation ['l', 'o', 'c', 'a', 't', 'e'] [.number a, .comma, .number b] = some (.locate a b) ∧
    lineOperation ['c', 'l', 's'] [] = some .cls ∧
    lineOperation ['b', 'a', 'c', 'k', 'l', 'i', 'g', 'h', 't'] [.name ['o', 'n']] = some (.backlight true) ∧
    lineOperation ['b', 'a', 'c', 'k', 'l', 'i', 'g', 'h', 't'] [.name ['o', 'f', 'f']] = some (.backlight false) ∧
    (v < 256 →
      lineOperation ['c', 'o', 'n', 't', 'r', 'a', 's', 't'] [.number v] = some (.contrast (BitVec.ofNat 8 v)) ∧
      lineOperation ['c', 'm', 'd'] [.number v] = some (.cmd [BitVec.ofNat 8 v]) ∧
      lineOperation ['d', 'a', 't', 'a'] [.number v] = some (.data [BitVec.ofNat 8 v])) ∧
    (256 ≤ v → lineOperation ['c', 'o', 'n', 't', 'r', 'a', 's', 't'] [.number v] = none) ∧
    lineOperation ['t', 'e', 'x', 't'] [.number a, .comma, .number b, .comma, .string chars] = some (.text a b chars)

/-- R180: the numeric result codes, one for each kind of result. -/
def Obligations.ResultCodesNameTheKinds : Prop :=
  Result.ok.code = 0 ∧ (Result.err .busInit).code = 1 ∧ (Result.err .transfer).code = 2 ∧ (Result.err .range).code = 3 ∧
    (∀ c, (Result.err (.unsupportedCharacter c)).code = 4 ∧ (Result.err (.unsupportedCharacter c)).character = some c) ∧
    ∀ r, (Result.refused r).code = 5
end

