-- ==== Sys2Proof/Laws/Decode.lean ====
section
/-! SUPPORT. The fields of the encodings, each way: assembling a field from its bytes and taking it apart again. -/

namespace Sys2Proof

theorem u16_u16Bytes {n : Nat} (h : n < 65536) : u16 (BitVec.ofNat 8 n) (BitVec.ofNat 8 (n / 256)) = n := by
  simp [u16]
  omega

theorem u32_u32Bytes {n : Nat} (h : n < 4294967296) :
    u32 (BitVec.ofNat 8 n) (BitVec.ofNat 8 (n / 256)) (BitVec.ofNat 8 (n / 65536)) (BitVec.ofNat 8 (n / 16777216)) =
      n := by
  simp [u32]
  omega

theorem u16_lt (a b : Byte) : u16 a b < 65536 := by
  have := a.isLt
  have := b.isLt
  simp only [u16]
  omega

theorem u32_lt (a b c d : Byte) : u32 a b c d < 4294967296 := by
  have := a.isLt
  have := b.isLt
  have := c.isLt
  have := d.isLt
  simp only [u32]
  omega

theorem u16Bytes_u16 (a b : Byte) : u16Bytes (u16 a b) = [a, b] := by
  have := a.isLt
  have := b.isLt
  simp only [u16Bytes, u16]
  congr 1
  · apply BitVec.eq_of_toNat_eq
    simp
    omega
  · congr 1
    apply BitVec.eq_of_toNat_eq
    simp
    omega

/-- A byte operand, zero-extended, fits its field and is spelled by itself (R95). -/
theorem ofInt_toNat (b : Byte) : BitVec.ofInt 8 (b.toNat : Int) = b := by simp

theorem spellableInt_toNat (b : Byte) : spellableInt (b.toNat : Int) = true := by
  have := b.isLt
  simp [spellableInt]
  omega

theorem toNat_ofInt_spellable {v : Int} (h : spellableInt v = true) : ((BitVec.ofInt 8 v).toNat : Int) = v := by
  simp only [spellableInt, Bool.and_eq_true, decide_eq_true_eq] at h
  simp only [BitVec.toNat_ofInt]
  omega

theorem takeBytes_append (bs rest : List Byte) : takeBytes bs.length (bs ++ rest) = some (bs, rest) := by
  simp [takeBytes]

theorem takeBytes_some {n : Nat} {bs x rest : List Byte} (h : takeBytes n bs = some (x, rest)) :
    bs = x ++ rest ∧ x.length = n := by
  unfold takeBytes at h
  split at h
  · cases h
    simpa using ‹n ≤ bs.length›
  · cases h

theorem takeCodes_append (cs : List CharCode) (h : ∀ c ∈ cs, c < 4294967296) (rest : List Byte) :
    takeCodes cs.length (cs.flatMap u32Bytes ++ rest) = some (cs, rest) := by
  induction cs with
  | nil => rfl
  | cons c cs ih =>
    simp only [List.length_cons, List.flatMap_cons, u32Bytes, List.cons_append, List.nil_append, takeCodes]
    rw [ih (fun x hx => h x (by simp [hx])), u32_u32Bytes (h c (by simp))]
    rfl

/-- A command byte of no row decodes to none (R93). -/
theorem decode_reserved {seq : WireSeq} {v : Byte} (rest : List Byte) (hs : seq ≠ .bias)
    (hb : ¬ (0x80 ≤ v.toNat ∧ v.toNat ≤ 0x85)) (hx : ¬ (0x40 ≤ v.toNat ∧ v.toNat ≤ 0x7F))
    (hv : v ∉ [0x21#8, 0x14#8, 0x20#8, 0x0C#8]) :
    decode (.command seq) (v :: rest) = .error (.reservedCommand v) := by
  have k1 : isBankByte v = false := by
    revert hb
    revert v
    decide
  have k2 : isSegmentByte v = false := by
    revert hx
    revert v
    decide
  simp only [List.mem_cons, List.not_mem_nil, or_false, not_or] at hv
  obtain ⟨h1, h2, h3, h4⟩ := hv
  have e1 : contrastOperand (v :: rest) = none := by
    unfold contrastOperand
    split
    · rename_i h
      cases h
      simp [h1]
    · rfl
  have e2 : positionOperands (v :: rest) = none := by
    unfold positionOperands
    split
    · rename_i h
      cases h
      simp [k1]
    · rfl
  simp [decode, decodeCommand, hs, e1, e2, decodeCommandByte, k1, k2, h1, h2, h3, h4]

/-- Too few bytes for the codes (R97). -/
theorem takeCodes_short {n : Nat} {bs : List Byte} (h : bs.length < 4 * n) : takeCodes n bs = none := by
  induction n generalizing bs with
  | zero => omega
  | succ n ih =>
    unfold takeCodes
    split
    · exact absurd ‹n + 1 = 0› (by omega)
    · rename_i hn
      cases hn
      simp only [List.length_cons] at h
      rw [ih (by omega)]
      rfl
    · rfl

end Sys2Proof
end

