-- ==== Sys2Proof/Laws/State.lean ====
section
/-! SUPPORT. One lemma per field per named update of State, so that no proof unfolds an update. -/

namespace Sys2Proof.Machine

/-! ### emit -/

@[simp] theorem State.emit_cfg (s : State) (e : Event) : (s.emit e).cfg = s.cfg := rfl
@[simp] theorem State.emit_phase (s : State) (e : Event) : (s.emit e).phase = s.phase := rfl
@[simp] theorem State.emit_pins (s : State) (e : Event) : (s.emit e).pins = s.pins := rfl
@[simp] theorem State.emit_channel (s : State) (e : Event) : (s.emit e).channel = s.channel := rfl
@[simp] theorem State.emit_dc (s : State) (e : Event) : (s.emit e).dc = s.dc := rfl
@[simp] theorem State.emit_rst (s : State) (e : Event) : (s.emit e).rst = s.rst := rfl
@[simp] theorem State.emit_blPin (s : State) (e : Event) : (s.emit e).blPin = s.blPin := rfl
@[simp] theorem State.emit_blOn (s : State) (e : Event) : (s.emit e).blOn = s.blOn := rfl
@[simp] theorem State.emit_contrast (s : State) (e : Event) : (s.emit e).contrast = s.contrast := rfl
@[simp] theorem State.emit_lastPos (s : State) (e : Event) : (s.emit e).lastPos = s.lastPos := rfl
@[simp] theorem State.emit_outputs (s : State) (e : Event) : (s.emit e).outputs = s.outputs := rfl
@[simp] theorem State.emit_trace (s : State) (e : Event) : (s.emit e).trace = s.trace ++ [e] := rfl
@[simp] theorem State.emit_refused (s : State) (e : Event) : (s.emit e).refused = s.refused := rfl
@[simp] theorem State.emit_lastResult (s : State) (e : Event) : (s.emit e).lastResult = s.lastResult := rfl
@[simp] theorem State.emit_pc (s : State) (e : Event) : (s.emit e).pc = s.pc := rfl
@[simp] theorem State.emit_panel (s : State) (e : Event) : (s.emit e).panel = s.panel.step s.cfg.panelLastWrap e := rfl
@[simp] theorem State.emit_prog (s : State) (e : Event) : (s.emit e).prog = s.prog := rfl
@[simp] theorem State.emit_ended (s : State) (e : Event) : (s.emit e).ended = s.ended := rfl
@[simp] theorem State.emit_runs (s : State) (e : Event) : (s.emit e).runs = s.runs := rfl
@[simp] theorem State.emit_busIn (s : State) (e : Event) : (s.emit e).busIn = s.busIn := rfl
@[simp] theorem State.emit_script (s : State) (e : Event) : (s.emit e).script = s.script := rfl
@[simp] theorem State.emit_drawn (s : State) (e : Event) : (s.emit e).drawn = s.drawn := rfl

/-! ### call -/

@[simp] theorem State.call_cfg (s : State) (ev : Answer → Event) : (s.call ev).cfg = s.cfg := rfl
@[simp] theorem State.call_phase (s : State) (ev : Answer → Event) : (s.call ev).phase = s.phase := rfl
@[simp] theorem State.call_pins (s : State) (ev : Answer → Event) : (s.call ev).pins = s.pins := rfl
@[simp] theorem State.call_channel (s : State) (ev : Answer → Event) : (s.call ev).channel = s.channel := rfl
@[simp] theorem State.call_dc (s : State) (ev : Answer → Event) : (s.call ev).dc = s.dc := rfl
@[simp] theorem State.call_rst (s : State) (ev : Answer → Event) : (s.call ev).rst = s.rst := rfl
@[simp] theorem State.call_blPin (s : State) (ev : Answer → Event) : (s.call ev).blPin = s.blPin := rfl
@[simp] theorem State.call_blOn (s : State) (ev : Answer → Event) : (s.call ev).blOn = s.blOn := rfl
@[simp] theorem State.call_contrast (s : State) (ev : Answer → Event) : (s.call ev).contrast = s.contrast := rfl
@[simp] theorem State.call_lastPos (s : State) (ev : Answer → Event) : (s.call ev).lastPos = s.lastPos := rfl
@[simp] theorem State.call_outputs (s : State) (ev : Answer → Event) : (s.call ev).outputs = s.outputs := rfl
@[simp] theorem State.call_trace (s : State) (ev : Answer → Event) : (s.call ev).trace = s.trace ++ [ev s.draw.answer] := rfl
@[simp] theorem State.call_refused (s : State) (ev : Answer → Event) : (s.call ev).refused = s.refused := rfl
@[simp] theorem State.call_lastResult (s : State) (ev : Answer → Event) : (s.call ev).lastResult = s.lastResult := rfl
@[simp] theorem State.call_pc (s : State) (ev : Answer → Event) : (s.call ev).pc = s.pc := rfl
@[simp] theorem State.call_panel (s : State) (ev : Answer → Event) : (s.call ev).panel = s.panel.step s.cfg.panelLastWrap (ev s.draw.answer) := rfl
@[simp] theorem State.call_prog (s : State) (ev : Answer → Event) : (s.call ev).prog = s.prog := rfl
@[simp] theorem State.call_ended (s : State) (ev : Answer → Event) : (s.call ev).ended = s.ended := rfl
@[simp] theorem State.call_runs (s : State) (ev : Answer → Event) : (s.call ev).runs = s.runs := rfl
@[simp] theorem State.call_busIn (s : State) (ev : Answer → Event) : (s.call ev).busIn = s.busIn := rfl
@[simp] theorem State.call_script (s : State) (ev : Answer → Event) : (s.call ev).script = s.script := rfl
@[simp] theorem State.call_drawn (s : State) (ev : Answer → Event) : (s.call ev).drawn = s.drawn + 1 := rfl

/-! ### hold -/

@[simp] theorem State.hold_cfg (s : State) : s.hold.cfg = s.cfg := rfl
@[simp] theorem State.hold_phase (s : State) : s.hold.phase = s.phase := rfl
@[simp] theorem State.hold_pins (s : State) : s.hold.pins = s.pins := rfl
@[simp] theorem State.hold_channel (s : State) : s.hold.channel = s.channel := rfl
@[simp] theorem State.hold_dc (s : State) : s.hold.dc = s.dc := rfl
@[simp] theorem State.hold_rst (s : State) : s.hold.rst = s.rst := rfl
@[simp] theorem State.hold_blPin (s : State) : s.hold.blPin = s.blPin := rfl
@[simp] theorem State.hold_blOn (s : State) : s.hold.blOn = s.blOn := rfl
@[simp] theorem State.hold_contrast (s : State) : s.hold.contrast = s.contrast := rfl
@[simp] theorem State.hold_lastPos (s : State) : s.hold.lastPos = s.lastPos := rfl
@[simp] theorem State.hold_outputs (s : State) : s.hold.outputs = s.outputs := rfl
@[simp] theorem State.hold_trace (s : State) : s.hold.trace = s.trace ++ [.hold (100 + s.draw.holdExtra)] := rfl
@[simp] theorem State.hold_refused (s : State) : s.hold.refused = s.refused := rfl
@[simp] theorem State.hold_lastResult (s : State) : s.hold.lastResult = s.lastResult := rfl
@[simp] theorem State.hold_pc (s : State) : s.hold.pc = s.pc := rfl
@[simp] theorem State.hold_panel (s : State) : s.hold.panel = s.panel := rfl
@[simp] theorem State.hold_prog (s : State) : s.hold.prog = s.prog := rfl
@[simp] theorem State.hold_ended (s : State) : s.hold.ended = s.ended := rfl
@[simp] theorem State.hold_runs (s : State) : s.hold.runs = s.runs := rfl
@[simp] theorem State.hold_busIn (s : State) : s.hold.busIn = s.busIn := rfl
@[simp] theorem State.hold_script (s : State) : s.hold.script = s.script := rfl
@[simp] theorem State.hold_drawn (s : State) : s.hold.drawn = s.drawn := rfl

/-! ### finish -/

@[simp] theorem State.finish_cfg (s : State) (res : Except Error Unit) : (s.finish res).cfg = s.cfg := rfl
@[simp] theorem State.finish_phase (s : State) (res : Except Error Unit) : (s.finish res).phase = s.phase := rfl
@[simp] theorem State.finish_pins (s : State) (res : Except Error Unit) : (s.finish res).pins = s.pins := rfl
@[simp] theorem State.finish_channel (s : State) (res : Except Error Unit) : (s.finish res).channel = s.channel := rfl
@[simp] theorem State.finish_dc (s : State) (res : Except Error Unit) : (s.finish res).dc = s.dc := rfl
@[simp] theorem State.finish_rst (s : State) (res : Except Error Unit) : (s.finish res).rst = s.rst := rfl
@[simp] theorem State.finish_blPin (s : State) (res : Except Error Unit) : (s.finish res).blPin = s.blPin := rfl
@[simp] theorem State.finish_blOn (s : State) (res : Except Error Unit) : (s.finish res).blOn = s.blOn := rfl
@[simp] theorem State.finish_contrast (s : State) (res : Except Error Unit) : (s.finish res).contrast = s.contrast := rfl
@[simp] theorem State.finish_lastPos (s : State) (res : Except Error Unit) : (s.finish res).lastPos = s.lastPos := rfl
@[simp] theorem State.finish_outputs (s : State) (res : Except Error Unit) : (s.finish res).outputs = s.outputs := rfl
@[simp] theorem State.finish_trace (s : State) (res : Except Error Unit) : (s.finish res).trace = s.trace := rfl
@[simp] theorem State.finish_refused (s : State) (res : Except Error Unit) : (s.finish res).refused = s.refused := rfl
@[simp] theorem State.finish_pc (s : State) (res : Except Error Unit) : (s.finish res).pc = s.pc := rfl
@[simp] theorem State.finish_panel (s : State) (res : Except Error Unit) : (s.finish res).panel = s.panel := rfl
@[simp] theorem State.finish_prog (s : State) (res : Except Error Unit) : (s.finish res).prog = s.prog := rfl
@[simp] theorem State.finish_ended (s : State) (res : Except Error Unit) : (s.finish res).ended = s.ended := rfl
@[simp] theorem State.finish_runs (s : State) (res : Except Error Unit) : (s.finish res).runs = s.runs := rfl
@[simp] theorem State.finish_busIn (s : State) (res : Except Error Unit) : (s.finish res).busIn = s.busIn := rfl
@[simp] theorem State.finish_script (s : State) (res : Except Error Unit) : (s.finish res).script = s.script := rfl
@[simp] theorem State.finish_drawn (s : State) (res : Except Error Unit) : (s.finish res).drawn = s.drawn := rfl
@[simp] theorem State.finish_lastResult_ok (s : State) : (s.finish (.ok ())).lastResult = some .ok := rfl
@[simp] theorem State.finish_lastResult_error (s : State) (e : Error) :
    (s.finish (.error e)).lastResult = some (.err e) := rfl

/-! ### refuse -/

@[simp] theorem State.refuse_cfg (s : State) (r : Reason) : (s.refuse r).cfg = s.cfg := rfl
@[simp] theorem State.refuse_phase (s : State) (r : Reason) : (s.refuse r).phase = s.phase := rfl
@[simp] theorem State.refuse_pins (s : State) (r : Reason) : (s.refuse r).pins = s.pins := rfl
@[simp] theorem State.refuse_channel (s : State) (r : Reason) : (s.refuse r).channel = s.channel := rfl
@[simp] theorem State.refuse_dc (s : State) (r : Reason) : (s.refuse r).dc = s.dc := rfl
@[simp] theorem State.refuse_rst (s : State) (r : Reason) : (s.refuse r).rst = s.rst := rfl
@[simp] theorem State.refuse_blPin (s : State) (r : Reason) : (s.refuse r).blPin = s.blPin := rfl
@[simp] theorem State.refuse_blOn (s : State) (r : Reason) : (s.refuse r).blOn = s.blOn := rfl
@[simp] theorem State.refuse_contrast (s : State) (r : Reason) : (s.refuse r).contrast = s.contrast := rfl
@[simp] theorem State.refuse_lastPos (s : State) (r : Reason) : (s.refuse r).lastPos = s.lastPos := rfl
@[simp] theorem State.refuse_outputs (s : State) (r : Reason) : (s.refuse r).outputs = s.outputs := rfl
@[simp] theorem State.refuse_trace (s : State) (r : Reason) : (s.refuse r).trace = s.trace := rfl
@[simp] theorem State.refuse_refused (s : State) (r : Reason) : (s.refuse r).refused = true := rfl
@[simp] theorem State.refuse_lastResult (s : State) (r : Reason) : (s.refuse r).lastResult = some (.refused r) := rfl
@[simp] theorem State.refuse_pc (s : State) (r : Reason) : (s.refuse r).pc = s.pc := rfl
@[simp] theorem State.refuse_panel (s : State) (r : Reason) : (s.refuse r).panel = s.panel := rfl
@[simp] theorem State.refuse_prog (s : State) (r : Reason) : (s.refuse r).prog = s.prog := rfl
@[simp] theorem State.refuse_ended (s : State) (r : Reason) : (s.refuse r).ended = s.ended := rfl
@[simp] theorem State.refuse_runs (s : State) (r : Reason) : (s.refuse r).runs = s.runs := rfl
@[simp] theorem State.refuse_busIn (s : State) (r : Reason) : (s.refuse r).busIn = s.busIn := rfl
@[simp] theorem State.refuse_script (s : State) (r : Reason) : (s.refuse r).script = s.script := rfl
@[simp] theorem State.refuse_drawn (s : State) (r : Reason) : (s.refuse r).drawn = s.drawn := rfl

/-! ### refuseAtPort -/

@[simp] theorem State.refuseAtPort_cfg (s : State) (r : Reason) : (s.refuseAtPort r).cfg = s.cfg := rfl
@[simp] theorem State.refuseAtPort_phase (s : State) (r : Reason) : (s.refuseAtPort r).phase = s.phase := rfl
@[simp] theorem State.refuseAtPort_pins (s : State) (r : Reason) : (s.refuseAtPort r).pins = s.pins := rfl
@[simp] theorem State.refuseAtPort_channel (s : State) (r : Reason) : (s.refuseAtPort r).channel = s.channel := rfl
@[simp] theorem State.refuseAtPort_dc (s : State) (r : Reason) : (s.refuseAtPort r).dc = s.dc := rfl
@[simp] theorem State.refuseAtPort_rst (s : State) (r : Reason) : (s.refuseAtPort r).rst = s.rst := rfl
@[simp] theorem State.refuseAtPort_blPin (s : State) (r : Reason) : (s.refuseAtPort r).blPin = s.blPin := rfl
@[simp] theorem State.refuseAtPort_blOn (s : State) (r : Reason) : (s.refuseAtPort r).blOn = s.blOn := rfl
@[simp] theorem State.refuseAtPort_contrast (s : State) (r : Reason) : (s.refuseAtPort r).contrast = s.contrast := rfl
@[simp] theorem State.refuseAtPort_lastPos (s : State) (r : Reason) : (s.refuseAtPort r).lastPos = s.lastPos := rfl
@[simp] theorem State.refuseAtPort_outputs (s : State) (r : Reason) : (s.refuseAtPort r).outputs = s.outputs := rfl
@[simp] theorem State.refuseAtPort_trace (s : State) (r : Reason) : (s.refuseAtPort r).trace = s.trace := rfl
@[simp] theorem State.refuseAtPort_refused (s : State) (r : Reason) : (s.refuseAtPort r).refused = true := rfl
@[simp] theorem State.refuseAtPort_lastResult (s : State) (r : Reason) : (s.refuseAtPort r).lastResult = some (.refused r) := rfl
@[simp] theorem State.refuseAtPort_pc (s : State) (r : Reason) : (s.refuseAtPort r).pc = s.pc := rfl
@[simp] theorem State.refuseAtPort_panel (s : State) (r : Reason) : (s.refuseAtPort r).panel = s.panel := rfl
@[simp] theorem State.refuseAtPort_prog (s : State) (r : Reason) : (s.refuseAtPort r).prog = s.prog := rfl
@[simp] theorem State.refuseAtPort_ended (s : State) (r : Reason) : (s.refuseAtPort r).ended = true := rfl
@[simp] theorem State.refuseAtPort_runs (s : State) (r : Reason) : (s.refuseAtPort r).runs = s.runs := rfl
@[simp] theorem State.refuseAtPort_busIn (s : State) (r : Reason) : (s.refuseAtPort r).busIn = s.busIn := rfl
@[simp] theorem State.refuseAtPort_script (s : State) (r : Reason) : (s.refuseAtPort r).script = s.script := rfl
@[simp] theorem State.refuseAtPort_drawn (s : State) (r : Reason) : (s.refuseAtPort r).drawn = s.drawn := rfl

/-! ### startRun -/

@[simp] theorem State.startRun_cfg (s : State) (prog : List Issue) : (s.startRun prog).cfg = s.cfg := rfl
@[simp] theorem State.startRun_phase (s : State) (prog : List Issue) : (s.startRun prog).phase = s.phase := rfl
@[simp] theorem State.startRun_pins (s : State) (prog : List Issue) : (s.startRun prog).pins = s.pins := rfl
@[simp] theorem State.startRun_channel (s : State) (prog : List Issue) : (s.startRun prog).channel = s.channel := rfl
@[simp] theorem State.startRun_dc (s : State) (prog : List Issue) : (s.startRun prog).dc = s.dc := rfl
@[simp] theorem State.startRun_rst (s : State) (prog : List Issue) : (s.startRun prog).rst = s.rst := rfl
@[simp] theorem State.startRun_blPin (s : State) (prog : List Issue) : (s.startRun prog).blPin = s.blPin := rfl
@[simp] theorem State.startRun_blOn (s : State) (prog : List Issue) : (s.startRun prog).blOn = s.blOn := rfl
@[simp] theorem State.startRun_contrast (s : State) (prog : List Issue) : (s.startRun prog).contrast = s.contrast := rfl
@[simp] theorem State.startRun_lastPos (s : State) (prog : List Issue) : (s.startRun prog).lastPos = s.lastPos := rfl
@[simp] theorem State.startRun_outputs (s : State) (prog : List Issue) : (s.startRun prog).outputs = s.outputs := rfl
@[simp] theorem State.startRun_trace (s : State) (prog : List Issue) : (s.startRun prog).trace = s.trace := rfl
@[simp] theorem State.startRun_refused (s : State) (prog : List Issue) : (s.startRun prog).refused = s.refused := rfl
@[simp] theorem State.startRun_lastResult (s : State) (prog : List Issue) : (s.startRun prog).lastResult = s.lastResult := rfl
@[simp] theorem State.startRun_pc (s : State) (prog : List Issue) : (s.startRun prog).pc = 0 := rfl
@[simp] theorem State.startRun_panel (s : State) (prog : List Issue) : (s.startRun prog).panel = s.panel := rfl
@[simp] theorem State.startRun_prog (s : State) (prog : List Issue) : (s.startRun prog).prog = prog := rfl
@[simp] theorem State.startRun_ended (s : State) (prog : List Issue) : (s.startRun prog).ended = false := rfl
@[simp] theorem State.startRun_runs (s : State) (prog : List Issue) : (s.startRun prog).runs = s.runs := rfl
@[simp] theorem State.startRun_busIn (s : State) (prog : List Issue) : (s.startRun prog).busIn = s.busIn := rfl
@[simp] theorem State.startRun_script (s : State) (prog : List Issue) : (s.startRun prog).script = s.script := rfl
@[simp] theorem State.startRun_drawn (s : State) (prog : List Issue) : (s.startRun prog).drawn = s.drawn := rfl

/-! ### afterEvents -/

@[simp] theorem State.afterEvents_cfg (s : State) (es : List Event) (n : Nat) : (s.afterEvents es n).cfg = s.cfg := rfl
@[simp] theorem State.afterEvents_phase (s : State) (es : List Event) (n : Nat) : (s.afterEvents es n).phase = s.phase := rfl
@[simp] theorem State.afterEvents_pins (s : State) (es : List Event) (n : Nat) : (s.afterEvents es n).pins = s.pins := rfl
@[simp] theorem State.afterEvents_channel (s : State) (es : List Event) (n : Nat) : (s.afterEvents es n).channel = s.channel := rfl
@[simp] theorem State.afterEvents_dc (s : State) (es : List Event) (n : Nat) : (s.afterEvents es n).dc = s.dc := rfl
@[simp] theorem State.afterEvents_rst (s : State) (es : List Event) (n : Nat) : (s.afterEvents es n).rst = s.rst := rfl
@[simp] theorem State.afterEvents_blPin (s : State) (es : List Event) (n : Nat) : (s.afterEvents es n).blPin = s.blPin := rfl
@[simp] theorem State.afterEvents_blOn (s : State) (es : List Event) (n : Nat) : (s.afterEvents es n).blOn = s.blOn := rfl
@[simp] theorem State.afterEvents_contrast (s : State) (es : List Event) (n : Nat) : (s.afterEvents es n).contrast = s.contrast := rfl
@[simp] theorem State.afterEvents_lastPos (s : State) (es : List Event) (n : Nat) : (s.afterEvents es n).lastPos = s.lastPos := rfl
@[simp] theorem State.afterEvents_outputs (s : State) (es : List Event) (n : Nat) : (s.afterEvents es n).outputs = s.outputs := rfl
@[simp] theorem State.afterEvents_trace (s : State) (es : List Event) (n : Nat) : (s.afterEvents es n).trace = s.trace ++ es := rfl
@[simp] theorem State.afterEvents_refused (s : State) (es : List Event) (n : Nat) : (s.afterEvents es n).refused = s.refused := rfl
@[simp] theorem State.afterEvents_lastResult (s : State) (es : List Event) (n : Nat) : (s.afterEvents es n).lastResult = s.lastResult := rfl
@[simp] theorem State.afterEvents_pc (s : State) (es : List Event) (n : Nat) : (s.afterEvents es n).pc = s.pc := rfl
@[simp] theorem State.afterEvents_panel (s : State) (es : List Event) (n : Nat) : (s.afterEvents es n).panel = es.foldl (Panel.step s.cfg.panelLastWrap) s.panel := rfl
@[simp] theorem State.afterEvents_prog (s : State) (es : List Event) (n : Nat) : (s.afterEvents es n).prog = s.prog := rfl
@[simp] theorem State.afterEvents_ended (s : State) (es : List Event) (n : Nat) : (s.afterEvents es n).ended = s.ended := rfl
@[simp] theorem State.afterEvents_runs (s : State) (es : List Event) (n : Nat) : (s.afterEvents es n).runs = s.runs := rfl
@[simp] theorem State.afterEvents_busIn (s : State) (es : List Event) (n : Nat) : (s.afterEvents es n).busIn = s.busIn := rfl
@[simp] theorem State.afterEvents_script (s : State) (es : List Event) (n : Nat) : (s.afterEvents es n).script = s.script := rfl
@[simp] theorem State.afterEvents_drawn (s : State) (es : List Event) (n : Nat) : (s.afterEvents es n).drawn = s.drawn + n := rfl

/-! ### Draws -/

/-- A draw depends on the script only. -/
theorem State.drawAt_congr {s t : State} (h : t.script = s.script) (n : Nat) : t.drawAt n = s.drawAt n := by
  simp [State.drawAt, h]

@[simp] theorem State.emit_drawAt (s : State) (e : Event) (n : Nat) : (s.emit e).drawAt n = s.drawAt n := rfl
@[simp] theorem State.call_drawAt (s : State) (ev : Answer → Event) (n : Nat) :
    (s.call ev).drawAt n = s.drawAt n := rfl
@[simp] theorem State.hold_drawAt (s : State) (n : Nat) : s.hold.drawAt n = s.drawAt n := rfl
@[simp] theorem State.afterEvents_drawAt (s : State) (es : List Event) (k n : Nat) :
    (s.afterEvents es k).drawAt n = s.drawAt n := rfl

/-! ### Runs of events -/

@[simp] theorem State.afterEvents_nil (s : State) : s.afterEvents [] 0 = s := by
  simp [State.afterEvents]

theorem State.afterEvents_afterEvents (s : State) (es fs : List Event) (m n : Nat) :
    (s.afterEvents es m).afterEvents fs n = s.afterEvents (es ++ fs) (m + n) := by
  simp [State.afterEvents, List.foldl_append, Nat.add_assoc]

theorem State.call_eq_afterEvents (s : State) (ev : Answer → Event) :
    s.call ev = s.afterEvents [ev s.draw.answer] 1 := rfl

theorem State.emit_eq_afterEvents (s : State) (e : Event) : s.emit e = s.afterEvents [e] 0 := rfl

theorem State.hold_eq_afterEvents (s : State) :
    s.hold = s.afterEvents [.hold (100 + s.draw.holdExtra)] 0 := rfl

end Sys2Proof.Machine
end

