-- ==== Sys2Proof/Laws/Engine.lean ====
section
/-! SUPPORT. Everything the shared operations can do: a backend call, the framing step, sequencing, `operate`; and the
two closure principles by which a property of the state survives any engine operation, whatever the backend
answers. -/

namespace Sys2Proof.Machine

/-! ### Sequencing -/

@[simp] theorem Ran.andThen_ok {α β : Type} (s : State) (a : α) (k : α → State → Ran β) :
    (Ran.mk s (.ok a)).andThen k = k a s := rfl

@[simp] theorem Ran.andThen_error {α β : Type} (s : State) (e : Error) (k : α → State → Ran β) :
    (Ran.mk s (.error e)).andThen k = ⟨s, .error e⟩ := rfl

@[simp] theorem Ran.onError_ok {α : Type} (s : State) (a : α) (f : State → State) :
    (Ran.mk s (.ok a)).onError f = ⟨s, .ok a⟩ := rfl

@[simp] theorem Ran.onError_error {α : Type} (s : State) (e : Error) (f : State → State) :
    (Ran.mk (α := α) s (.error e)).onError f = ⟨f s, .error e⟩ := rfl

@[simp] theorem Ran.finish_mk (s : State) (res : Except Error Unit) : (Ran.mk s res).finish = s.finish res := rfl

theorem Ran.done_eq (s : State) : Ran.done s = ⟨s, .ok ()⟩ := rfl

/-! ### Backend calls -/

theorem attempt_ok {ev : Answer → Event} {e : Error} {onFail onOk : State → State} {s : State}
    (h : s.draw.answer = .ok) : attempt ev e onFail onOk s = ⟨onOk (s.afterEvents [ev .ok] 1), .ok ()⟩ := by
  simp [attempt, h, State.call_eq_afterEvents]

theorem attempt_fail {ev : Answer → Event} {e : Error} {onFail onOk : State → State} {s : State}
    (h : s.draw.answer = .fail) : attempt ev e onFail onOk s = ⟨onFail (s.afterEvents [ev .fail] 1), .error e⟩ := by
  simp [attempt, h, State.call_eq_afterEvents]

/-- A backend call ends in one of two ways. -/
theorem attempt_cases (ev : Answer → Event) (e : Error) (onFail onOk : State → State) (s : State) :
    (s.draw.answer = .ok ∧ attempt ev e onFail onOk s = ⟨onOk (s.afterEvents [ev .ok] 1), .ok ()⟩) ∨
      (s.draw.answer = .fail ∧
        attempt ev e onFail onOk s = ⟨onFail (s.afterEvents [ev .fail] 1), .error e⟩) := by
  cases h : s.draw.answer with
  | ok => exact .inl ⟨rfl, attempt_ok h⟩
  | fail => exact .inr ⟨rfl, attempt_fail h⟩

theorem State.AnswersOk.draw {s : State} {n : Nat} (h : s.AnswersOk n) (hn : 0 < n) : s.draw.answer = .ok := by
  simpa [State.draw] using h 0 hn

theorem State.AnswersOk.mono {s : State} {m n : Nat} (h : s.AnswersOk n) (hm : m ≤ n) : s.AnswersOk m :=
  fun k hk => h k (Nat.lt_of_lt_of_le hk hm)

/-- The premise after some of the calls have been made, in a state with the same script. -/
theorem State.AnswersOk.later {s t : State} {m n : Nat} (h : s.AnswersOk (m + n)) (hs : t.script = s.script)
    (hd : t.drawn = s.drawn + m) : t.AnswersOk n := by
  intro k hk
  rw [State.drawAt_congr hs, hd, Nat.add_assoc]
  exact h (m + k) (by omega)

/-- The framing step when both calls succeed (R110). -/
theorem frame_ok {h : Handle} {isCmd : Bool} {bytes : List Byte} {kind : Kind} {s : State} (hs : s.AnswersOk 2) :
    frame h isCmd bytes kind s =
      ⟨{ s.afterEvents (transferEvents s.cfg h isCmd bytes kind) 2 with dc := some (dcLevel s.cfg isCmd) }, .ok ()⟩ := by
  have h0 : s.draw.answer = .ok := hs.draw (by omega)
  unfold frame
  rw [attempt_ok h0, Ran.andThen_ok]
  rw [attempt_ok]
  · simp [State.afterEvents, transferEvents]
  · have := hs 1 (by omega)
    simpa [State.draw, State.afterEvents, State.drawAt] using this

/-- The framing step ends in one of three ways (R110). -/
theorem frame_cases (h : Handle) (isCmd : Bool) (bytes : List Byte) (kind : Kind) (s : State) :
    frame h isCmd bytes kind s =
        ⟨{ s.afterEvents [.write h.pins.dataCommand (dcLevel s.cfg isCmd) .dc .fail] 1 with dc := none },
          .error .transfer⟩ ∨
      frame h isCmd bytes kind s =
        ⟨{ s.afterEvents [.write h.pins.dataCommand (dcLevel s.cfg isCmd) .dc .ok, .serial h.channel bytes kind .fail] 2
            with dc := some (dcLevel s.cfg isCmd) }, .error .transfer⟩ ∨
      frame h isCmd bytes kind s =
        ⟨{ s.afterEvents (transferEvents s.cfg h isCmd bytes kind) 2 with dc := some (dcLevel s.cfg isCmd) },
          .ok ()⟩ := by
  unfold frame
  rcases attempt_cases (.write h.pins.dataCommand (dcLevel s.cfg isCmd) .dc) .transfer
      (fun t => { t with dc := none }) (fun t => { t with dc := some (dcLevel s.cfg isCmd) }) s with ⟨-, h1⟩ | ⟨-, h1⟩
  · right
    rw [h1, Ran.andThen_ok]
    rcases attempt_cases (.serial h.channel bytes kind) .transfer id id
        { s.afterEvents [.write h.pins.dataCommand (dcLevel s.cfg isCmd) .dc .ok] 1 with
          dc := some (dcLevel s.cfg isCmd) } with ⟨-, h2⟩ | ⟨-, h2⟩
    · right
      rw [h2]
      simp [State.afterEvents, transferEvents]
    · left
      rw [h2]
      simp [State.afterEvents]
  · left
    rw [h1, Ran.andThen_error]

/-! ### `operate` -/

theorem operate_uninitialized {α β : Type} {check : Except Error β} {read : State → Except Fault α}
    {body : β → α → State → Ran Unit} {s : State} (h : s.phase = .uninitialized) :
    operate check read body s = .next (s.refuse .notInitialized) := by
  simp [operate, h]

theorem operate_checked {α β : Type} {e : Error} {read : State → Except Fault α}
    {body : β → α → State → Ran Unit} {s : State} (h : s.phase = .initialized) :
    operate (.error e) read body s = .next (s.finish (.error e)) := by
  simp [operate, h]

theorem operate_run {α β : Type} {b : β} {read : State → Except Fault α} {a : α}
    {body : β → α → State → Ran Unit} {s : State} (h : s.phase = .initialized) (ha : read s = .ok a) :
    operate (.ok b) read body s = .next (body b a s).finish := by
  simp [operate, h, ha]

/-- Everything an operation can answer with a next state. -/
theorem operate_cases {α β : Type} {check : Except Error β} {read : State → Except Fault α}
    {body : β → α → State → Ran Unit} {s t : State} (h : operate check read body s = .next t) :
    (s.phase = .uninitialized ∧ t = s.refuse .notInitialized) ∨
      (s.phase = .initialized ∧ ∃ e, check = .error e ∧ t = s.finish (.error e)) ∨
      (s.phase = .initialized ∧ ∃ b a, check = .ok b ∧ read s = .ok a ∧ t = (body b a s).finish) := by
  unfold operate at h
  cases hp : s.phase with
  | uninitialized =>
    rw [hp] at h
    exact .inl ⟨rfl, by simpa using h.symm⟩
  | initialized =>
    rw [hp] at h
    cases hc : check with
    | error e =>
      rw [hc] at h
      exact .inr (.inl ⟨rfl, e, rfl, by simpa using h.symm⟩)
    | ok b =>
      rw [hc] at h
      cases ha : read s with
      | error f => simp [ha] at h
      | ok a => exact .inr (.inr ⟨rfl, b, a, rfl, rfl, by simpa [ha] using h.symm⟩)

theorem State.Ready.readHandle {s : State} {h : Handle} (hr : s.Ready h) : s.readHandle = .ok h := by
  simp [State.readHandle, hr.2.1, hr.2.2]

theorem State.Ready.readPins {s : State} {h : Handle} (hr : s.Ready h) : s.readPins = .ok h.pins := by
  simp [State.readPins, hr.2.1]

/-! ### Closure principles -/

/-- A property that survives every move of an initialized engine's operations. -/
structure EngineStable (P : State → Prop) : Prop where
  call : ∀ s (ev : Answer → Event), (∀ a ms, ev a ≠ .hold ms) → P s → P (s.call ev)
  dc : ∀ s v, P s → P { s with dc := v }
  lastPos : ∀ s v, P s → P { s with lastPos := v }
  contrast : ∀ s v, P s → P { s with contrast := v }
  backlight : ∀ s on, P s → P { s with blPin := some (backlightLevel on), blOn := some on }
  noBacklight : ∀ s, P s → P { s with blPin := none, blOn := none }

/-- A property that survives every move of INIT before its last. -/
structure BootStable (P : State → Prop) : Prop extends EngineStable P where
  hold : ∀ s, P s → P s.hold
  pins : ∀ s v, P s → P { s with pins := v }
  channel : ∀ s v, P s → P { s with channel := v }
  outputs : ∀ s p, P s → P { s with outputs := insertPin p s.outputs }
  rst : ∀ s v, P s → P { s with rst := v }

theorem Ran.andThen_keeps {α β : Type} {P : State → Prop} {r : Ran α} {k : α → State → Ran β} (h : P r.st)
    (hk : ∀ a s, P s → P (k a s).st) : P (r.andThen k).st := by
  unfold Ran.andThen
  split
  · exact hk _ _ h
  · exact h

theorem Ran.onError_keeps {α : Type} {P : State → Prop} {r : Ran α} {f : State → State} (h : P r.st)
    (hf : ∀ s, P s → P (f s)) : P (r.onError f).st := by
  unfold Ran.onError
  split
  · exact h
  · exact hf _ h

theorem attempt_keeps {P : State → Prop} {ev : Answer → Event} {e : Error} {onFail onOk : State → State} {s : State}
    (hcall : P (s.call ev)) (hf : ∀ t, P t → P (onFail t)) (ho : ∀ t, P t → P (onOk t)) :
    P (attempt ev e onFail onOk s).st := by
  unfold attempt
  split
  · exact ho _ hcall
  · exact hf _ hcall

variable {P : State → Prop}

theorem frame_keeps (hP : EngineStable P) (h : Handle) (isCmd : Bool) (bytes : List Byte) (kind : Kind) (s : State)
    (hs : P s) : P (frame h isCmd bytes kind s).st :=
  Ran.andThen_keeps
    (attempt_keeps (hP.call _ _ (by simp) hs) (fun t => hP.dc t _) (fun t => hP.dc t _))
    fun _ t ht => attempt_keeps (hP.call t _ (by simp) ht) (fun _ h => h) (fun _ h => h)

theorem setPositionBody_keeps (hP : EngineStable P) (h : Handle) (p : Segment × Bank) (s : State) (hs : P s) :
    P (setPositionBody h p s).st :=
  Ran.andThen_keeps (Ran.onError_keeps (frame_keeps hP h _ _ _ s hs) fun t => hP.lastPos t _)
    fun _ t ht => hP.lastPos t _ ht

theorem clearBody_keeps (hP : EngineStable P) (h : Handle) (s : State) (hs : P s) : P (clearBody h s).st :=
  Ran.andThen_keeps (setPositionBody_keeps hP h _ s hs) fun _ t ht =>
    Ran.andThen_keeps (Ran.onError_keeps (frame_keeps hP h _ _ _ t ht) fun u => hP.lastPos u _)
      fun _ u hu => setPositionBody_keeps hP h _ u hu

theorem sendContrast_keeps (hP : EngineStable P) (h : Handle) (v : Byte) (s : State) (hs : P s) :
    P (sendContrast h v s).st :=
  Ran.andThen_keeps (Ran.onError_keeps (frame_keeps hP h _ _ _ s hs) fun t => hP.contrast t _)
    fun _ t ht => hP.contrast t _ ht

theorem driveBacklight_keeps (hP : EngineStable P) (on : Bool) (pins : PinMap) (s : State) (hs : P s) :
    P (driveBacklight on pins s).st :=
  attempt_keeps (hP.call s _ (by simp) hs) (fun t => hP.noBacklight t) (fun t => hP.backlight t on)

theorem drawChars_keeps (hP : EngineStable P) (h : Handle) (chars : List CharCode) (s : State) (hs : P s) :
    P (drawChars h chars s).st := by
  induction chars generalizing s with
  | nil => exact hs
  | cons c cs ih =>
    unfold drawChars
    split
    · exact hs
    · exact Ran.andThen_keeps (Ran.onError_keeps (frame_keeps hP h _ _ _ s hs) fun t => hP.lastPos t _)
        fun _ t ht => ih t ht

theorem setOutputs_keeps (hP : BootStable P) (ps : List Pin) (s : State) (hs : P s) : P (setOutputs ps s).st := by
  induction ps generalizing s with
  | nil => exact hs
  | cons p ps ih =>
    exact Ran.andThen_keeps
      (attempt_keeps (hP.call s _ (by simp) hs) (fun _ h => h) (fun t => hP.outputs t p)) fun _ t ht => ih t ht

theorem configureBody_keeps (hP : BootStable P) (pins : PinMap) (s : State) (hs : P s) :
    P (configureBody pins s).st :=
  Ran.andThen_keeps
    (attempt_keeps (hP.call _ _ (by simp) (hP.pins s _ hs)) (fun _ h => h) (fun _ h => h)) fun _ t ht =>
    Ran.andThen_keeps
      (attempt_keeps (hP.call t _ (by simp) ht) (fun _ h => h) (fun u => hP.channel u _)) fun _ u hu =>
      Ran.andThen_keeps (setOutputs_keeps hP _ u hu) fun _ v hv => hv

theorem driveReset_keeps (hP : BootStable P) (pins : PinMap) (level : Level) (s : State) (hs : P s) :
    P (driveReset pins level s).st :=
  attempt_keeps (hP.call s _ (by simp) hs) (fun t => hP.rst t _) (fun t => hP.rst t _)

end Sys2Proof.Machine
end

