-- ==== Sys2Proof/Laws/Exec.lean ====
section
/-! SUPPORT. The meaning of each operation over `operate`, one equation for each arm of exec: proofs rewrite with these and
never unfold exec. -/

namespace Sys2Proof.Machine

theorem exec_cmd (bytes : List Byte) (s : State) : exec (.cmd bytes) s =
    operate (.ok ()) State.readHandle (fun _ h t => frame h true bytes .cmdRaw t) s := rfl

theorem exec_data (bytes : List Byte) (s : State) : exec (.data bytes) s =
    operate (.ok ()) State.readHandle (fun _ h t => frame h false bytes .dataRaw t) s := rfl

theorem exec_backlight (on : Bool) (s : State) : exec (.backlight on) s =
    operate (.ok ()) State.readPins (fun _ pins t => driveBacklight on pins t) s := rfl

theorem exec_setpos (segment bank : Int) (s : State) : exec (.setpos segment bank) s =
    operate (place segment bank) State.readHandle (fun p h t => setPositionBody h p t) s := rfl

theorem exec_locate (row col : Int) (s : State) : exec (.locate row col) s =
    operate (place (columnSegment col) row) State.readHandle (fun p h t => setPositionBody h p t) s := rfl

theorem exec_cls (s : State) : exec .cls s =
    operate (.ok ()) State.readHandle (fun _ h t => clearBody h t) s := rfl

theorem exec_contrast (value : Byte) (s : State) : exec (.contrast value) s =
    operate (.ok ()) State.readHandle (fun _ h t => sendContrast h value t) s := rfl

theorem exec_text (row col : Int) (chars : List CharCode) (s : State) : exec (.text row col chars) s =
    operate (textStart row col chars.length) State.readHandle
      (fun p h t => (setPositionBody h p t).andThen fun _ u => drawChars h chars u) s := rfl

theorem exec_init_uninitialized {pins : PinMap} {contrast : Byte} {s : State} (h : s.phase = .uninitialized) :
    exec (.init pins contrast) s = .next (initBody pins contrast s).finish := by
  simp [exec, execInit, h]

theorem exec_init_initialized {pins : PinMap} {contrast : Byte} {s : State} (h : s.phase = .initialized) :
    exec (.init pins contrast) s = .next (s.refuse .reinitialize) := by
  simp [exec, execInit, h]

theorem exec_configure_uninitialized {pins : PinMap} {s : State} (h : s.phase = .uninitialized) :
    exec (.configure pins) s = .next ((configureBody pins s).andThen fun _ t => .done t).finish := by
  simp [exec, execConfigure, h]

theorem exec_configure_initialized {pins : PinMap} {s : State} (h : s.phase = .initialized) :
    exec (.configure pins) s = .next (s.refuse .internal) := by
  simp [exec, execConfigure, h]

/-- A wire row is one event and nothing else. -/
theorem exec_wire {i : Instr} {s t : State} (hi : i.layer = .wire) (h : exec i s = .next t) :
    ∃ op, t = s.emit (.wire op) := by
  cases i
  all_goals first | (cases hi; done) | (cases h; exact ⟨_, rfl⟩)

/-! ### The step -/

/-- A step settles without an instruction, or runs the one fetched and retires it. -/
theorem step_cases {s t : State} (h : step s = .next t) :
    fetch s = .settled t ∨ ∃ i u v, fetch s = .run i u ∧ exec i u = .next v ∧ t = retire i v := by
  unfold step at h
  split at h
  · cases h
    exact .inl ‹_›
  · split at h
    · cases h
      exact .inr ⟨_, _, _, ‹_›, ‹_›, rfl⟩
    · cases h
    · cases h

theorem step_run {s u v : State} {i : Instr} (h1 : fetch s = .run i u) (h2 : exec i u = .next v) :
    step s = .next (retire i v) := by
  simp [step, h1, h2]

theorem retire_wire {i : Instr} (hi : i.layer = .wire) (s : State) : retire i s = s := by
  simp [retire, hi]

theorem retire_ok {i : Instr} {s : State} (hi : i.layer = .host) (h : s.lastResult = some .ok) :
    retire i s = { s with pc := s.pc + 1 } := by
  simp [retire, hi, h]

theorem retire_ended {i : Instr} {s : State} (hi : i.layer = .host) (h : s.lastResult ≠ some .ok) :
    retire i s = { s with ended := true } := by
  simp [retire, hi]

end Sys2Proof.Machine
end

