-- ==== Sys2Proof/Laws/Fetch.lean ====
section
/-! SUPPORT. What fetching leaves: an instruction is run in a state with the engine's registers, the trace and the backend
untouched, and a step that ends without an instruction changes no more than the spec lets a refusal change. -/

namespace Sys2Proof.Machine

/-- The state an instruction is run in. -/
theorem fetch_run_same {s u : State} {i : Instr} (h : fetch s = .run i u) :
    u.phase = s.phase ∧ u.pins = s.pins ∧ u.channel = s.channel ∧ u.trace = s.trace ∧ u.panel = s.panel ∧
      u.cfg = s.cfg ∧ u.script = s.script ∧ u.drawn = s.drawn ∧ u.refused = s.refused := by
  unfold fetch at h
  split at h
  · unfold fetchTransfer at h
    split at h
    · cases h
      simp
    · cases h
      simp
    · split at h <;> cases h
  · have hn : ∀ u, fetchNextRun s ≠ .run i u := by
      intro u
      unfold fetchNextRun
      split <;> simp
    unfold fetchHost at h
    split at h
    · exact absurd h (hn _)
    · split at h
      · exact absurd h (hn _)
      · split at h
        · unfold fetchIssue at h
          split at h
          · split at h
            · cases h
            · cases h
              simp
          · cases h
          · split at h
            · cases h
            · cases h
              unfold State.splitProgram
              split <;> simp
        · cases h

/-- The state after a step that runs no instruction. -/
theorem fetch_settled_same {s u : State} (h : fetch s = .settled u) :
    u.phase = s.phase ∧ u.pins = s.pins ∧ u.channel = s.channel ∧ u.drawn = s.drawn ∧
      (s.refused = true → u.refused = true) ∧
      (u.trace = s.trace ∨ ∃ b, u.trace = s.trace ++ [.wire (.reserved b)]) := by
  have hn : ∀ u, fetchNextRun s = .settled u → u.phase = s.phase ∧ u.pins = s.pins ∧ u.channel = s.channel ∧
      u.drawn = s.drawn ∧ (s.refused = true → u.refused = true) ∧
      (u.trace = s.trace ∨ ∃ b, u.trace = s.trace ++ [.wire (.reserved b)]) := by
    intro u h
    unfold fetchNextRun at h
    split at h <;> cases h <;> simp
  unfold fetch at h
  split at h
  · unfold fetchTransfer at h
    split at h
    · cases h
    · cases h
    · split at h <;> cases h <;> simp
  · unfold fetchHost at h
    split at h
    · exact hn _ h
    · split at h
      · exact hn _ h
      · split at h
        · unfold fetchIssue at h
          split at h
          · split at h
            · cases h
              simp
            · cases h
          · cases h
            simp [State.dropItem]
          · split at h
            · cases h
              simp
            · cases h
        · cases h
          simp

/-- A host stream that decodes is not empty. -/
theorem decodeDescriptor_ne_nil {bs rest : List Byte} {i : Instr} (h : decodeDescriptor bs = .ok (i, rest)) :
    ∃ tag fields, bs = tag :: fields := by
  cases bs with
  | nil => simp [decodeDescriptor, decodeHost] at h
  | cons tag fields => exact ⟨tag, fields, rfl⟩

/-- What the port does with a host stream whose first descriptor decodes. -/
theorem fetchIssue_ok {s : State} {bs rest : List Byte} {i : Instr} (h : decodeDescriptor bs = .ok (i, rest)) :
    fetchIssue (.bytes bs) s = .run i (s.splitProgram bs rest) := by
  obtain ⟨tag, fields, rfl⟩ := decodeDescriptor_ne_nil h
  simp [fetchIssue, h]

/-- What the port does with a host stream whose first descriptor is refused. -/
theorem fetchIssue_error {s : State} {tag : Byte} {fields : List Byte} {r : Reject}
    (h : decodeDescriptor (tag :: fields) = .error r) :
    fetchIssue (.bytes (tag :: fields)) s = .settled (s.refuseAtPort (rejectReason r)) := by
  simp [fetchIssue, h]

end Sys2Proof.Machine
end

