-- ==== Sys2Proof/Laws/Memory.lean ====
section
/-! SUPPORT. The frame memory: read after write, read after forget, and the canonical form every operation keeps. -/

namespace Sys2Proof.Machine

@[simp] theorem Memory.read_nil (a : Nat) : Memory.read [] a = none := rfl

@[simp] theorem Memory.read_write_same (m : Memory) (a : Nat) (v : Byte) :
    Memory.read (Memory.write a v m) a = some v := by
  induction m with
  | nil => simp [Memory.write, Memory.read]
  | cons c m ih =>
    obtain ⟨k, w⟩ := c
    simp only [Memory.write]
    split
    · simp [Memory.read]
    · split
      · simp [Memory.read]
      · simp [Memory.read, ih, Ne.symm ‹_›]

theorem Memory.read_write_other (m : Memory) {a b : Nat} (v : Byte) (h : b ≠ a) :
    Memory.read (Memory.write a v m) b = Memory.read m b := by
  induction m with
  | nil => simp [Memory.write, Memory.read, h.symm]
  | cons c m ih =>
    obtain ⟨k, w⟩ := c
    simp only [Memory.write]
    split
    · simp [Memory.read, h.symm]
    · split
      · rename_i hak
        subst hak
        simp [Memory.read, h.symm]
      · simp [Memory.read, ih]

/-- Nothing is listed below the bound of the canonical form. -/
theorem Memory.read_below {lo : Nat} {m : Memory} (h : Memory.wfFrom lo m = true) {a : Nat} (ha : a < lo) :
    Memory.read m a = none := by
  induction m generalizing lo with
  | nil => rfl
  | cons c m ih =>
    obtain ⟨k, w⟩ := c
    simp only [Memory.wfFrom, Bool.and_eq_true, decide_eq_true_eq] at h
    have hk : ¬ k = a := by omega
    simp [Memory.read, hk, ih h.2 (by omega)]

theorem Memory.read_forget_same {lo : Nat} {m : Memory} (h : Memory.wfFrom lo m = true) (a : Nat) :
    Memory.read (Memory.forget a m) a = none := by
  induction m generalizing lo with
  | nil => rfl
  | cons c m ih =>
    obtain ⟨k, w⟩ := c
    simp only [Memory.wfFrom, Bool.and_eq_true, decide_eq_true_eq] at h
    simp only [Memory.forget]
    split
    · exact Memory.read_below h.2 (by omega)
    · simp [Memory.read, ‹¬k = a›, ih h.2]

theorem Memory.read_forget_other (m : Memory) {a b : Nat} (h : b ≠ a) :
    Memory.read (Memory.forget a m) b = Memory.read m b := by
  induction m with
  | nil => rfl
  | cons c m ih =>
    obtain ⟨k, w⟩ := c
    simp only [Memory.forget]
    split
    · rename_i hk
      subst hk
      simp [Memory.read, h.symm]
    · simp [Memory.read, ih]

theorem Memory.wfFrom_mono {lo lo' : Nat} {m : Memory} (h : Memory.wfFrom lo m = true) (hl : lo' ≤ lo) :
    Memory.wfFrom lo' m = true := by
  cases m with
  | nil => rfl
  | cons c m =>
    simp only [Memory.wfFrom, Bool.and_eq_true, decide_eq_true_eq] at h ⊢
    exact ⟨⟨by omega, h.1.2⟩, h.2⟩

theorem Memory.wfFrom_write {lo : Nat} {m : Memory} (h : Memory.wfFrom lo m = true) {a : Nat} (v : Byte)
    (hlo : lo ≤ a) (ha : a < frameBytes) : Memory.wfFrom lo (Memory.write a v m) = true := by
  induction m generalizing lo with
  | nil => simp [Memory.write, Memory.wfFrom, hlo, ha]
  | cons c m ih =>
    obtain ⟨k, w⟩ := c
    simp only [Memory.wfFrom, Bool.and_eq_true, decide_eq_true_eq] at h
    simp only [Memory.write]
    split
    · simp [Memory.wfFrom, hlo, ha, h.1.2, h.2, Nat.succ_le_of_lt ‹a < k›]
    · split
      · rename_i hk
        subst hk
        simp [Memory.wfFrom, hlo, ha, h.2]
      · simp only [Memory.wfFrom, Bool.and_eq_true, decide_eq_true_eq]
        exact ⟨h.1, ih h.2 (by omega)⟩

theorem Memory.wfFrom_forget {lo : Nat} {m : Memory} (h : Memory.wfFrom lo m = true) (a : Nat) :
    Memory.wfFrom lo (Memory.forget a m) = true := by
  induction m generalizing lo with
  | nil => rfl
  | cons c m ih =>
    obtain ⟨k, w⟩ := c
    simp only [Memory.wfFrom, Bool.and_eq_true, decide_eq_true_eq] at h
    simp only [Memory.forget]
    split
    · exact Memory.wfFrom_mono h.2 (by omega)
    · simp only [Memory.wfFrom, Bool.and_eq_true, decide_eq_true_eq]
      exact ⟨h.1, ih h.2⟩

theorem Memory.wf_nil : Memory.wf [] = true := rfl

theorem Memory.wf_write {m : Memory} (h : Memory.wf m = true) {a : Nat} (v : Byte) (ha : a < frameBytes) :
    Memory.wf (Memory.write a v m) = true :=
  Memory.wfFrom_write h v (Nat.zero_le a) ha

theorem Memory.wf_forget {m : Memory} (h : Memory.wf m = true) (a : Nat) : Memory.wf (Memory.forget a m) = true :=
  Memory.wfFrom_forget h a

/-- Two memories in canonical form that read alike are equal. -/
theorem Memory.ext_of_wf {lo : Nat} {m n : Memory} (hm : Memory.wfFrom lo m = true) (hn : Memory.wfFrom lo n = true)
    (h : ∀ a, Memory.read m a = Memory.read n a) : m = n := by
  induction m generalizing lo n with
  | nil =>
    cases n with
    | nil => rfl
    | cons c n =>
      obtain ⟨k, w⟩ := c
      have := h k
      simp [Memory.read] at this
  | cons c m ih =>
    obtain ⟨k, w⟩ := c
    cases n with
    | nil =>
      have := h k
      simp [Memory.read] at this
    | cons d n =>
      obtain ⟨l, x⟩ := d
      simp only [Memory.wfFrom, Bool.and_eq_true, decide_eq_true_eq] at hm hn
      have hkl : k = l := by
        by_contra hne
        rcases Nat.lt_or_gt_of_ne hne with hlt | hgt
        · have := h k
          simp [Memory.read, Memory.read_below hn.2 (show k < l + 1 by omega), Ne.symm hne] at this
        · have := h l
          simp [Memory.read, Memory.read_below hm.2 (show l < k + 1 by omega), hne] at this
      subst hkl
      have hwx : w = x := by
        have := h k
        simpa [Memory.read] using this
      subst hwx
      congr 1
      refine ih hm.2 hn.2 fun a => ?_
      by_cases ha : k = a
      · subst ha
        rw [Memory.read_below hm.2 (by omega), Memory.read_below hn.2 (by omega)]
      · have := h a
        simpa [Memory.read, ha] using this

/-! ### Cells -/

theorem cellAddress_lt (bank : Bank) (segment : Segment) : cellAddress bank segment < frameBytes := by
  have hb := bank.isLt
  have hs := segment.isLt
  simp only [cellAddress, frameBytes]
  omega

theorem cellAddress_inj {b b' : Bank} {s s' : Segment} (h : cellAddress b s = cellAddress b' s') :
    b = b' ∧ s = s' := by
  have hs := s.isLt
  have hs' := s'.isLt
  simp only [cellAddress] at h
  constructor <;> ext <;> omega

end Sys2Proof.Machine
end

