-- ==== Sys2Proof/Laws/Operations.lean ====
section
/-! SUPPORT. What each piece of an operation leaves, for a backend that answers ok and, for the framing step, at each call
that fails: the equations that statements about whole operations rest on. -/

namespace Sys2Proof.Machine

/-! ### Operand checks -/

/-- A position in range is placed as it is (R130). -/
theorem place_ok (segment : Segment) (bank : Bank) : place segment.val bank.val = .ok (segment, bank) := by
  have h1 := segment.isLt
  have h2 := bank.isLt
  rw [place, if_pos]
  · simp
  · simp [inRange]
    omega

/-- The position check raises nothing but `RangeError` (R183). -/
theorem place_error {segment bank : Int} {e : Error} (h : place segment bank = .error e) : e = .range := by
  unfold place at h
  split at h
  · cases h
  · cases h
    rfl

/-- A text that fits starts at segment `6 * col` of its row (R155, R157). -/
theorem textStart_ok {row : Bank} {col : Fin 14} {segment : Segment} {n : Nat} (hs : segment.val = 6 * col.val)
    (hn : 6 * col.val + 6 * n ≤ 84) : textStart row.val col.val n = .ok (segment, row) := by
  have : columnSegment col.val = (segment.val : Int) := by simp [columnSegment, hs]
  rw [textStart, if_pos, this, place_ok]
  simp [textFits]
  omega

/-- The text check raises nothing but `RangeError` (R183). -/
theorem textStart_error {row col : Int} {n : Nat} {e : Error} (h : textStart row col n = .error e) : e = .range := by
  unfold textStart at h
  split at h
  · exact place_error h
  · cases h
    rfl

/-! ### The reference font -/

/-- Row 7 of the reference font is empty (R60). -/
theorem referenceGlyphByte_row7 (c : CharCode) (j : Nat) : (Config.referenceGlyphByte c j).getLsbD 7 = false := by
  simp [Config.referenceGlyphByte]

/-- Every entry of the reference font: a printable code, five bytes, bits 0 to 6 (R59, R60). -/
theorem mem_referenceFont {c : CharCode} {g : List Byte} (h : (c, g) ∈ Config.referenceFont) :
    0x20 ≤ c ∧ c ≤ 0x7E ∧ g.length = 5 ∧ ∀ b ∈ g, b.getLsbD 7 = false := by
  simp only [Config.referenceFont, List.mem_map, List.mem_range, Prod.mk.injEq] at h
  obtain ⟨k, hk, rfl, rfl⟩ := h
  refine ⟨Nat.le_add_right _ _, show 0x20 + k ≤ 0x7E from ?_, by simp, fun b hb => ?_⟩
  · exact Nat.add_le_add_left (Nat.le_of_lt_succ hk) 0x20
  obtain ⟨j, -, rfl⟩ := List.mem_map.mp hb
  exact referenceGlyphByte_row7 _ _

/-! ### Calls made before -/

/-- The calls already made count off the calls until the failure. -/
theorem State.FailsAfter.later {s t : State} {m n : Nat} (h : s.FailsAfter (m + n)) (hs : t.script = s.script)
    (hd : t.drawn = s.drawn + m) : t.FailsAfter n := by
  refine ⟨State.AnswersOk.later h.1 hs hd, ?_⟩
  simpa [State.drawAt, hs, hd, Nat.add_assoc] using h.2

/-- The backend answers ok to all of `n` calls, or one of them is the first to fail (R184). -/
theorem State.answersOk_or_failsAfter (s : State) (n : Nat) : s.AnswersOk n ∨ ∃ m, m < n ∧ s.FailsAfter m := by
  induction n with
  | zero => exact .inl fun k hk => absurd hk (Nat.not_lt_zero k)
  | succ n ih =>
    rcases ih with h | ⟨m, hm, h⟩
    · cases ha : (s.drawAt (s.drawn + n)).answer with
      | ok =>
        refine .inl fun k hk => ?_
        rcases Nat.lt_succ_iff_lt_or_eq.mp hk with hk | rfl
        · exact h k hk
        · exact ha
      | fail => exact .inr ⟨n, by omega, h, ha⟩
    · exact .inr ⟨m, by omega, h⟩

/-! ### The framing step -/

/-- The D/C write fails (R110). -/
theorem frame_dcFails {h : Handle} {isCmd : Bool} {bytes : List Byte} {kind : Kind} {s : State} (hs : s.FailsAfter 0) :
    frame h isCmd bytes kind s =
      ⟨{ s.afterEvents [.write h.pins.dataCommand (dcLevel s.cfg isCmd) .dc .fail] 1 with dc := none },
        .error .transfer⟩ := by
  have h0 : s.draw.answer = .fail := by simpa [State.draw] using hs.2
  unfold frame
  rw [attempt_fail h0, Ran.andThen_error]

/-- The serial call fails (R110). -/
theorem frame_serialFails {h : Handle} {isCmd : Bool} {bytes : List Byte} {kind : Kind} {s : State}
    (hs : s.FailsAfter 1) :
    frame h isCmd bytes kind s =
      ⟨{ s.afterEvents [.write h.pins.dataCommand (dcLevel s.cfg isCmd) .dc .ok, .serial h.channel bytes kind .fail] 2
          with dc := some (dcLevel s.cfg isCmd) }, .error .transfer⟩ := by
  have h0 : s.draw.answer = .ok := hs.1.draw (by omega)
  unfold frame
  rw [attempt_ok h0, Ran.andThen_ok, attempt_fail]
  · simp [State.afterEvents]
  · simpa [State.draw, State.afterEvents, State.drawAt] using hs.2

/-! ### Pieces of operations -/

theorem setPositionBody_ok {h : Handle} {p : Segment × Bank} {s : State} (hs : s.AnswersOk 2) :
    setPositionBody h p s =
      ⟨{ s.afterEvents (transferEvents s.cfg h true (positionBytes p.1 p.2) (.cmdPos p.1 p.2)) 2 with
        dc := some (dcLevel s.cfg true), lastPos := some p }, .ok ()⟩ := by
  rw [setPositionBody, frame_ok hs]
  rfl

theorem clearBody_ok {h : Handle} {s : State} (hs : s.AnswersOk 6) :
    clearBody h s = ⟨{ s.afterEvents (clearEvents s.cfg h) 6 with
      dc := some (dcLevel s.cfg true), lastPos := some (0, 0) }, .ok ()⟩ := by
  rw [clearBody, setPositionBody_ok (hs.mono (by omega)), Ran.andThen_ok, frame_ok, Ran.onError_ok, Ran.andThen_ok,
    setPositionBody_ok]
  · simp [State.afterEvents, clearEvents, positionBytes, frameBytes]
  · exact State.AnswersOk.later (m := 4) (s := s) hs rfl rfl
  · exact State.AnswersOk.later (m := 2) (s := s) (hs.mono (by omega)) rfl rfl

theorem sendContrast_ok {h : Handle} {v : Byte} {s : State} (hs : s.AnswersOk 2) :
    sendContrast h v s =
      ⟨{ s.afterEvents (transferEvents s.cfg h true [0x21#8, 0x14#8, v, 0x20#8, 0x0C#8] (.cmdContrast v)) 2 with
        dc := some (dcLevel s.cfg true), contrast := some v }, .ok ()⟩ := by
  rw [sendContrast, frame_ok hs]
  rfl

theorem driveReset_ok {pins : PinMap} {level : Level} {s : State} (h : s.draw.answer = .ok) :
    driveReset pins level s =
      ⟨{ s.afterEvents [.write pins.reset level .reset .ok] 1 with rst := some level }, .ok ()⟩ := by
  rw [driveReset, attempt_ok h]

theorem driveReset_fails {pins : PinMap} {level : Level} {s : State} (h : s.draw.answer = .fail) :
    driveReset pins level s =
      ⟨{ s.afterEvents [.write pins.reset level .reset .fail] 1 with rst := none }, .error .transfer⟩ := by
  rw [driveReset, attempt_fail h]

theorem setOutputs_ok (ps : List Pin) {s : State} (h : s.AnswersOk ps.length) :
    setOutputs ps s = ⟨{ s.afterEvents (ps.map fun p => .pinMode p .ok) ps.length with
      outputs := ps.foldl (fun o p => insertPin p o) s.outputs }, .ok ()⟩ := by
  induction ps generalizing s with
  | nil => simp [setOutputs, Ran.done, State.afterEvents]
  | cons p ps ih =>
    rw [setOutputs, attempt_ok (h.draw (by simp)), Ran.andThen_ok, ih]
    · simp [State.afterEvents]
      omega
    · exact State.AnswersOk.later (m := 1) (s := s) (by rwa [List.length_cons, Nat.add_comm] at h) rfl rfl

/-- The loop stops at the first `PinMode` call that fails, with the pins before it in the set (R111). -/
theorem setOutputs_fails (ps : List Pin) {s : State} {k : Nat} {p : Pin} (hp : ps[k]? = some p) (h : s.FailsAfter k) :
    setOutputs ps s =
      ⟨{ s.afterEvents ((ps.take k).map (fun p => .pinMode p .ok) ++ [.pinMode p .fail]) (k + 1) with
        outputs := (ps.take k).foldl (fun o p => insertPin p o) s.outputs }, .error .busInit⟩ := by
  induction ps generalizing s k with
  | nil => simp at hp
  | cons q ps ih =>
    cases k with
    | zero =>
      obtain rfl : q = p := by simpa using hp
      have h0 : s.draw.answer = .fail := by simpa [State.draw] using h.2
      rw [setOutputs, attempt_fail h0, Ran.andThen_error]
      simp [State.afterEvents]
    | succ k =>
      rw [setOutputs, attempt_ok (h.1.draw (by omega)), Ran.andThen_ok, ih (k := k) (by simpa using hp)]
      · simp [State.afterEvents]
        omega
      · exact State.FailsAfter.later (m := 1) (s := s) (by rwa [Nat.add_comm] at h) rfl rfl

theorem configureBody_ok {pins : PinMap} {s : State} (h : s.AnswersOk 8) :
    configureBody pins s = ⟨{ s.afterEvents (configureEvents s.cfg pins) 8 with
      pins := some pins
      channel := some (s.drawAt (s.drawn + 1)).handle
      outputs := (pinOrder pins).foldl (fun o p => insertPin p o) s.outputs },
      .ok ⟨pins, (s.drawAt (s.drawn + 1)).handle⟩⟩ := by
  have h0 : ({ s with pins := some pins } : State).draw.answer = .ok := by
    simpa [State.draw, State.drawAt] using h 0 (by omega)
  unfold configureBody
  rw [attempt_ok h0, Ran.andThen_ok, attempt_ok, Ran.andThen_ok, setOutputs_ok]
  · simp [State.afterEvents, configureEvents, pinOrder, State.draw, State.drawAt]
  · exact State.AnswersOk.later (m := 2) (s := s) h rfl rfl
  · have := h 1 (by omega)
    simpa [State.draw, State.drawAt, State.afterEvents] using this

/-- The glyph transfers of the characters before `rest`, all of which have glyphs (R157). -/
theorem drawChars_append {h : Handle} {chars : List CharCode} {s : State} (hs : s.AnswersOk (2 * chars.length))
    (hg : ∀ c ∈ chars, glyph s.cfg.font c ≠ none) (rest : List CharCode) :
    drawChars h (chars ++ rest) s =
      drawChars h rest { s.afterEvents (glyphEvents s.cfg h chars) (2 * chars.length) with
        dc := if chars.isEmpty then s.dc else some (dcLevel s.cfg false) } := by
  induction chars generalizing s with
  | nil => simp [glyphEvents]
  | cons c cs ih =>
    obtain ⟨g, hgc⟩ := Option.ne_none_iff_exists'.1 (hg c (by simp))
    rw [List.cons_append, drawChars, hgc]
    simp only
    rw [frame_ok (hs.mono (by simp only [List.length_cons]; omega)), Ran.onError_ok, Ran.andThen_ok, ih]
    · congr 1
      simp [State.afterEvents, glyphEvents, hgc]
      omega
    · exact State.AnswersOk.later (m := 2) (s := s) (hs.mono (by simp; omega)) rfl rfl
    · exact fun x hx => hg x (by simp [hx])

/-! ### The set of output pins -/

theorem mem_insertPin {p q : Pin} {pins : List Pin} : p ∈ insertPin q pins ↔ p = q ∨ p ∈ pins := by
  induction pins with
  | nil => simp [insertPin]
  | cons x xs ih =>
    unfold insertPin
    split
    · simp
    · split
      · rename_i h
        subst h
        simp
      · simp [ih]
        tauto

theorem pinsWfFrom_mono {lo lo' : Nat} {pins : List Pin} (h : pinsWfFrom lo pins = true) (hl : lo' ≤ lo) :
    pinsWfFrom lo' pins = true := by
  cases pins with
  | nil => rfl
  | cons q qs =>
    simp only [pinsWfFrom, Bool.and_eq_true, decide_eq_true_eq] at h ⊢
    exact ⟨Nat.le_trans hl h.1, h.2⟩

/-- Inserting a pin keeps the canonical form (R34). -/
theorem pinsWfFrom_insertPin {lo : Nat} {pins : List Pin} (h : pinsWfFrom lo pins = true) {p : Pin} (hp : lo ≤ p) :
    pinsWfFrom lo (insertPin p pins) = true := by
  induction pins generalizing lo with
  | nil => simp [insertPin, pinsWfFrom, hp]
  | cons q qs ih =>
    simp only [pinsWfFrom, Bool.and_eq_true, decide_eq_true_eq] at h
    unfold insertPin
    split
    · rename_i hlt
      simp only [pinsWfFrom, Bool.and_eq_true, decide_eq_true_eq]
      exact ⟨hp, Nat.succ_le_of_lt hlt, h.2⟩
    · split
      · simpa [pinsWfFrom] using h
      · simp only [pinsWfFrom, Bool.and_eq_true, decide_eq_true_eq]
        exact ⟨h.1, ih h.2 (Nat.lt_of_le_of_ne (Nat.le_of_not_lt ‹¬p < q›) (fun e => ‹¬p = q› e.symm))⟩

end Sys2Proof.Machine
end

