-- ==== Sys2Proof/Laws/Panel.lean ====
section
/-! SUPPORT. The panel projection: what a data byte does, the canonical form of the frame memory along every event,
and the projection of a trace that grows. -/

namespace Sys2Proof.Machine

variable {wrap : Option (Segment × Bank)}

theorem Panel.cell_eq (p : Panel) (b : Bank) (s : Segment) : p.cell b s = Memory.read p.ram (cellAddress b s) := rfl

theorem Panel.dataByte_known {p : Panel} {c : Segment × Bank} (h : p.cursor = some c) (v : Byte) :
    p.dataByte wrap v =
      { p with ram := Memory.write (cellAddress c.2 c.1) v p.ram, cursor := nextCell wrap c } := by
  simp [Panel.dataByte, h]

theorem Panel.dataByte_unknown {p : Panel} (h : p.cursor = none) (v : Byte) :
    p.dataByte wrap v = { p with ram := [] } := by
  simp [Panel.dataByte, h]

theorem Panel.dataBytes_nil (p : Panel) : p.dataBytes wrap [] = p := rfl

theorem Panel.dataBytes_cons (p : Panel) (v : Byte) (bs : List Byte) :
    p.dataBytes wrap (v :: bs) = (p.dataByte wrap v).dataBytes wrap bs := rfl

theorem Panel.dataBytes_append (p : Panel) (as bs : List Byte) :
    p.dataBytes wrap (as ++ bs) = (p.dataBytes wrap as).dataBytes wrap bs := by
  simp [Panel.dataBytes, List.foldl_append]

/-- A data byte leaves every controller register but the cursor alone. -/
theorem Panel.dataByte_registers (p : Panel) (v : Byte) :
    (p.dataByte wrap v).mode = p.mode ∧ (p.dataByte wrap v).vop = p.vop ∧
      (p.dataByte wrap v).display = p.display ∧ (p.dataByte wrap v).seq = p.seq := by
  unfold Panel.dataByte
  split <;> simp

theorem Panel.dataBytes_registers (p : Panel) (bs : List Byte) :
    (p.dataBytes wrap bs).mode = p.mode ∧ (p.dataBytes wrap bs).vop = p.vop ∧
      (p.dataBytes wrap bs).display = p.display ∧ (p.dataBytes wrap bs).seq = p.seq := by
  induction bs generalizing p with
  | nil => simp [Panel.dataBytes_nil]
  | cons v bs ih =>
    rw [Panel.dataBytes_cons]
    obtain ⟨h1, h2, h3, h4⟩ := Panel.dataByte_registers (wrap := wrap) p v
    obtain ⟨g1, g2, g3, g4⟩ := ih (p.dataByte wrap v)
    exact ⟨g1.trans h1, g2.trans h2, g3.trans h3, g4.trans h4⟩

/-! ### The cursor inside one bank -/

theorem nextCell_inside {s : Segment} (b : Bank) (h : s.val < 83) :
    nextCell wrap (s, b) = some (⟨s.val + 1, by omega⟩, b) := by
  simp [nextCell, h]

theorem nextCell_bankEnd {s : Segment} {b : Bank} (h : s.val = 83) (hb : b.val < 5) :
    nextCell wrap (s, b) = some (⟨0, by omega⟩, ⟨b.val + 1, by omega⟩) := by
  simp [nextCell, h, hb]

theorem nextCell_frameEnd {s : Segment} {b : Bank} (h : s.val = 83) (hb : b.val = 5) :
    nextCell wrap (s, b) = wrap := by
  simp [nextCell, h, hb]

/-- The address of the next cell is one higher, until the last cell. -/
theorem nextCell_address {c : Segment × Bank} (h : cellAddress c.2 c.1 + 1 < frameBytes) :
    ∃ d, nextCell wrap c = some d ∧ cellAddress d.2 d.1 = cellAddress c.2 c.1 + 1 := by
  obtain ⟨s, b⟩ := c
  have hs := s.isLt
  have hb := b.isLt
  simp only [cellAddress, frameBytes] at h
  by_cases h1 : s.val < 83
  · exact ⟨_, nextCell_inside b h1, by simp [cellAddress]; omega⟩
  · have h83 : s.val = 83 := by omega
    have hb5 : b.val < 5 := by omega
    exact ⟨_, nextCell_bankEnd h83 hb5, by simp [cellAddress]; omega⟩

/-- A data transfer from a known cursor that does not pass the last cell: byte `k` lands `k` cells further on, every
other cell stays, and the cursor ends one past the last byte where that is still a cell. -/
theorem Panel.dataBytes_spec (bs : List Byte) {p : Panel} {c : Segment × Bank} (hc : p.cursor = some c)
    (hfit : cellAddress c.2 c.1 + bs.length ≤ frameBytes) :
    (∀ k, (hk : k < bs.length) →
        Memory.read (p.dataBytes wrap bs).ram (cellAddress c.2 c.1 + k) = some bs[k]) ∧
    (∀ a, a < cellAddress c.2 c.1 ∨ cellAddress c.2 c.1 + bs.length ≤ a →
        Memory.read (p.dataBytes wrap bs).ram a = Memory.read p.ram a) ∧
    (cellAddress c.2 c.1 + bs.length < frameBytes →
        ∃ d, (p.dataBytes wrap bs).cursor = some d ∧ cellAddress d.2 d.1 = cellAddress c.2 c.1 + bs.length) := by
  induction bs generalizing p c with
  | nil => exact ⟨fun k hk => absurd hk (by simp), fun a _ => rfl, fun _ => ⟨c, hc, rfl⟩⟩
  | cons v bs ih =>
    rw [Panel.dataBytes_cons, Panel.dataByte_known hc]
    simp only [List.length_cons] at hfit ⊢
    by_cases hlast : cellAddress c.2 c.1 + 1 < frameBytes
    · obtain ⟨d, hd, hda⟩ := nextCell_address (wrap := wrap) hlast
      obtain ⟨h1, h2, h3⟩ := ih
        (p := { p with ram := Memory.write (cellAddress c.2 c.1) v p.ram, cursor := nextCell wrap c }) (c := d) hd
        (by omega)
      refine ⟨fun k hk => ?_, fun a ha => ?_, fun hlt => ?_⟩
      · cases k with
        | zero =>
          rw [h2 _ (Or.inl (by omega))]
          simp
        | succ k =>
          have := h1 k (by omega)
          rw [hda] at this
          rw [show cellAddress c.2 c.1 + (k + 1) = cellAddress c.2 c.1 + 1 + k by omega]
          simpa using this
      · rw [h2 a (by omega)]
        exact Memory.read_write_other _ _ (by omega)
      · obtain ⟨e, he, hea⟩ := h3 (by omega)
        exact ⟨e, he, by omega⟩
    · have hbs : bs = [] := by
        cases bs with
        | nil => rfl
        | cons w ws => simp only [List.length_cons] at hfit; omega
      subst hbs
      refine ⟨fun k hk => ?_, fun a ha => ?_, fun hlt => absurd hlt (by simpa using hlast)⟩
      · have : k = 0 := by simpa using hk
        subst this
        simp [Panel.dataBytes_nil]
      · simp only [Panel.dataBytes_nil]
        exact Memory.read_write_other _ _ (by simp only [List.length_nil] at ha; omega)

/-- From an unknown cursor data makes every cell unknown, and the cursor stays unknown. -/
theorem Panel.dataBytes_unknown {p : Panel} (h : p.cursor = none) (v : Byte) (bs : List Byte) :
    (p.dataBytes wrap (v :: bs)).ram = [] ∧ (p.dataBytes wrap (v :: bs)).cursor = none := by
  induction bs generalizing p v with
  | nil => simp [Panel.dataBytes_cons, Panel.dataBytes_nil, Panel.dataByte_unknown h, h]
  | cons w bs ih =>
    rw [Panel.dataBytes_cons]
    exact ih (p := p.dataByte wrap v) (by simp [Panel.dataByte_unknown h, h]) w

/-! ### The canonical form -/

theorem Panel.dataByte_wf {p : Panel} (h : Memory.wf p.ram = true) (v : Byte) :
    Memory.wf (p.dataByte wrap v).ram = true := by
  unfold Panel.dataByte
  split
  · exact Memory.wf_write h v (cellAddress_lt _ _)
  · exact Memory.wf_nil

theorem Panel.dataBytes_wf {p : Panel} (h : Memory.wf p.ram = true) (bs : List Byte) :
    Memory.wf (p.dataBytes wrap bs).ram = true := by
  induction bs generalizing p with
  | nil => exact h
  | cons v bs ih => exact ih (Panel.dataByte_wf h v)

theorem forgetPath_wf (n : Nat) (c : Option (Segment × Bank)) {m : Memory} (h : Memory.wf m = true) :
    Memory.wf (forgetPath wrap n c m) = true := by
  induction n generalizing c m with
  | zero => exact h
  | succ n ih =>
    cases c with
    | none => exact Memory.wf_nil
    | some c => exact ih _ (Memory.wf_forget h _)

/-- Every event keeps the canonical form of the frame memory. -/
theorem Panel.step_wf {p : Panel} (h : Memory.wf p.ram = true) (e : Event) :
    Memory.wf (p.step wrap e).ram = true := by
  cases e with
  | setupGpio a => exact h
  | setupChannel ce d c m a => exact h
  | pinMode q a => exact h
  | hold ms => exact h
  | write q l r a => cases l <;> cases r <;> cases a <;> first | exact h | exact Memory.wf_nil
  | serial ch bs k a =>
    cases a with
    | ok => cases k <;> first | exact h | exact Panel.dataBytes_wf h bs
    | fail =>
      simp only [Panel.step, Panel.serialFailed]
      split
      · exact h
      · simp only [Panel.dataFailed]
        split
        · exact forgetPath_wf _ _ h
        · exact Memory.wf_nil
  | wire op =>
    cases op with
    | setBank b => simp only [Panel.step, Panel.wire, Panel.setBank]; split <;> exact h
    | setSegment s => exact h
    | functionSetExtended => exact h
    | cmd0x14 => simp only [Panel.step, Panel.wire, Panel.cmd0x14]; split <;> exact h
    | setVop v => simp only [Panel.step, Panel.wire, Panel.setVop]; split <;> exact h
    | functionSetNormal => exact h
    | displayControlNormal => simp only [Panel.step, Panel.wire, Panel.displayControlNormal]; split <;> exact h
    | dataByte v => exact Panel.dataByte_wf h v
    | positionSequence b s => simp only [Panel.step, Panel.wire, Panel.positionSequence]; split <;> exact h
    | contrastSequence v => exact h
    | reserved b => exact h

theorem Panel.foldl_step_wf {p : Panel} (h : Memory.wf p.ram = true) (es : List Event) :
    Memory.wf (es.foldl (Panel.step wrap) p).ram = true := by
  induction es generalizing p with
  | nil => exact h
  | cons e es ih => exact ih (Panel.step_wf h e)

/-- The projection of a trace that one event is appended to. -/
theorem Panel.project_append (trace : List Event) (e : Event) :
    Panel.project wrap (trace ++ [e]) = (Panel.project wrap trace).step wrap e := by
  simp [Panel.project, List.foldl_append]

end Sys2Proof.Machine
end

