-- ==== Sys2Proof/Laws/PerInstr.lean ====
section
/-! SUPPORT. The family EncodeLength: how many bytes each instruction's spelling has (R83 to R92 on the wire, the layouts of
R95 at the host). -/

namespace Sys2Proof.Laws

/-- The number of bytes the tables give an instruction. -/
def EncodeLength.bytes : Instr → Nat
  | .setBank _ | .setSegment _ | .functionSetExtended | .cmd0x14 | .setVop _ | .functionSetNormal
  | .displayControlNormal | .dataByte _ => 1
  | .positionSequence _ _ => 2
  | .contrastSequence _ => 5
  | .init _ _ => 8
  | .configure _ => 7
  | .cmd bytes => 3 + bytes.length
  | .data bytes => 3 + bytes.length
  | .backlight _ => 2
  | .setpos _ _ => 3
  | .locate _ _ => 3
  | .cls => 1
  | .contrast _ => 2
  | .text _ _ chars => 5 + 4 * chars.length

def EncodeLength.Statement (i : Instr) : Prop := (encode i).length = EncodeLength.bytes i

theorem EncodeLength.setBank (bank : BitVec 3) : EncodeLength.Statement (.setBank bank) := rfl
theorem EncodeLength.setSegment (segment : BitVec 6) : EncodeLength.Statement (.setSegment segment) := rfl
theorem EncodeLength.functionSetExtended : EncodeLength.Statement .functionSetExtended := rfl
theorem EncodeLength.cmd0x14 : EncodeLength.Statement .cmd0x14 := rfl
theorem EncodeLength.setVop (value : Byte) : EncodeLength.Statement (.setVop value) := rfl
theorem EncodeLength.functionSetNormal : EncodeLength.Statement .functionSetNormal := rfl
theorem EncodeLength.displayControlNormal : EncodeLength.Statement .displayControlNormal := rfl
theorem EncodeLength.dataByte (pixels : Byte) : EncodeLength.Statement (.dataByte pixels) := rfl
theorem EncodeLength.positionSequence (bank : BitVec 3) (segment : BitVec 6) :
    EncodeLength.Statement (.positionSequence bank segment) := rfl
theorem EncodeLength.contrastSequence (value : Byte) : EncodeLength.Statement (.contrastSequence value) := rfl
theorem EncodeLength.init (pins : PinMap) (contrast : Byte) : EncodeLength.Statement (.init pins contrast) := rfl
theorem EncodeLength.configure (pins : PinMap) : EncodeLength.Statement (.configure pins) := rfl
theorem EncodeLength.cmd (bytes : List Byte) : EncodeLength.Statement (.cmd bytes) := by
  simp [EncodeLength.Statement, encode, EncodeLength.bytes, u16Bytes]
  omega
theorem EncodeLength.data (bytes : List Byte) : EncodeLength.Statement (.data bytes) := by
  simp [EncodeLength.Statement, encode, EncodeLength.bytes, u16Bytes]
  omega
theorem EncodeLength.backlight (on : Bool) : EncodeLength.Statement (.backlight on) := rfl
theorem EncodeLength.setpos (segment bank : Int) : EncodeLength.Statement (.setpos segment bank) := rfl
theorem EncodeLength.locate (row col : Int) : EncodeLength.Statement (.locate row col) := rfl
theorem EncodeLength.cls : EncodeLength.Statement .cls := rfl
theorem EncodeLength.contrast (value : Byte) : EncodeLength.Statement (.contrast value) := rfl
theorem EncodeLength.text (row col : Int) (chars : List CharCode) :
    EncodeLength.Statement (.text row col chars) := by
  have h : (chars.flatMap u32Bytes).length = 4 * chars.length := by
    induction chars with
    | nil => rfl
    | cons c cs ih =>
      rw [List.flatMap_cons, List.length_append, ih]
      simp [u32Bytes]
      omega
  simp only [EncodeLength.Statement, encode, EncodeLength.bytes, List.length_cons, List.length_append, h]
  simp [u16Bytes]
  omega

end Sys2Proof.Laws
end

