-- ==== Sys2Proof/Tests/Slice0.lean ====
section
/-! SUPPORT. Small tests of single operations against the worked examples and vectors of spec/95_test_vectors.md (each
test names its vector), the smoke tests of WellFormed, and the decoding of words written out from the encodings. -/

namespace Sys2Proof.Tests

open Sys2Proof.Machine

/-! ### Helpers -/

/-- FONT_T (spec/95_test_vectors.md §1). -/
def fontT : Font :=
  [(0x20, [0x00#8, 0x00#8, 0x00#8, 0x00#8, 0x00#8]), (0x41, [0x7E#8, 0x11#8, 0x11#8, 0x11#8, 0x7E#8]),
   (0x42, [0x7F#8, 0x49#8, 0x49#8, 0x49#8, 0x36#8]), (0x48, [0x7F#8, 0x08#8, 0x08#8, 0x08#8, 0x7F#8]),
   (0x49, [0x00#8, 0x41#8, 0x7F#8, 0x41#8, 0x00#8])]

def cfgT : Config :=
  { geometry := Geometry.panel84x48, font := fontT, spiMode := 3, wireBitOrder := .msbFirst, dcCommandLevel := .low,
    panelLastWrap := none }

/-- A backend that answers ok `n` times and then fails once. -/
def okThenFail (n : Nat) : List Draw :=
  List.replicate n { answer := .ok, handle := 7, holdExtra := 20 } ++ [{ answer := .fail, handle := 0, holdExtra := 0 }]

/-- Power-on with the test font, and a backend that answers ok `n` times. -/
def powerOn (n : Nat) : State := { State.reset with cfg := cfgT, script := okThenFail n }

/-- An initialized engine on the default pins with channel 7, its panel in normal mode with an empty known cursor. -/
def ready (n : Nat) : State :=
  { powerOn n with
    phase := .initialized, pins := some PinMap.default, channel := some 7, dc := some .low, rst := some .high,
    contrast := some 0xB0#8, lastPos := some (0, 0),
    panel := { Panel.powerOn with cursor := some (0, 0), mode := some .normal } }

def nextOf : Host.Outcome State Fault Refusal → Option State
  | .next s => some s
  | .fault _ => none
  | .refused _ => none

/-- A field of the next state. -/
def after {α : Type} (f : State → α) (i : Instr) (s : State) : Option α := (nextOf (exec i s)).map f

def handleT : Handle := ⟨PinMap.default, 7⟩

/-! ### WellFormed: one ill-formed term for each check -/

theorem test_wf_bank_reserved : (Instr.setBank 6#3).wellFormed = false := by decide
theorem test_wf_sequence_bank_reserved : (Instr.positionSequence 7#3 0#6).wellFormed = false := by decide
theorem test_wf_init_pin : (Instr.init { PinMap.default with clock := 256 } 0#8).wellFormed = false := by decide
theorem test_wf_pin_data : PinMap.spellable { PinMap.default with data := 256 } = false := by decide
theorem test_wf_pin_dc : PinMap.spellable { PinMap.default with dataCommand := 256 } = false := by decide
theorem test_wf_pin_reset : PinMap.spellable { PinMap.default with reset := 256 } = false := by decide
theorem test_wf_pin_backlight : PinMap.spellable { PinMap.default with backlight := 256 } = false := by decide
theorem test_wf_configure_pin : (Instr.configure { PinMap.default with chipEnable := 300 }).wellFormed = false := by
  decide
theorem test_wf_cmd_length : (Instr.cmd (List.replicate 65536 0#8)).wellFormed = false := by
  rw [Instr.wellFormed, List.length_replicate]; decide
theorem test_wf_data_length : (Instr.data (List.replicate 65536 0#8)).wellFormed = false := by
  rw [Instr.wellFormed, List.length_replicate]; decide
theorem test_wf_setpos_negative : (Instr.setpos (-1) 0).wellFormed = false := by decide
theorem test_wf_setpos_bank : (Instr.setpos 0 256).wellFormed = false := by decide
theorem test_wf_locate_row : (Instr.locate 256 0).wellFormed = false := by decide
theorem test_wf_locate_col : (Instr.locate 0 (-1)).wellFormed = false := by decide
theorem test_wf_text_row : (Instr.text 256 0 []).wellFormed = false := by decide
theorem test_wf_text_col : (Instr.text 0 (-2) []).wellFormed = false := by decide
theorem test_wf_text_length : (Instr.text 0 0 (List.replicate 65536 0)).wellFormed = false := by
  rw [Instr.wellFormed, List.length_replicate, Bool.and_eq_false_iff]; exact .inl (by decide)
theorem test_wf_text_code : (Instr.text 0 0 [4294967296]).wellFormed = false := by decide

/-! ### Decoding: words written out from the encodings -/

/-- V-DEC-1. -/
theorem test_decode_init : decode .host [0x01#8, 0x0B#8, 0x0A#8, 0x16#8, 0x18#8, 0x12#8, 0x08#8, 0xB0#8] =
    .ok (.init PinMap.default 0xB0#8, []) := by decide
/-- V-REF-3's bytes, under R95's layout of tag 0x02. -/
theorem test_decode_configure : decode .host [0x02#8, 0x0B#8, 0x0A#8, 0x16#8, 0x18#8, 0x12#8, 0x08#8] =
    .ok (.configure PinMap.default, []) := by decide
/-- R95, R96: n = 2, little-endian. -/
theorem test_decode_cmd : decode .host [0x03#8, 0x02#8, 0x00#8, 0x21#8, 0x0C#8] = .ok (.cmd [0x21#8, 0x0C#8], []) := by
  decide
/-- V-DEC-3. -/
theorem test_decode_data : decode .host [0x04#8, 0x03#8, 0x00#8, 0xAA#8, 0xBB#8, 0xCC#8] =
    .ok (.data [0xAA#8, 0xBB#8, 0xCC#8], []) := by decide
/-- V-BL-1. -/
theorem test_decode_backlight : decode .host [0x05#8, 0x01#8] = .ok (.backlight true, []) := by decide
/-- P3. -/
theorem test_decode_setpos : decode .host [0x06#8, 0x3C#8, 0x00#8] = .ok (.setpos 60 0, []) := by decide
/-- V-DEC-5. -/
theorem test_decode_locate : decode .host [0x07#8, 0x05#8, 0x0D#8, 0x08#8] = .ok (.locate 5 13, [0x08#8]) := by decide
theorem test_decode_cls : decode .host [0x08#8] = .ok (.cls, []) := by decide
/-- P3. -/
theorem test_decode_contrast : decode .host [0x09#8, 0x3F#8] = .ok (.contrast 0x3F#8, []) := by decide
/-- V-DEC-2. -/
theorem test_decode_text : decode .host
    [0x0A#8, 0x00#8, 0x00#8, 0x02#8, 0x00#8, 0x48#8, 0x00#8, 0x00#8, 0x00#8, 0x49#8, 0x00#8, 0x00#8, 0x00#8] =
    .ok (.text 0 0 [0x48, 0x49], []) := by decide
/-- R83: 10000 101. -/
theorem test_decode_setBank : decode (.command .idle) [0b10000101#8] = .ok (.setBank 5#3, []) := by decide
/-- R84: 01 010010. -/
theorem test_decode_setSegment : decode (.command .idle) [0b01010010#8] = .ok (.setSegment 18#6, []) := by decide
theorem test_decode_functionSetExtended :
    decode (.command .idle) [0b00100001#8] = .ok (.functionSetExtended, []) := by decide
theorem test_decode_cmd0x14 : decode (.command .extended) [0b00010100#8] = .ok (.cmd0x14, []) := by decide
/-- R89: any byte after 0x21, 0x14. -/
theorem test_decode_setVop : decode (.command .bias) [0b00100001#8] = .ok (.setVop 0x21#8, []) := by decide
theorem test_decode_functionSetNormal :
    decode (.command .idle) [0b00100000#8] = .ok (.functionSetNormal, []) := by decide
theorem test_decode_displayControlNormal :
    decode (.command .idle) [0b00001100#8] = .ok (.displayControlNormal, []) := by decide
/-- R92: in a data transfer 0x21 is pixels. -/
theorem test_decode_dataByte : decode .data [0x21#8, 0x22#8] = .ok (.dataByte 0x21#8, [0x22#8]) := by decide
/-- `locate(2,3)` → `[0x82, 0x52]` (R85). -/
theorem test_decode_positionSequence :
    decode (.command .idle) [0x82#8, 0x52#8] = .ok (.positionSequence 2#3 18#6, []) := by decide
/-- L1-1. -/
theorem test_decode_contrastSequence :
    decode (.command .idle) [0x21#8, 0x14#8, 0xB0#8, 0x20#8, 0x0C#8] = .ok (.contrastSequence 0xB0#8, []) := by decide
/-- R83, R93: 0x86 is reserved. -/
theorem test_decode_reserved_bank : decode (.command .idle) [0x86#8] = .error (.reservedCommand 0x86#8) := by decide
/-- V-REF-4 to V-REF-8. -/
theorem test_decode_rejects :
    decode .host [0x05#8, 0x02#8] = .error (.badBacklight 0x02#8) ∧
      decode .host [0x0B#8] = .error (.noSuchOperation 0x0B#8) ∧
      decode .host [0x00#8] = .error (.noSuchOperation 0x00#8) ∧
      decode .host [0x06#8, 0x05#8] = .error (.truncated 0x06#8) ∧
      decode .host [0x0A#8, 0x00#8, 0x00#8, 0x02#8, 0x00#8, 0x48#8, 0x00#8, 0x00#8] = .error (.truncated 0x0A#8) := by
  decide
/-- V-DEC-6. -/
theorem test_decode_stream :
    decodeStream [0x09#8, 0x3F#8, 0x0B#8] = ([.contrast 0x3F#8], some (.noSuchOperation 0x0B#8)) := by decide
/-- The opcode table's numbering: a descriptor's tag byte, one command byte, the two-byte row. -/
theorem test_table_words :
    decodeTableWord 8 0x0A = some (.text 0 0 []) ∧ decodeTableWord 8 0x83 = some (.setBank 3#3) ∧
      decodeTableWord 16 0x8252 = some (.positionSequence 2#3 18#6) ∧
      decodeTableWord 40 0x2114B0200C = some (.contrastSequence 0xB0#8) ∧
      decodeTableWord 8 0x00 = some (.dataByte 0x00#8) := by decide

/-! ### Host operations -/

/-- R111's example, and R34. -/
theorem test_configure_trace : after (·.trace) (.configure PinMap.default) (powerOn 8) =
    some [.setupGpio .ok, .setupChannel 8 10 11 3 .ok, .pinMode 11 .ok, .pinMode 10 .ok, .pinMode 22 .ok,
      .pinMode 24 .ok, .pinMode 18 .ok, .pinMode 8 .ok] := by decide
/-- V-INIT-4: the fourth PinMode fails. -/
theorem test_init_pinMode_fails :
    after (fun s => (s.outputs, s.channel, s.lastResult)) (.init PinMap.default 0xB0#8) (powerOn 5) =
      some ([10, 11, 22], some 7, some (.err .busInit)) := by decide
/-- V-INIT-1 and R212: the registers after INIT, and the number of events. -/
theorem test_init_registers :
    after (fun s => decide (s.phase = .initialized ∧ s.dc = some .low ∧ s.rst = some .high ∧ s.contrast = some 0xB0#8 ∧
        s.lastPos = some (0, 0) ∧ s.lastResult = some .ok ∧ s.trace.length = 19))
      (.init PinMap.default 0xB0#8) (powerOn 18) = some true := by decide
/-- V-CMD-1. -/
theorem test_cmd_trace : after (·.trace) (.cmd [0x0C#8]) (ready 2) =
    some [.write 22 .low .dc .ok, .serial 7 [0x0C#8] .cmdRaw .ok] := by decide
/-- V-CMD-3: the D/C write fails. -/
theorem test_cmd_dc_fails : after (fun s => (s.dc, s.trace, s.lastResult)) (.cmd [0x0C#8]) (ready 0) =
    some (none, [.write 22 .low .dc .fail], some (.err .transfer)) := by decide
/-- V-DAT-1. -/
theorem test_data_cells : after (fun s => (s.panel.ram, s.panel.cursor, s.lastPos)) (.data [0x01#8, 0x02#8]) (ready 2) =
    some ([(0, 0x01#8), (1, 0x02#8)], some (2, 0), some (0, 0)) := by decide
/-- V-DAT-6: the failed transfer makes the cells on its path unknown. -/
theorem test_data_fails :
    after (fun s => (s.panel.ram, s.panel.cursor, s.lastResult)) (.data [0xA0#8, 0xA1#8])
        { ready 1 with panel := { (ready 1).panel with ram := [(0, 9#8), (1, 9#8), (2, 9#8)] } } =
      some ([(2, 9#8)], none, some (.err .transfer)) := by decide
/-- V-BL-1. -/
theorem test_backlight_on : after (fun s => (s.trace, s.blPin, s.blOn)) (.backlight true) (ready 1) =
    some ([.write 18 .low .backlight .ok], some .low, some true) := by decide
/-- V-BL-3. -/
theorem test_backlight_fails : after (fun s => (s.blPin, s.blOn, s.lastResult)) (.backlight false) (ready 0) =
    some (none, none, some (.err .transfer)) := by decide
/-- V-POS-4: segment 64 sends segment 0's bytes, and the panel's cursor is unknown. -/
theorem test_setpos_alias : after (fun s => (s.trace, s.lastPos, s.panel.cursor)) (.setpos 64 0) (ready 2) =
    some ([.write 22 .low .dc .ok, .serial 7 [0x80#8, 0x40#8] (.cmdPos 64 0) .ok], some (64, 0), none) := by decide
/-- V-POS-8. -/
theorem test_setpos_negative : after (fun s => (s.trace, s.lastResult)) (.setpos (-1) 0) (ready 2) =
    some ([], some (.err .range)) := by decide
/-- V-LOC-7. -/
theorem test_locate_corner : after (·.trace) (.locate 5 13) (ready 2) =
    some [.write 22 .low .dc .ok, .serial 7 [0x85#8, 0x4E#8] (.cmdPos 78 5) .ok] := by decide
/-- V-LOC-8. -/
theorem test_locate_range : after (fun s => (s.trace, s.lastResult)) (.locate 0 14) (ready 2) =
    some ([], some (.err .range)) := by decide
/-- V-CLS-3: the data transfer fails. -/
theorem test_cls_data_fails : after (fun s => (s.trace.length, s.lastPos, s.lastResult)) .cls (ready 3) =
    some (4, none, some (.err .transfer)) := by decide
/-- V-CON-3. -/
theorem test_contrast : after (fun s => (s.trace, s.contrast, s.panel.vop)) (.contrast 0x3F#8) (ready 2) =
    some ([.write 22 .low .dc .ok, .serial 7 [0x21#8, 0x14#8, 0x3F#8, 0x20#8, 0x0C#8] (.cmdContrast 0x3F#8) .ok],
      some 0x3F#8, some 0x3F#8) := by decide
/-- V-CON-4. -/
theorem test_contrast_fails : after (fun s => (s.contrast, s.panel.mode)) (.contrast 0x3F#8) (ready 1) =
    some (none, none) := by decide
/-- V-TXT-2: an unsupported second character. -/
theorem test_text_unsupported : after (fun s => (s.trace, s.lastResult)) (.text 1 2 [0x41, 0x7E]) (ready 4) =
    some ([.write 22 .low .dc .ok, .serial 7 [0x81#8, 0x4C#8] (.cmdPos 12 1) .ok, .write 22 .high .dc .ok,
      .serial 7 [0x7E#8, 0x11#8, 0x11#8, 0x11#8, 0x7E#8, 0x00#8] (.dataGlyph 0x41) .ok],
      some (.err (.unsupportedCharacter 0x7E))) := by decide
/-- V-TXT-5: 13 fits one character only. -/
theorem test_text_range : after (fun s => (s.trace, s.lastResult)) (.text 0 13 [0x41, 0x42]) (ready 6) =
    some ([], some (.err .range)) := by decide

/-! ### Wire rows -/

/-- R83, R84, R85: the two bytes of a position in normal mode. -/
theorem test_setBank_setSegment :
    ((nextOf (exec (.setBank 2#3) (ready 0))).bind (after (·.panel.cursor) (.setSegment 18#6))) =
      some (some (18, 2)) := by decide
theorem test_functionSetExtended : after (·.panel.mode) .functionSetExtended (ready 0) = some (some .extended) := by
  decide
theorem test_cmd0x14 : ((nextOf (exec .functionSetExtended (ready 0))).bind (after (·.panel.seq) .cmd0x14)) =
    some .bias := by decide
theorem test_setVop : after (·.panel.vop) (.setVop 0x55#8)
    { ready 0 with panel := { (ready 0).panel with seq := .bias, mode := some .extended } } =
      some (some 0x55#8) := by decide
theorem test_functionSetNormal : after (·.panel.mode) .functionSetNormal (powerOn 0) = some (some .normal) := by decide
theorem test_displayControlNormal : after (·.panel.display) .displayControlNormal (ready 0) =
    some (some .normal) := by decide
/-- R54, R55: the last segment of a bank. -/
theorem test_dataByte : after (fun s => (s.panel.ram, s.panel.cursor)) (.dataByte 0xEE#8)
    { ready 0 with panel := { (ready 0).panel with cursor := some (83, 0) } } =
      some ([(83, 0xEE#8)], some (0, 1)) := by decide
theorem test_positionSequence : after (·.panel.cursor) (.positionSequence 5#3 60#6) (ready 0) =
    some (some (60, 5)) := by decide
theorem test_contrastSequence : after (fun s => (s.panel.mode, s.panel.vop, s.panel.display)) (.contrastSequence 7#8)
    (powerOn 0) = some (some .normal, some 7#8, some .normal) := by decide

/-! ### Steps -/

/-- P6: the first operation is not INIT. -/
theorem test_step_refused :
    ((nextOf (step ((powerOn 0).load [0x09#8, 0x10#8]))).map fun s => (s.refused, s.lastResult, s.pc, s.trace)) =
      some (true, some (.refused .notInitialized), 0, []) := by decide
/-- V-REF-3. -/
theorem test_step_configure :
    ((nextOf (step ((ready 9).load [0x02#8, 0x0B#8, 0x0A#8, 0x16#8, 0x18#8, 0x12#8, 0x08#8]))).map
      fun s => (s.refused, s.lastResult, s.trace)) = some (true, some (.refused .internal), []) := by decide
/-- V-DEC-5: a stream of two descriptors, one step each. -/
theorem test_step_stream :
    ((nextOf (step ((ready 2).load [0x07#8, 0x05#8, 0x0D#8, 0x08#8]))).map fun s => (s.pc, s.prog, s.ended)) =
      some (1, [.bytes [0x07#8, 0x05#8, 0x0D#8], .bytes [0x08#8]], false) := by decide
/-- R193: a font with an entry of four bytes. -/
theorem test_step_bad_font :
    ((nextOf (step { (ready 2).load [0x08#8] with cfg := { cfgT with font := [(0x41, [0#8, 0#8, 0#8, 0#8])] } })).map
      fun s => (s.lastResult, s.trace)) = some (some (.refused .badConfiguration), []) := by decide
/-- R98: an empty stream is no operation, so the one after it is issued next (log entry 8). -/
theorem test_step_empty_item :
    ((nextOf (step ((ready 2).startRun [.bytes [], .op .cls]))).map fun s => (s.prog, s.pc, s.refused, s.ended)) =
      some ([.op .cls], 0, false, false) := by decide

/-! ### The assembler syntax -/

/-- P1, with a comment: its three operations. -/
theorem test_assemble_program : assemble
    [0x69, 0x6E, 0x69, 0x74, 0x20, 0x3B, 0x78, 0xA, 0x62, 0x61, 0x63, 0x6B, 0x6C, 0x69, 0x67, 0x68, 0x74, 0x20,
      0x6F, 0x6E, 0xA, 0x74, 0x65, 0x78, 0x74, 0x20, 0x30, 0x2C, 0x20, 0x30, 0x2C, 0x20, 0x22, 0x48, 0x49, 0x22] =
    some [.init PinMap.default 0xB0#8, .backlight true, .text 0 0 [0x48, 0x49]] := by decide
/-- The escapes of R100. -/
theorem test_assemble_escapes : assemble
    [0x74, 0x65, 0x78, 0x74, 0x20, 0x31, 0x2C, 0x32, 0x2C, 0x22, 0x41, 0x5C, 0x75, 0x7B, 0x37, 0x45, 0x7D, 0x5C,
      0x22, 0x22] =
    some [.text 1 2 [0x41, 0x7E, 0x22]] := by decide
/-- V-INIT-10. -/
theorem test_assemble_init : assemble
    [0x69, 0x6E, 0x69, 0x74, 0x20, 0x63, 0x6C, 0x6B, 0x3D, 0x32, 0x2C, 0x20, 0x64, 0x69, 0x6E, 0x3D, 0x33, 0x2C,
      0x20, 0x64, 0x63, 0x3D, 0x34, 0x2C, 0x20, 0x72, 0x73, 0x74, 0x3D, 0x35, 0x2C, 0x20, 0x62, 0x6C, 0x3D,
      0x36, 0x2C, 0x20, 0x63, 0x65, 0x3D, 0x37, 0x2C, 0x20, 0x63, 0x6F, 0x6E, 0x74, 0x72, 0x61, 0x73, 0x74,
      0x3D, 0x30, 0x78, 0x33, 0x46] =
    some [.init { clock := 2, data := 3, dataCommand := 4, reset := 5, backlight := 6, chipEnable := 7 } 0x3F#8] := by decide
/-- R100: `init , din=3` as the syntax is written, and `init din=3` (log entry 20). -/
theorem test_assemble_init_no_clk :
    assemble [0x69, 0x6E, 0x69, 0x74, 0x20, 0x2C, 0x20, 0x64, 0x69, 0x6E, 0x3D, 0x33] =
        some [.init { PinMap.default with data := 3 } 0xB0#8] ∧
      assemble [0x69, 0x6E, 0x69, 0x74, 0x20, 0x64, 0x69, 0x6E, 0x3D, 0x33] =
        some [.init { PinMap.default with data := 3 } 0xB0#8] := by decide
/-- `contrast 256` is none of the syntax. -/
theorem test_assemble_contrast_range : assemble
    [0x63, 0x6F, 0x6E, 0x74, 0x72, 0x61, 0x73, 0x74, 0x20, 0x32, 0x35, 0x36] = none := by decide

/-! ### Witnesses: a state and operands that meet all hypotheses of each statement, for each of its clauses

A name ends in the statement's name, and where the statement has several clauses in the clause. -/

/-- A program about to issue one item, on an initialized engine. -/
def issuing (issue : Issue) (n : Nat) : State := (ready n).startRun [issue]

/-- The panel in normal mode at a cell. -/
def panelAt (segment : Segment) (bank : Bank) : Panel :=
  { Panel.powerOn with cursor := some (segment, bank), mode := some .normal }

theorem ready_ready : (ready 0).Ready handleT ∧ (ready 1).Ready handleT ∧ (ready 2).Ready handleT ∧
    (ready 6).Ready handleT ∧ (ready 30).Ready handleT := by
  refine ⟨?_, ?_, ?_, ?_, ?_⟩ <;> exact ⟨rfl, rfl, rfl⟩

theorem ready_answers : (ready 1).AnswersOk 1 ∧ (ready 2).AnswersOk 2 ∧ (ready 6).AnswersOk 6 ∧
    (ready 30).AnswersOk 30 ∧ (ready 0).FailsAfter 0 ∧ (ready 1).FailsAfter 1 := by
  unfold State.FailsAfter State.AnswersOk
  decide

theorem powerOn_answers : (powerOn 18).AnswersOk 18 ∧ (powerOn 8).AnswersOk 8 ∧
    (powerOn 18).phase = .uninitialized ∧ (powerOn 8).phase = .uninitialized := by
  unfold State.AnswersOk
  decide

/-- A state with the invariant, and its step; `NoStepStopsUnderTheInvariant` has the same hypothesis. -/
theorem witness_EveryStepKeepsTheInvariant :
    ((powerOn 18).startRun [.op (.init PinMap.default 0xB0#8)]).Inv ∧
      (nextOf (step ((powerOn 18).startRun [.op (.init PinMap.default 0xB0#8)]))).isSome = true :=
  ⟨⟨rfl, by decide, by decide, by decide, by decide, by decide,
    fun _ h => absurd (show _ ∈ ([] : List Event) from h) List.not_mem_nil,
    fun _ h => absurd (show none = some _ from h) (by simp)⟩, by decide⟩

theorem witness_EachCallAppendsOneEvent :
    (nextOf (step (issuing (.op (.cmd [0x0C#8])) 2))).map (·.drawn) = some 2 := by decide

theorem witness_RefusedMarkIsSticky :
    (nextOf (step { issuing (.op .cls) 6 with refused := true })).map (·.refused) = some true := by decide

theorem witness_StepRunsTheDecodedDescriptor_ok :
    decodeDescriptor [0x05#8, 0x01#8, 0x08#8] = .ok (.backlight true, [0x08#8]) ∧
      (issuing (.bytes [0x05#8, 0x01#8, 0x08#8]) 1).cfg.accepted = true ∧
      after (·.lastResult) (.backlight true)
        ((issuing (.bytes [0x05#8, 0x01#8, 0x08#8]) 1).splitProgram [0x05#8, 0x01#8, 0x08#8] [0x08#8]) =
          some (some .ok) := by decide

theorem witness_StepRunsTheDecodedDescriptor_ended :
    after (·.lastResult) (.backlight true)
      ((issuing (.bytes [0x05#8, 0x01#8]) 0).splitProgram [0x05#8, 0x01#8] []) =
        some (some (.err .transfer)) := by decide

theorem witness_StepRunsTheAbstractOperation :
    (issuing (.op (.setpos (-1) 0)) 0).cfg.accepted = true ∧
      after (·.lastResult) (.setpos (-1) 0) (issuing (.op (.setpos (-1) 0)) 0) = some (some (.err .range)) ∧
      after (·.lastResult) (.locate 5 13) (issuing (.op (.locate 5 13)) 2) = some (some .ok) := by decide

theorem witness_StepRunsTheWaitingTransfer :
    decode (.command .idle) [0x20#8, 0x0C#8] = .ok (.functionSetNormal, [0x0C#8]) ∧
      (ready 0).panel.seq = .idle ∧
      after (·.busIn) .functionSetNormal { ready 0 with busIn := [⟨.command, [0x0C#8]⟩] } =
        some [⟨.command, [0x0C#8]⟩] := by decide

theorem witness_EndedRunGivesWayToTheNext :
    State.reset.busIn = [] ∧ State.reset.prog.length ≤ State.reset.pc ∧ State.reset.runs = [] ∧
      ({ ready 0 with ended := true, runs := [[.op .cls]] } : State).busIn = [] := by decide

theorem witness_UninitializedEngineRefuses : (powerOn 0).phase = .uninitialized ∧ Instr.cls.layer = .host := by decide

theorem witness_InitializedEngineRefusesInit : (ready 0).phase = .initialized := by decide

theorem witness_BadDescriptorsAreRefused :
    (issuing (.bytes [0x02#8]) 0).busIn = [] ∧ (issuing (.bytes [0x02#8]) 0).ended = false ∧
      (issuing (.bytes [0x02#8]) 0).cfg.accepted = true ∧
      (issuing (.bytes [0x02#8]) 0).prog[0]? = some (.bytes [0x02#8]) ∧
      0x0B#8 ≤ 0x0B#8 ∧ 0x0B#8 ≤ 0xFF#8 ∧ 0x02#8 ≠ 0x00#8 ∧ 0x02#8 ≠ 0x01#8 ∧
      [0x06#8, 0x05#8].length < descriptorLength [0x06#8, 0x05#8] ∧
      [0x04#8, 0x00#8, 0x01#8].length < descriptorLength [0x04#8, 0x00#8, 0x01#8] := by decide

theorem witness_HostConfigureIsRefused :
    (issuing (.op (.configure PinMap.default)) 0).prog[0]? = some (.op (.configure PinMap.default)) ∧
      (issuing (.op (.configure PinMap.default)) 0).cfg.accepted = true ∧
      (issuing (.op (.configure PinMap.default)) 0).phase = .initialized := by decide

/-- The same before initialization. -/
theorem witness_HostConfigureIsRefused_uninitialized :
    ((powerOn 0).startRun [.op (.configure PinMap.default)]).prog[0]? = some (.op (.configure PinMap.default)) ∧
      ((powerOn 0).startRun [.op (.configure PinMap.default)]).cfg.accepted = true ∧
      ((powerOn 0).startRun [.op (.configure PinMap.default)]).phase = .uninitialized := by decide

theorem witness_BadConfigurationIsRefused :
    (Geometry.exact { width := 84, height := 48, bankHeight := 7 } = false) ∧
      ((0x41, [0#8, 0#8, 0#8, 0#8]) : CharCode × List Byte) ∈ [((0x41, [0#8, 0#8, 0#8, 0#8]) : CharCode × List Byte)] ∧
      [0#8, 0#8, 0#8, 0#8].length ≠ 5 ∧ (issuing (.op .cls) 0).prog[0]? = some (.op .cls) := by decide

theorem witness_RawWrites : (ready 2).Ready handleT ∧ (ready 2).AnswersOk 2 ∧ (ready 0).FailsAfter 0 ∧
    (ready 1).FailsAfter 1 := ⟨⟨rfl, rfl, rfl⟩, ready_answers.2.1, ready_answers.2.2.2.2.1, ready_answers.2.2.2.2.2⟩

theorem witness_BacklightFollowsItsPseudocode : (ready 1).Ready handleT ∧ (ready 1).AnswersOk 1 ∧
    (ready 0).FailsAfter 0 := ⟨⟨rfl, rfl, rfl⟩, ready_answers.1, ready_answers.2.2.2.2.1⟩

theorem powerOn_fails : ∀ n ∈ List.range 18, (powerOn n).FailsAfter n := by
  unfold State.FailsAfter State.AnswersOk
  decide

theorem witness_ConfigureCompletes : (∀ n, (powerOn n).phase = .uninitialized) ∧ (powerOn 8).AnswersOk 8 ∧
    (powerOn 0).FailsAfter 0 ∧ (powerOn 1).FailsAfter 1 ∧ (powerOn 2).FailsAfter (2 + 0) ∧
    (powerOn 7).FailsAfter (2 + 5) ∧ ([11, 10, 22, 24, 18, 8] : List Pin)[0]? = some 11 ∧
    ([11, 10, 22, 24, 18, 8] : List Pin)[5]? = some 8 :=
  ⟨fun _ => rfl, powerOn_answers.2.1, powerOn_fails 0 (by decide), powerOn_fails 1 (by decide),
    powerOn_fails 2 (by decide), powerOn_fails 7 (by decide), rfl, rfl⟩

theorem witness_PositionBytesAlias : (64 : Segment).val = (0 : Segment).val + 64 ∧
    (83 : Segment).val = (19 : Segment).val + 64 := by decide

theorem witness_SetPositionFollowsItsPseudocode : (ready 2).Ready handleT ∧ (ready 2).AnswersOk 2 ∧
    (ready 0).FailsAfter 0 ∧ (ready 1).FailsAfter 1 ∧
    after (·.lastPos) (.setpos (83 : Segment).val (5 : Bank).val) (ready 2) = some (some (83, 5)) :=
  ⟨⟨rfl, rfl, rfl⟩, ready_answers.2.1, ready_answers.2.2.2.2.1, ready_answers.2.2.2.2.2, by decide⟩

theorem witness_LocateIsScaledSetPosition : (ready 2).Ready handleT ∧ (ready 2).AnswersOk 2 ∧
    (78 : Segment).val = 6 * (13 : Fin 14).val := ⟨⟨rfl, rfl, rfl⟩, ready_answers.2.1, by decide⟩

theorem witness_RangeErrorsPrecedeEveryCall : (ready 0).phase = .initialized ∧
    (∀ p ∈ [((84, 0) : Int × Int), (0, 6), (-1, 0), (0, -1)], ¬ (0 ≤ p.1 ∧ p.1 ≤ 83 ∧ 0 ≤ p.2 ∧ p.2 ≤ 5)) ∧
    (∀ p ∈ [((6, 0) : Int × Int), (0, 14), (-1, 0), (0, -1)], ¬ (0 ≤ p.1 ∧ p.1 ≤ 5 ∧ 0 ≤ p.2 ∧ p.2 ≤ 13)) ∧
    (∀ p ∈ [((0, 13, 2) : Int × Int × Int), (0, 0, 15), (0, 14, 0), (6, 0, 1)],
      ¬ (0 ≤ p.1 ∧ p.1 ≤ 5 ∧ 0 ≤ p.2.1 ∧ p.2.1 ≤ 13 ∧ 6 * p.2.1 + 6 * p.2.2 ≤ 84)) := by decide

theorem witness_ClearScreen : (ready 6).Ready handleT ∧ (ready 6).AnswersOk 6 ∧
    (ready 6).panel.mode = some .normal ∧ (nextOf (exec .cls (ready 6))).isSome = true :=
  ⟨⟨rfl, rfl, rfl⟩, ready_answers.2.2.1, rfl, by decide⟩

theorem witness_InitCompletes : (powerOn 18).phase = .uninitialized ∧ (powerOn 18).AnswersOk 18 :=
  ⟨rfl, powerOn_answers.1⟩

/-- Every clause: the first call to fail is any of the eighteen. -/
theorem witness_InitFailuresFollowTheirPseudocode : ∀ n ∈ List.range 18,
    (powerOn n).phase = .uninitialized ∧ (powerOn n).FailsAfter n :=
  fun n hn => ⟨rfl, powerOn_fails n hn⟩

theorem witness_InitFromPowerOnReachesTheTable : cfgT.accepted = true ∧ cfgT.dcCommandLevel = .low ∧
    ({ State.reset with cfg := cfgT, script := okThenFail 18, prog := [.op (.init PinMap.default 0xB0#8)] } :
      State).AnswersOk 18 := by
  unfold State.AnswersOk
  decide

theorem witness_SetContrastFollowsItsPseudocode : (ready 2).Ready handleT ∧ (ready 2).AnswersOk 2 ∧
    (ready 0).FailsAfter 0 ∧ (ready 1).FailsAfter 1 :=
  ⟨⟨rfl, rfl, rfl⟩, ready_answers.2.1, ready_answers.2.2.2.2.1, ready_answers.2.2.2.2.2⟩

theorem witness_ComposedCommandsSendTheRawBytes :
    (nextOf (exec (.contrast 0x3F#8) (ready 1))).isSome = true ∧
      (nextOf (exec (.cmd [0x21#8, 0x14#8, 0x3F#8, 0x20#8, 0x0C#8]) (ready 1))).isSome = true ∧
      (nextOf (exec (.setpos (83 : Segment).val (5 : Bank).val) (ready 2))).isSome = true ∧
      (nextOf (exec (.cmd [0x85#8, 0x53#8]) (ready 2))).isSome = true := by decide

/-- One character at column 13, fourteen at column 0, and none. -/
theorem witness_DrawTextCompletes : (ready 30).Ready handleT ∧ (ready 30).AnswersOk (2 + 2 * 14) ∧
    (78 : Segment).val = 6 * (13 : Fin 14).val ∧ 6 * (13 : Fin 14).val + 6 * [0x41].length ≤ 84 ∧
    6 * (0 : Fin 14).val + 6 * (List.replicate 14 0x48).length ≤ 84 ∧
    (∀ c ∈ [0x41, 0x48], glyph (ready 30).cfg.font c ≠ none) :=
  ⟨⟨rfl, rfl, rfl⟩, ready_answers.2.2.2.1, by decide, by decide, by decide, by decide⟩

theorem witness_DrawTextStopsAtAnUnsupportedCharacter : (ready 30).Ready handleT ∧
    (ready 30).AnswersOk (2 + 2 * [0x41].length) ∧ (72 : Segment).val = 6 * (12 : Fin 14).val ∧
    6 * (12 : Fin 14).val + 6 * ([0x41].length + 1 + 0) ≤ 84 ∧ glyph (ready 30).cfg.font 0x41 ≠ none ∧
    glyph (ready 30).cfg.font 0x7E = none :=
  ⟨⟨rfl, rfl, rfl⟩, fun k hk => ready_answers.2.2.2.1 k (by simp at hk; omega), by decide, by decide, by decide,
    by decide⟩

/-- Three characters at column 10, the cursor ending at segment 78, and four, which reach the end of the row. -/
theorem witness_DrawnTextFillsItsCells : (ready 30).Ready handleT ∧ (ready 30).panel.mode = some .normal ∧
    6 * (10 : Fin 14).val + 6 * [0x41, 0x42, 0x48, 0x49].length ≤ 84 ∧
    (78 : Segment).val = 6 * ((10 : Fin 14).val + [0x41, 0x42, 0x48].length) ∧
    (∀ c ∈ [0x41, 0x42, 0x48, 0x49], (glyph (ready 30).cfg.font c).map (·.length) = some 5) ∧
    after (·.lastResult) (.text 5 10 [0x41, 0x42, 0x48, 0x49]) (ready 30) = some (some .ok) :=
  ⟨⟨rfl, rfl, rfl⟩, by decide, by decide, by decide, by decide, by decide⟩

theorem witness_ComposerStopsAtUnsupportedCharacters : (∀ c g, glyph fontT c = some g → g.length = 5) ∧
    (∀ c ∈ [0x41], glyph fontT c ≠ none) ∧ glyph fontT 0x7E = none := by
  refine ⟨fun c g h => ?_, by decide, by decide⟩
  simp only [glyph, fontT, List.lookup] at h
  repeat' split at h
  all_goals first | (cases h; rfl) | cases h

/-- V-GLY-5, V-GLY-7. -/
theorem test_compose : compose fontT [0x48, 0x49] =
      ([0x7F#8, 0x08#8, 0x08#8, 0x08#8, 0x7F#8, 0x00#8, 0x00#8, 0x41#8, 0x7F#8, 0x41#8, 0x00#8, 0x00#8], none) ∧
    compose fontT [0x41, 0x7E, 0x42] = ([0x7E#8, 0x11#8, 0x11#8, 0x11#8, 0x7E#8, 0x00#8], some 0x7E) := by decide

theorem witness_ErrorsArePrecise :
    after (·.lastResult) (.init PinMap.default 0xB0#8) (powerOn 0) = some (some (.err .busInit)) ∧
      after (·.lastResult) (.data []) (ready 0) = some (some (.err .transfer)) ∧
      after (·.lastResult) (.text 0 0 [0x7E]) (ready 2) = some (some (.err (.unsupportedCharacter 0x7E))) := by decide

theorem witness_TransferErrorForgetsRegisters_operations :
    ∀ i ∈ [Instr.setpos 83 5, .locate 5 13, .cls, .text 0 0 [0x41], .contrast 0#8, .backlight true],
      after (·.lastResult) i (ready 0) = some (some (.err .transfer)) := by decide

theorem witness_TransferErrorForgetsRegisters_events :
    after (·.trace.getLast?) (.cmd []) (ready 0) = some (some (.write 22 .low .dc .fail)) ∧
      after (fun s => (s.lastResult, s.trace.getLast?)) (.init PinMap.default 0#8) (powerOn 8) =
        some (some (.err .transfer), some (.write 24 .low .reset .fail)) ∧
      after (·.trace.getLast?) (.contrast 1#8) (ready 1) =
        some (some (.serial 7 [0x21#8, 0x14#8, 1#8, 0x20#8, 0x0C#8] (.cmdContrast 1#8) .fail)) ∧
      after (·.trace.getLast?) (.setpos 0 0) (ready 1) =
        some (some (.serial 7 [0x80#8, 0x40#8] (.cmdPos 0 0) .fail)) ∧
      after (fun s => (s.trace.getLast?.map Event.answer)) .cls (ready 3) = some (some (some .fail)) := by decide

/-- INIT's D/C write fails in the contrast transfer, before any serial call, and in the first clear-screen transfer. -/
theorem witness_TransferErrorForgetsRegisters_init :
    after (fun s => (s.lastResult, s.contrast)) (.init PinMap.default 1#8) (powerOn 10) =
        some (some (.err .transfer), none) ∧
      after (fun s => s.trace.drop 8) (.init PinMap.default 1#8) (powerOn 10) =
        some [.write 24 .low .reset .ok, .hold 120, .write 24 .high .reset .ok, .write 22 .low .dc .fail] ∧
      after (fun s => (s.lastResult, s.contrast, s.lastPos)) (.init PinMap.default 1#8) (powerOn 12) =
        some (some (.err .transfer), some 1#8, none) ∧
      after (fun s => s.trace.drop 12) (.init PinMap.default 1#8) (powerOn 12) =
        some [.serial 7 [0x21#8, 0x14#8, 1#8, 0x20#8, 0x0C#8] (.cmdContrast 1#8) .ok, .write 22 .low .dc .fail] := by
  decide

theorem witness_PhaseChangesOnlyByInit :
    after (·.phase) (.init PinMap.default 0#8) (powerOn 18) = some .initialized ∧
      (nextOf (step (issuing (.op .cls) 6))).isSome = true ∧ (issuing (.op .cls) 6).phase = .initialized := by decide

/-- One initialized state in which every host operation answers a next state: the hypothesis of the frame statements. -/
theorem witness_frames : ∀ i ∈ [Instr.cmd [], .data [1#8], .backlight false, .setpos 1 1, .locate 1 1, .cls, .contrast 2#8,
    .text 0 0 [0x41], .init PinMap.default 0#8, .configure PinMap.default],
      (nextOf (exec i (ready 1))).isSome = true ∧ i.layer = .host := by decide

theorem witness_frames_boot : ∀ i ∈ [Instr.init PinMap.default 0#8, .configure PinMap.default],
    (nextOf (exec i (powerOn 8))).isSome = true ∧ i.layer = .host := by decide

/-- The clauses of R55: inside a bank, at its end, at the frame's end; and the unknown cursor. -/
theorem witness_DataByteWritesAndAdvances : (panelAt 82 0).cursor = some (82, 0) ∧
    (83 : Segment).val = (82 : Segment).val + 1 ∧ (panelAt 83 4).cursor = some (83, 4) ∧
    (5 : Bank).val = (4 : Bank).val + 1 ∧ (panelAt 83 5).cursor = some (83, 5) ∧ Panel.powerOn.cursor = none := by decide

theorem witness_DataByteSetsEightPixels : (panelAt 83 5).cursor = some (83, 5) ∧ (47 : Fin 48).val / 8 = (5 : Bank).val ∧
    ¬ ((39 : Fin 48).val / 8 = (5 : Bank).val) := by decide

/-- One byte at the last cell. -/
theorem witness_RawDataLandsAtTheCursor :
    ({ ready 2 with panel := panelAt 83 5 } : State).Ready handleT ∧ cellAddress 5 83 + [0xFF#8].length ≤ 504 ∧
      after (·.panel.ram) (.data [0xFF#8]) { ready 2 with panel := panelAt 83 5 } = some [(503, 0xFF#8)] :=
  ⟨⟨rfl, rfl, rfl⟩, by decide, by decide⟩

theorem witness_CommandTransfersSetThePanelRegisters : (panelAt 0 0).mode = some .normal ∧ (63 : Segment).val ≤ 63 ∧
    64 ≤ (64 : Segment).val ∧ Panel.powerOn.mode ≠ some .normal := by decide

/-- A path of two positions from (82, 5) stays inside the frame; one of three leaves it. -/
theorem witness_FailedTransfersForget :
    Memory.wf (panelAt 82 5).ram = true ∧ Kind.cmdRaw.isCommand = true ∧ Kind.dataRaw.isCommand = false ∧
      Panel.powerOn.cursor = none ∧
      ∃ path : Nat → Option (Segment × Bank), path 0 = some (82, 5) ∧
        (∀ k, path (k + 1) = (path k).bind (nextCell none)) ∧ (∀ k, k < 2 → path k ≠ none) ∧ path 2 = none :=
  ⟨rfl, rfl, rfl, rfl, fun k => Nat.rec (some (82, 5)) (fun _ c => c.bind (nextCell none)) k, rfl, fun _ => rfl,
    by decide, by decide⟩

theorem witness_ResetPulseForgetsThePanel : Level.low = .low ∧ Answer.fail = .fail := by decide

theorem witness_WireRowsReachThePanel : (5#3).toNat ≤ 5 ∧ (panelAt 0 0).mode = some .normal ∧
    ({ panelAt 0 0 with seq := .bank 5 } : Panel).seq = .bank 5 ∧
    ({ panelAt 0 0 with seq := .extended } : Panel).seq = .extended ∧
    ({ panelAt 0 0 with seq := .bias } : Panel).seq = .bias := by decide

theorem witness_MisplacedCommandBytesAreUnknown : 6 ≤ (6#3).toNat ∧ (5#3).toNat ≤ 5 ∧
    Panel.powerOn.seq ≠ .extended ∧ Panel.powerOn.seq ≠ .bias ∧ Panel.powerOn.mode ≠ some .normal ∧
    (∀ b, Panel.powerOn.seq ≠ .bank b) := by decide

/-- A waiting byte of no row: `0x86`, a reserved bank. -/
theorem witness_MisplacedCommandBytesAreUnknown_step :
    ({ ready 0 with busIn := [⟨.command, [0x86#8, 0x20#8]⟩] } : State).panel.seq ≠ .bias ∧
      ¬ (0x80 ≤ (0x86#8).toNat ∧ (0x86#8).toNat ≤ 0x85) ∧ ¬ (0x40 ≤ (0x86#8).toNat ∧ (0x86#8).toNat ≤ 0x7F) ∧
      0x86#8 ∉ [0x21#8, 0x14#8, 0x20#8, 0x0C#8] ∧
      (nextOf (step { ready 0 with busIn := [⟨.command, [0x86#8, 0x20#8]⟩] })).map
        (fun s => (s.busIn, s.trace, s.panel.mode)) =
          some ([⟨.command, [0x20#8]⟩], [.wire (.reserved 0x86#8)], none) := by decide

theorem witness_EngineTransfersAreWireRows : (63 : Segment).val ≤ 63 ∧ [0x00#8] ≠ [] := by decide

theorem witness_DecodeOfEncodeIsTheInstruction :
    (Instr.text 255 255 [4294967295]).wellFormed = true ∧ (Instr.setBank 5#3).wellFormed = true := by decide

theorem witness_StreamsDecodeToTheirOperations :
    ∀ i ∈ [Instr.init PinMap.default 0xB0#8, .text 0 0 [0x48, 0x49], .cls], i.wellFormed = true ∧ i.layer = .host := by decide

theorem witness_DescriptorsHaveOneMeaning : decode .host [0x05#8, 0x00#8, 0x08#8] = .ok (.backlight false, [0x08#8]) := by
  decide

theorem witness_AssemblerFollowsItsSyntax : 255 < 256 ∧ 256 ≤ 256 := by decide

end Sys2Proof.Tests
end

/-! ### The closure principle for whole instructions

A property of the state that survives every move of the engine survives every instruction, whatever the backend
answers: the last step of INIT, the ending of an operation and the wire rows join the moves of `BootStable`. -/

namespace Sys2Proof.Machine

/-- A property that survives every move of every instruction. -/
structure ExecStable (P : State → Prop) : Prop extends BootStable P where
  initialized : ∀ s, P s → P { s with phase := .initialized }
  finish : ∀ s res, P s → P (s.finish res)
  refuse : ∀ s r, P s → P (s.refuse r)
  wire : ∀ s op, P s → P (s.emit (.wire op))

/-- INIT (R150) asks for its last step, to the initialized phase, beside the moves of `BootStable`. -/
theorem initBody_keeps {P : State → Prop} (hP : BootStable P) (hphase : ∀ s, P s → P { s with phase := .initialized })
    (pins : PinMap) (contrast : Byte) (s : State) (hs : P s) : P (initBody pins contrast s).st :=
  Ran.andThen_keeps (configureBody_keeps hP pins s hs) fun h t ht =>
    Ran.andThen_keeps (driveReset_keeps hP pins .low t ht) fun _ u hu =>
      Ran.andThen_keeps (driveReset_keeps hP pins .high _ (hP.hold u hu)) fun _ v hv =>
        Ran.andThen_keeps (sendContrast_keeps hP.toEngineStable h contrast v hv) fun _ w hw =>
          Ran.andThen_keeps (clearBody_keeps hP.toEngineStable h w hw) fun _ x hx => hphase x hx

variable {P : State → Prop} {s t : State}

/-- An operation keeps what its body, a refusal and an ending keep. -/
theorem operate_keeps {α β : Type} {check : Except Error β} {read : State → Except Fault α}
    {body : β → α → State → Ran Unit} (hfinish : ∀ s res, P s → P (s.finish res))
    (hrefuse : ∀ s r, P s → P (s.refuse r)) (hbody : ∀ b a s, P s → P (body b a s).st) (hs : P s)
    (h : operate check read body s = .next t) : P t := by
  rcases operate_cases h with ⟨-, rfl⟩ | ⟨-, e, -, rfl⟩ | ⟨-, b, a, -, -, rfl⟩
  · exact hrefuse s _ hs
  · exact hfinish s _ hs
  · exact hfinish _ _ (hbody b a s hs)

theorem exec_init_keeps (hP : ExecStable P) {pins : PinMap} {contrast : Byte} (hs : P s)
    (h : exec (.init pins contrast) s = .next t) : P t := by
  cases hp : s.phase with
  | uninitialized =>
    rw [exec_init_uninitialized hp] at h
    cases h
    exact hP.finish _ _ (initBody_keeps hP.toBootStable hP.initialized pins contrast s hs)
  | initialized =>
    rw [exec_init_initialized hp] at h
    cases h
    exact hP.refuse s _ hs

theorem exec_configure_keeps (hP : ExecStable P) {pins : PinMap} (hs : P s)
    (h : exec (.configure pins) s = .next t) : P t := by
  cases hp : s.phase with
  | uninitialized =>
    rw [exec_configure_uninitialized hp] at h
    cases h
    exact hP.finish _ _ (Ran.andThen_keeps (configureBody_keeps hP.toBootStable pins s hs) fun _ _ hu => hu)
  | initialized =>
    rw [exec_configure_initialized hp] at h
    cases h
    exact hP.refuse s _ hs

/-- Every instruction keeps such a property, whatever the backend answers. -/
theorem exec_keeps (hP : ExecStable P) {i : Instr} (hs : P s) (h : exec i s = .next t) : P t := by
  have hE : EngineStable P := hP.toEngineStable
  cases i with
  | init pins contrast => exact exec_init_keeps hP hs h
  | configure pins => exact exec_configure_keeps hP hs h
  | cmd bytes =>
    rw [exec_cmd] at h
    exact operate_keeps hP.finish hP.refuse (fun _ a => frame_keeps hE a _ _ _) hs h
  | data bytes =>
    rw [exec_data] at h
    exact operate_keeps hP.finish hP.refuse (fun _ a => frame_keeps hE a _ _ _) hs h
  | backlight on =>
    rw [exec_backlight] at h
    exact operate_keeps hP.finish hP.refuse (fun _ pins => driveBacklight_keeps hE on pins) hs h
  | setpos segment bank =>
    rw [exec_setpos] at h
    exact operate_keeps hP.finish hP.refuse (fun p a => setPositionBody_keeps hE a p) hs h
  | locate row col =>
    rw [exec_locate] at h
    exact operate_keeps hP.finish hP.refuse (fun p a => setPositionBody_keeps hE a p) hs h
  | cls =>
    rw [exec_cls] at h
    exact operate_keeps hP.finish hP.refuse (fun _ a => clearBody_keeps hE a) hs h
  | contrast value =>
    rw [exec_contrast] at h
    exact operate_keeps hP.finish hP.refuse (fun _ a => sendContrast_keeps hE a value) hs h
  | text row col chars =>
    rw [exec_text] at h
    exact operate_keeps hP.finish hP.refuse (fun p a u hu => Ran.andThen_keeps (setPositionBody_keeps hE a p u hu)
      fun _ v hv => drawChars_keeps hE a chars v hv) hs h
  | setBank | setSegment | functionSetExtended | cmd0x14 | setVop | functionSetNormal | displayControlNormal
  | dataByte | positionSequence | contrastSequence =>
    obtain ⟨op, rfl⟩ := exec_wire rfl h
    exact hP.wire s op hs

end Sys2Proof.Machine

/-! ### The scope: the configuration check and the host-side frame -/

namespace Sys2Proof.Machine

/-! #### The configuration check (R8, R59, R193) -/

/-- The accepted geometry, 84×48 with bank height 8, divides exactly (R7, R8). -/
theorem panel84x48_exact : Geometry.panel84x48.exact = true := by decide

theorem Config.accepted_iff (c : Config) :
    c.accepted = true ↔ c.geometry = Geometry.panel84x48 ∧ ∀ e ∈ c.font, e.2.length = 5 := by
  simp [Config.accepted]

/-- A geometry whose divisions are not exact is not accepted (R8). -/
theorem Config.accepted_of_inexact {c : Config} (h : c.geometry.exact = false) : c.accepted = false := by
  rw [← Bool.not_eq_true, Config.accepted_iff]
  rintro ⟨hg, -⟩
  rw [hg, panel84x48_exact] at h
  cases h

/-- A font with a glyph of other than five bytes is not accepted (R59). -/
theorem Config.accepted_of_badGlyph {c : Config} {k : CharCode} {g : List Byte} (hmem : (k, g) ∈ c.font)
    (hlen : g.length ≠ 5) : c.accepted = false := by
  rw [← Bool.not_eq_true, Config.accepted_iff]
  rintro ⟨-, hfont⟩
  exact hlen (hfont _ hmem)

theorem step_settled {s t : State} (h : fetch s = .settled t) : step s = .next t := by
  simp [step, h]

/-- With nothing waiting at the panel and the run going on, the item at `pc` is issued if the configuration is
accepted, and refused as `bad_configuration` otherwise (R193, R214; log entry 6). -/
theorem fetch_issue {s : State} {issue : Issue} (hbus : s.busIn = []) (hrun : s.ended = false)
    (hissue : s.prog[s.pc]? = some issue) :
    fetch s = if s.cfg.accepted then fetchIssue issue s else .settled (s.refuseAtPort .badConfiguration) := by
  simp [fetch, fetchHost, hbus, hrun, hissue]

/-- Settles O15: neither defect passes `Config.accepted`, the check the host port makes before it issues an item. -/
theorem badConfigurationIsRefused : Obligations.BadConfigurationIsRefused := by
  unfold Obligations.BadConfigurationIsRefused
  intro s issue hbus hrun hissue hbad
  have hrejected : s.cfg.accepted = false := by
    rcases hbad with hgeometry | ⟨k, g, hmem, hlen⟩
    · exact Config.accepted_of_inexact hgeometry
    · exact Config.accepted_of_badGlyph hmem hlen
  have hfetch : fetch s = .settled (s.refuseAtPort .badConfiguration) := by
    rw [fetch_issue hbus hrun hissue, hrejected]
    rfl
  exact step_settled hfetch

/-! #### The host-side frame (R10, R23, R24, R214, R224) -/

/-- `t` agrees with `s` on the host's side: the configuration, the program and the model's own fields. -/
def State.SameHost (s t : State) : Prop :=
  t.cfg = s.cfg ∧ t.pc = s.pc ∧ t.prog = s.prog ∧ t.ended = s.ended ∧ t.runs = s.runs ∧ t.busIn = s.busIn ∧
    t.script = s.script

theorem State.SameHost.refl (s : State) : s.SameHost s := ⟨rfl, rfl, rfl, rfl, rfl, rfl, rfl⟩

/-- No move of an instruction writes a field of the host's side. -/
theorem sameHost_execStable (s : State) : ExecStable s.SameHost where
  call _ _ _ h := h
  dc _ _ h := h
  lastPos _ _ h := h
  contrast _ _ h := h
  backlight _ _ h := h
  noBacklight _ h := h
  hold _ h := h
  pins _ _ h := h
  channel _ _ h := h
  outputs _ _ h := h
  rst _ _ h := h
  initialized _ h := h
  finish _ _ h := h
  refuse _ _ h := h
  wire _ _ h := h

/-- Settles O38: the host's side is stable under every move, so every instruction keeps it. -/
theorem instructionsLeaveTheHostAlone : Obligations.InstructionsLeaveTheHostAlone := by
  unfold Obligations.InstructionsLeaveTheHostAlone
  intro s t i h
  exact exec_keeps (sameHost_execStable s) (State.SameHost.refl s) h

end Sys2Proof.Machine

/-! ### The state: reset, the step, and what every step keeps -/

namespace Sys2Proof.Machine

/-! #### Reset (R42, R210) -/

/-- Settles O1: each row of the table is a field of `State.reset`, and a cell of an empty memory reads unknown. -/
theorem resetIsThePowerOnTable : Obligations.ResetIsThePowerOnTable :=
  ⟨rfl, rfl, rfl, rfl, rfl, rfl, rfl, rfl, rfl, rfl, rfl, rfl, rfl, rfl, fun _ _ => rfl, rfl, rfl, rfl, rfl⟩

/-- The invariant at reset: no event has happened, every register is unknown, and the phase is uninitialized. -/
theorem State.reset_inv : State.reset.Inv where
  projection := rfl
  handle h := by cases h
  resetLine h := by cases h
  backlight := by decide
  ram := Memory.wf_nil
  outputs := rfl
  holds _ h := by cases h
  refusal _ h := by cases h

/-- Settles O2, by the invariant's fields at power-on. -/
theorem resetMeetsTheInvariant : Obligations.ResetMeetsTheInvariant := State.reset_inv

/-! #### The step at the host port (R23, R24, R94, R98) -/

/-- After a host operation `pc` advances, or the run ends (R24). -/
theorem step_host_run {s u v : State} {i : Instr} (hfetch : fetch s = .run i u) (hi : i.layer = .host)
    (hexec : exec i u = .next v) :
    (v.lastResult = some .ok → step s = .next { v with pc := v.pc + 1 }) ∧
      (v.lastResult ≠ some .ok → step s = .next { v with ended := true }) := by
  rw [step_run hfetch hexec]
  exact ⟨fun hok => by rw [retire_ok hi hok], fun hnot => by rw [retire_ended hi hnot]⟩

/-- The port issues the operations of R94, all but CONFIGURE (R97, R193). -/
theorem portReason_eq_none {i : Instr} (hi : i.layer = .host) (hconf : ∀ pins, i ≠ .configure pins) :
    portReason i = none := by
  cases i with
  | configure pins => exact absurd rfl (hconf pins)
  | init | cmd | data | backlight | setpos | locate | cls | contrast | text => rfl
  | setBank | setSegment | functionSetExtended | cmd0x14 | setVop | functionSetNormal | displayControlNormal
  | dataByte | positionSequence | contrastSequence => cases hi

/-- Settles O8: the port issues such an operation as it stands. -/
theorem stepRunsTheAbstractOperation : Obligations.StepRunsTheAbstractOperation := by
  unfold Obligations.StepRunsTheAbstractOperation
  intro s u i hbus hrun hcfg hissue hi hconf hexec
  have hfetch : fetch s = .run i s := by
    rw [fetch_issue hbus hrun hissue, if_pos hcfg]
    simp [fetchIssue, portReason_eq_none hi hconf]
  exact step_host_run hfetch hi hexec

/-! #### A descriptor decodes to a host operation (R95) -/

theorem decodeInit_layer (bs : List Byte) : ∀ r ∈ decodeInit bs, r.1.layer = .host := by
  unfold decodeInit
  split <;> simp [Instr.layer]

theorem decodeConfigure_layer (bs : List Byte) : ∀ r ∈ decodeConfigure bs, r.1.layer = .host := by
  unfold decodeConfigure
  split <;> simp [Instr.layer]

theorem decodeCounted_layer {make : List Byte → Instr} (hmake : ∀ bs, (make bs).layer = .host) (bs : List Byte) :
    ∀ r ∈ decodeCounted make bs, r.1.layer = .host := by
  unfold decodeCounted
  split
  · intro r hr
    obtain ⟨x, -, rfl⟩ := Option.mem_map.mp hr
    exact hmake x.1
  · simp

theorem decodePair_layer {make : Int → Int → Instr} (hmake : ∀ a b, (make a b).layer = .host) (bs : List Byte) :
    ∀ r ∈ decodePair make bs, r.1.layer = .host := by
  unfold decodePair
  split <;> simp [hmake]

theorem decodeContrast_layer (bs : List Byte) : ∀ r ∈ decodeContrast bs, r.1.layer = .host := by
  unfold decodeContrast
  split <;> simp [Instr.layer]

theorem decodeText_layer (bs : List Byte) : ∀ r ∈ decodeText bs, r.1.layer = .host := by
  unfold decodeText
  split
  · intro r hr
    obtain ⟨x, -, rfl⟩ := Option.mem_map.mp hr
    rfl
  · simp

theorem decodeBacklight_layer {bs rest : List Byte} {i : Instr} (h : decodeBacklight bs = .ok (i, rest)) :
    i.layer = .host := by
  unfold decodeBacklight at h
  split at h
  · split_ifs at h <;> cases h <;> rfl
  · cases h

theorem orTruncated_layer {tag : Byte} {fields : Option (Instr × List Byte)} {i : Instr} {rest : List Byte}
    (hfields : ∀ r ∈ fields, r.1.layer = .host) (h : orTruncated tag fields = .ok (i, rest)) : i.layer = .host := by
  cases fields with
  | none => cases h
  | some r =>
    cases h
    exact hfields _ rfl

theorem decodeHost_layer {bs rest : List Byte} {i : Instr} (h : decodeHost bs = .ok (i, rest)) : i.layer = .host := by
  unfold decodeHost at h
  split at h
  · cases h
  · split at h
    · exact orTruncated_layer (decodeInit_layer _) h
    · exact orTruncated_layer (decodeConfigure_layer _) h
    · exact orTruncated_layer (decodeCounted_layer (fun _ => rfl) _) h
    · exact orTruncated_layer (decodeCounted_layer (fun _ => rfl) _) h
    · exact decodeBacklight_layer h
    · exact orTruncated_layer (decodePair_layer (fun _ _ => rfl) _) h
    · exact orTruncated_layer (decodePair_layer (fun _ _ => rfl) _) h
    · cases h
      rfl
    · exact orTruncated_layer (decodeContrast_layer _) h
    · exact orTruncated_layer (decodeText_layer _) h
    · cases h

/-- What the host port decodes is one of its own operations (R95, R97). -/
theorem decodeDescriptor_layer {bs rest : List Byte} {i : Instr} (h : decodeDescriptor bs = .ok (i, rest)) :
    i.layer = .host := by
  unfold decodeDescriptor at h
  split at h
  · cases h
  · exact decodeHost_layer h

/-- Settles O7: the port splits the stream after its first descriptor and issues what that decodes to. -/
theorem stepRunsTheDecodedDescriptor : Obligations.StepRunsTheDecodedDescriptor := by
  unfold Obligations.StepRunsTheDecodedDescriptor
  intro s u bs rest i hbus hrun hcfg hissue hdecode hexec
  have hfetch : fetch s = .run i (s.splitProgram bs rest) := by
    rw [fetch_issue hbus hrun hissue, if_pos hcfg, fetchIssue_ok hdecode]
  exact step_host_run hfetch (decodeDescriptor_layer hdecode) hexec

/-! #### The end of a run (R24, R192; log entry 8) -/

/-- With nothing waiting at the panel, a run that is over leaves the step to the queue of runs. -/
theorem fetch_over {s : State} (hbus : s.busIn = []) (hover : s.ended = true ∨ s.prog.length ≤ s.pc) :
    fetch s = fetchNextRun s := by
  rcases hover with hended | hpc
  · simp [fetch, fetchHost, hbus, hended]
  · simp [fetch, fetchHost, hbus, List.getElem?_eq_none hpc]

/-- Settles O10: the queue is empty and the step settles in the same state, or its first run starts. -/
theorem endedRunGivesWayToTheNext : Obligations.EndedRunGivesWayToTheNext := by
  unfold Obligations.EndedRunGivesWayToTheNext
  intro s hbus hover
  have hfetch : fetch s = fetchNextRun s := fetch_over hbus hover
  constructor
  · intro hnone
    exact step_settled (by rw [hfetch, fetchNextRun, hnone])
  · intro prog more hnext
    refine step_settled ?_
    rw [hfetch, fetchNextRun, hnext]
    rfl

/-! #### What a step keeps -/

/-- Retiring writes `pc` and the end of the run, nothing else (R24). -/
theorem retire_eq (i : Instr) (s : State) : ∃ pc ended, retire i s = { s with pc := pc, ended := ended } := by
  unfold retire
  split
  · exact ⟨s.pc, s.ended, rfl⟩
  · split
    · exact ⟨s.pc + 1, s.ended, rfl⟩
    · exact ⟨s.pc, true, rfl⟩

/-- What fetching leaves, every move of an instruction keeps and retiring keeps, holds after the step. -/
theorem step_keeps {P : State → Prop} (hP : ExecStable P) {s t : State} (hsettled : ∀ u, fetch s = .settled u → P u)
    (hrun : ∀ i u, fetch s = .run i u → P u) (hretire : ∀ v pc ended, P v → P { v with pc := pc, ended := ended })
    (h : step s = .next t) : P t := by
  rcases step_cases h with hfetch | ⟨i, u, v, hfetch, hexec, rfl⟩
  · exact hsettled t hfetch
  · obtain ⟨pc, ended, hv⟩ := retire_eq i v
    rw [hv]
    exact hretire v pc ended (exec_keeps hP (hrun i u hfetch) hexec)

/-! #### The refusal mark (R36) -/

/-- No move of an instruction clears the mark, and a refusal sets it. -/
theorem refused_execStable : ExecStable (fun s => s.refused = true) where
  call _ _ _ h := h
  dc _ _ h := h
  lastPos _ _ h := h
  contrast _ _ h := h
  backlight _ _ h := h
  noBacklight _ h := h
  hold _ h := h
  pins _ _ h := h
  channel _ _ h := h
  outputs _ _ h := h
  rst _ _ h := h
  initialized _ h := h
  finish _ _ h := h
  refuse _ _ _ := rfl
  wire _ _ h := h

/-- Settles O6: fetching, the instruction and retiring each keep the mark. -/
theorem refusedMarkIsSticky : Obligations.RefusedMarkIsSticky := by
  unfold Obligations.RefusedMarkIsSticky
  intro s t h hs
  refine step_keeps refused_execStable (fun u hu => ?_) (fun i u hu => ?_) (fun _ _ _ hv => hv) h
  · obtain ⟨-, -, -, -, hkept, -⟩ := fetch_settled_same hu
    exact hkept hs
  · obtain ⟨-, -, -, -, -, -, -, -, hrefused⟩ := fetch_run_same hu
    exact hrefused.trans hs

/-! #### The phase (R25, R194) -/

/-- No move of INIT before its last writes the phase. -/
theorem phase_bootStable (p : Phase) : BootStable (fun s => s.phase = p) where
  call _ _ _ h := h
  dc _ _ h := h
  lastPos _ _ h := h
  contrast _ _ h := h
  backlight _ _ h := h
  noBacklight _ h := h
  hold _ h := h
  pins _ _ h := h
  channel _ _ h := h
  outputs _ _ h := h
  rst _ _ h := h

/-- No move of an instruction leads out of the initialized phase. -/
theorem initialized_execStable : ExecStable (fun s => s.phase = .initialized) where
  toBootStable := phase_bootStable .initialized
  initialized _ _ := rfl
  finish _ _ h := h
  refuse _ _ h := h
  wire _ _ h := h

/-- Where what follows succeeds or keeps `P`, so does the whole: an error before it keeps `P`. -/
theorem Ran.andThen_ok_or_keeps {α : Type} {P : State → Prop} {r : Ran α} {k : α → State → Ran Unit} (h : P r.st)
    (hk : ∀ a t, P t → (k a t).res = .ok () ∨ P (k a t).st) :
    (r.andThen k).res = .ok () ∨ P (r.andThen k).st := by
  unfold Ran.andThen
  split
  · exact hk _ _ h
  · exact .inr h

/-- INIT succeeds, or it ends in an error before it moves to the initialized phase (R150). -/
theorem initBody_ok_or_keeps {P : State → Prop} (hP : BootStable P) (pins : PinMap) (contrast : Byte) (s : State)
    (hs : P s) : (initBody pins contrast s).res = .ok () ∨ P (initBody pins contrast s).st :=
  Ran.andThen_ok_or_keeps (configureBody_keeps hP pins s hs) fun h t ht =>
    Ran.andThen_ok_or_keeps (driveReset_keeps hP pins .low t ht) fun _ u hu =>
      Ran.andThen_ok_or_keeps (driveReset_keeps hP pins .high _ (hP.hold u hu)) fun _ v hv =>
        Ran.andThen_ok_or_keeps (sendContrast_keeps hP.toEngineStable h contrast v hv) fun _ w hw =>
          Ran.andThen_ok_or_keeps (clearBody_keeps hP.toEngineStable h w hw) fun _ _ _ => .inl rfl

/-- Before initialization every operation but INIT and CONFIGURE is refused (R193). -/
theorem exec_refuses_uninitialized {s : State} {i : Instr} (hs : s.phase = .uninitialized) (hi : i.layer = .host)
    (hinit : ∀ pins contrast, i ≠ .init pins contrast) (hconf : ∀ pins, i ≠ .configure pins) :
    exec i s = .next (s.refuse .notInitialized) := by
  cases i with
  | init pins contrast => exact absurd rfl (hinit pins contrast)
  | configure pins => exact absurd rfl (hconf pins)
  | cmd => exact (exec_cmd ..).trans (operate_uninitialized hs)
  | data => exact (exec_data ..).trans (operate_uninitialized hs)
  | backlight => exact (exec_backlight ..).trans (operate_uninitialized hs)
  | setpos => exact (exec_setpos ..).trans (operate_uninitialized hs)
  | locate => exact (exec_locate ..).trans (operate_uninitialized hs)
  | cls => exact (exec_cls ..).trans (operate_uninitialized hs)
  | contrast => exact (exec_contrast ..).trans (operate_uninitialized hs)
  | text => exact (exec_text ..).trans (operate_uninitialized hs)
  | setBank | setSegment | functionSetExtended | cmd0x14 | setVop | functionSetNormal | displayControlNormal
  | dataByte | positionSequence | contrastSequence => cases hi

/-- No instruction but INIT leads out of the uninitialized phase: CONFIGURE keeps it, a wire row writes no register, and
every other operation is refused. -/
theorem exec_uninitialized_of_ne_init {s t : State} {i : Instr} (hs : s.phase = .uninitialized)
    (hinit : ∀ pins contrast, i ≠ .init pins contrast) (h : exec i s = .next t) : t.phase = .uninitialized := by
  cases hi : i.layer with
  | wire =>
    obtain ⟨op, rfl⟩ := exec_wire hi h
    exact hs
  | host =>
    by_cases hconf : ∃ pins, i = .configure pins
    · obtain ⟨pins, rfl⟩ := hconf
      rw [exec_configure_uninitialized hs] at h
      cases h
      have hbody : (configureBody pins s).st.phase = .uninitialized :=
        configureBody_keeps (phase_bootStable .uninitialized) pins s hs
      exact Ran.andThen_keeps (P := (·.phase = .uninitialized)) hbody fun _ _ ht => ht
    · rw [exec_refuses_uninitialized hs hi hinit (not_exists.mp hconf)] at h
      cases h
      exact hs

/-- An INIT that leads out of the uninitialized phase has succeeded (R150). -/
theorem exec_init_ok_of_initialized {s t : State} {pins : PinMap} {contrast : Byte} (hs : s.phase = .uninitialized)
    (h : exec (.init pins contrast) s = .next t) (ht : t.phase = .initialized) : t.lastResult = some .ok := by
  rw [exec_init_uninitialized hs] at h
  cases h
  rcases initBody_ok_or_keeps (phase_bootStable .uninitialized) pins contrast s hs with hok | hkept
  · rw [Ran.finish, hok, State.finish_lastResult_ok]
  · rw [Ran.finish, State.finish_phase, hkept] at ht
    cases ht

/-- A change of the phase is an INIT's that succeeded. -/
theorem exec_changes_phase {s t : State} {i : Instr} (h : exec i s = .next t) (hne : t.phase ≠ s.phase) :
    s.phase = .uninitialized ∧ t.phase = .initialized ∧ t.lastResult = some .ok ∧
      ∃ pins contrast, i = .init pins contrast := by
  cases hs : s.phase with
  | initialized => exact absurd ((exec_keeps initialized_execStable hs h).trans hs.symm) hne
  | uninitialized =>
    by_cases hinit : ∃ pins contrast, i = .init pins contrast
    · obtain ⟨pins, contrast, rfl⟩ := hinit
      have ht : t.phase = .initialized := by
        cases ht : t.phase with
        | initialized => rfl
        | uninitialized => exact absurd (ht.trans hs.symm) hne
      exact ⟨rfl, ht, exec_init_ok_of_initialized hs h ht, pins, contrast, rfl⟩
    · have ht : t.phase = .uninitialized :=
        exec_uninitialized_of_ne_init hs (fun pins contrast e => hinit ⟨pins, contrast, e⟩) h
      exact absurd (ht.trans hs.symm) hne

theorem step_keeps_initialized {s t : State} (h : step s = .next t) (hs : s.phase = .initialized) :
    t.phase = .initialized := by
  refine step_keeps initialized_execStable (fun u hu => ?_) (fun i u hu => ?_) (fun _ _ _ hv => hv) h
  · obtain ⟨hphase, -⟩ := fetch_settled_same hu
    exact hphase.trans hs
  · obtain ⟨hphase, -⟩ := fetch_run_same hu
    exact hphase.trans hs

/-- Settles O36: the phase changes only in an INIT that reaches its last step, and no step leads back. -/
theorem phaseChangesOnlyByInit : Obligations.PhaseChangesOnlyByInit :=
  ⟨fun _ _ _ => exec_changes_phase, fun _ _ => step_keeps_initialized⟩

/-! #### The trace (R13, R35)

`EngineStable` lets a call append any event but a hold. That a call appends an event with an outcome is what counts
here, so the pieces of the operations are gone through once more for this relation. -/

/-- The trace of `t` is that of `s` and more events, and `t` has drawn once for each of them that has an outcome. -/
def State.Logs (s t : State) : Prop :=
  ∃ events, t.trace = s.trace ++ events ∧ t.drawn = s.drawn + (events.filter fun e => e.answer.isSome).length

theorem State.Logs.refl (s : State) : s.Logs s := ⟨[], by simp, rfl⟩

/-- A backend call appends an event with the outcome drawn (R13). -/
theorem State.Logs.call {s t : State} {ev : Answer → Event} (h : s.Logs t) (hev : ∀ a, (ev a).answer = some a) :
    s.Logs (t.call ev) := by
  obtain ⟨events, htrace, hdrawn⟩ := h
  refine ⟨events ++ [ev t.draw.answer], by simp [htrace], ?_⟩
  simp [hdrawn, List.filter_append, hev, Nat.add_assoc]

/-- An event with no outcome draws nothing. -/
theorem State.Logs.emit {s t : State} {e : Event} (h : s.Logs t) (he : e.answer = none) : s.Logs (t.emit e) := by
  obtain ⟨events, htrace, hdrawn⟩ := h
  refine ⟨events ++ [e], by simp [htrace], ?_⟩
  simp [hdrawn, List.filter_append, he]

section

variable {s : State}

theorem frame_logs (h : Handle) (isCmd : Bool) (bytes : List Byte) (kind : Kind) (t : State) (ht : s.Logs t) :
    s.Logs (frame h isCmd bytes kind t).st :=
  Ran.andThen_keeps (attempt_keeps (ht.call fun _ => rfl) (fun _ hu => hu) (fun _ hu => hu)) fun _ _ hu =>
    attempt_keeps (hu.call fun _ => rfl) (fun _ hv => hv) (fun _ hv => hv)

theorem setPositionBody_logs (h : Handle) (p : Segment × Bank) (t : State) (ht : s.Logs t) :
    s.Logs (setPositionBody h p t).st :=
  Ran.andThen_keeps (Ran.onError_keeps (frame_logs h _ _ _ t ht) fun _ hu => hu) fun _ _ hu => hu

theorem clearBody_logs (h : Handle) (t : State) (ht : s.Logs t) : s.Logs (clearBody h t).st :=
  Ran.andThen_keeps (setPositionBody_logs h _ t ht) fun _ u hu =>
    Ran.andThen_keeps (Ran.onError_keeps (frame_logs h _ _ _ u hu) fun _ hv => hv) fun _ v hv =>
      setPositionBody_logs h _ v hv

theorem sendContrast_logs (h : Handle) (value : Byte) (t : State) (ht : s.Logs t) :
    s.Logs (sendContrast h value t).st :=
  Ran.andThen_keeps (Ran.onError_keeps (frame_logs h _ _ _ t ht) fun _ hu => hu) fun _ _ hu => hu

theorem drawChars_logs (h : Handle) (chars : List CharCode) (t : State) (ht : s.Logs t) :
    s.Logs (drawChars h chars t).st := by
  induction chars generalizing t with
  | nil => exact ht
  | cons c cs ih =>
    unfold drawChars
    split
    · exact ht
    · exact Ran.andThen_keeps (Ran.onError_keeps (frame_logs h _ _ _ t ht) fun _ hu => hu) fun _ u hu => ih u hu

theorem driveBacklight_logs (on : Bool) (pins : PinMap) (t : State) (ht : s.Logs t) :
    s.Logs (driveBacklight on pins t).st :=
  attempt_keeps (ht.call fun _ => rfl) (fun _ hu => hu) (fun _ hu => hu)

theorem driveReset_logs (pins : PinMap) (level : Level) (t : State) (ht : s.Logs t) :
    s.Logs (driveReset pins level t).st :=
  attempt_keeps (ht.call fun _ => rfl) (fun _ hu => hu) (fun _ hu => hu)

theorem setOutputs_logs (ps : List Pin) (t : State) (ht : s.Logs t) : s.Logs (setOutputs ps t).st := by
  induction ps generalizing t with
  | nil => exact ht
  | cons p ps ih =>
    exact Ran.andThen_keeps (attempt_keeps (ht.call fun _ => rfl) (fun _ hu => hu) (fun _ hu => hu)) fun _ u hu =>
      ih u hu

theorem configureBody_logs (pins : PinMap) (t : State) (ht : s.Logs t) : s.Logs (configureBody pins t).st :=
  have hpins : s.Logs { t with pins := some pins } := ht
  Ran.andThen_keeps (attempt_keeps (hpins.call fun _ => rfl) (fun _ hu => hu) (fun _ hu => hu)) fun _ _ hu =>
    Ran.andThen_keeps (attempt_keeps (hu.call fun _ => rfl) (fun _ hv => hv) (fun _ hv => hv)) fun _ v hv =>
      Ran.andThen_keeps (setOutputs_logs _ v hv) fun _ _ hw => hw

theorem initBody_logs (pins : PinMap) (contrast : Byte) (t : State) (ht : s.Logs t) :
    s.Logs (initBody pins contrast t).st :=
  Ran.andThen_keeps (configureBody_logs pins t ht) fun h u hu =>
    Ran.andThen_keeps (driveReset_logs pins .low u hu) fun _ v hv =>
      Ran.andThen_keeps (driveReset_logs pins .high v.hold (hv.emit rfl)) fun _ w hw =>
        Ran.andThen_keeps (sendContrast_logs h contrast w hw) fun _ x hx =>
          Ran.andThen_keeps (clearBody_logs h x hx) fun _ _ hy => hy

theorem operate_logs {α β : Type} {check : Except Error β} {read : State → Except Fault α}
    {body : β → α → State → Ran Unit} {t : State} (hbody : ∀ b a u, s.Logs u → s.Logs (body b a u).st)
    (h : operate check read body s = .next t) : s.Logs t :=
  operate_keeps (fun _ _ hu => hu) (fun _ _ hu => hu) hbody (.refl s) h

theorem exec_init_logs {pins : PinMap} {contrast : Byte} {t : State} (h : exec (.init pins contrast) s = .next t) :
    s.Logs t := by
  cases hp : s.phase with
  | uninitialized =>
    rw [exec_init_uninitialized hp] at h
    cases h
    exact initBody_logs pins contrast s (.refl s)
  | initialized =>
    rw [exec_init_initialized hp] at h
    cases h
    exact .refl s

theorem exec_configure_logs {pins : PinMap} {t : State} (h : exec (.configure pins) s = .next t) : s.Logs t := by
  cases hp : s.phase with
  | uninitialized =>
    rw [exec_configure_uninitialized hp] at h
    cases h
    exact Ran.andThen_keeps (P := s.Logs) (configureBody_logs pins s (.refl s)) fun _ _ hu => hu
  | initialized =>
    rw [exec_configure_initialized hp] at h
    cases h
    exact .refl s

/-- Every instruction draws once for each event with an outcome that it appends, and takes no event back. -/
theorem exec_logs {i : Instr} {t : State} (h : exec i s = .next t) : s.Logs t := by
  cases i with
  | init => exact exec_init_logs h
  | configure => exact exec_configure_logs h
  | cmd => exact operate_logs (fun _ a => frame_logs a _ _ _) ((exec_cmd ..).symm.trans h)
  | data => exact operate_logs (fun _ a => frame_logs a _ _ _) ((exec_data ..).symm.trans h)
  | backlight on => exact operate_logs (fun _ pins => driveBacklight_logs on pins) ((exec_backlight ..).symm.trans h)
  | setpos => exact operate_logs (fun p a => setPositionBody_logs a p) ((exec_setpos ..).symm.trans h)
  | locate => exact operate_logs (fun p a => setPositionBody_logs a p) ((exec_locate ..).symm.trans h)
  | cls => exact operate_logs (fun _ a => clearBody_logs a) ((exec_cls ..).symm.trans h)
  | contrast value => exact operate_logs (fun _ a => sendContrast_logs a value) ((exec_contrast ..).symm.trans h)
  | text _ _ chars =>
    exact operate_logs
      (fun p a u hu => Ran.andThen_keeps (setPositionBody_logs a p u hu) fun _ => drawChars_logs a chars)
      ((exec_text ..).symm.trans h)
  | setBank | setSegment | functionSetExtended | cmd0x14 | setVop | functionSetNormal | displayControlNormal
  | dataByte | positionSequence | contrastSequence =>
    obtain ⟨op, rfl⟩ := exec_wire rfl h
    exact (State.Logs.refl s).emit rfl

end

/-- A step that runs no instruction draws nothing, and appends at most the model's own event (log entry 3). -/
theorem fetch_settled_logs {s t : State} (h : fetch s = .settled t) : s.Logs t := by
  obtain ⟨-, -, -, hdrawn, -, htrace | ⟨b, htrace⟩⟩ := fetch_settled_same h
  · exact ⟨[], by simp [htrace], hdrawn⟩
  · exact ⟨[.wire (.reserved b)], htrace, hdrawn⟩

/-- Settles O5: the step appends what its instruction appends, or settles without one. -/
theorem eachCallAppendsOneEvent : Obligations.EachCallAppendsOneEvent := by
  unfold Obligations.EachCallAppendsOneEvent
  intro s t h
  rcases step_cases h with hsettled | ⟨i, u, v, hrun, hexec, rfl⟩
  · exact fetch_settled_logs hsettled
  · obtain ⟨-, -, -, htrace, -, -, -, hdrawn, -⟩ := fetch_run_same hrun
    obtain ⟨pc, ended, hretire⟩ := retire_eq i v
    have hlogs : u.Logs v := exec_logs hexec
    rw [State.Logs, htrace, hdrawn] at hlogs
    rw [hretire]
    exact hlogs

end Sys2Proof.Machine

/-! ### The invariant: every step keeps it -/

namespace Sys2Proof.Machine

/-! #### What fetching and retiring leave

A step writes the host's side of the state: the program, `pc`, the end of the run, the queue of runs and the waiting
transfers. Beside that it refuses, lets the panel receive a byte of no row, or runs an instruction. -/

/-- `t` is `s` with another host's side. -/
def State.SameEngine (s t : State) : Prop :=
  ∃ prog pc ended runs busIn, t = { s with prog := prog, pc := pc, ended := ended, runs := runs, busIn := busIn }

theorem State.SameEngine.refl (s : State) : s.SameEngine s := ⟨_, _, _, _, _, rfl⟩

theorem splitProgram_sameEngine (s : State) (bs rest : List Byte) : s.SameEngine (s.splitProgram bs rest) := by
  unfold State.splitProgram
  split
  · exact .refl s
  · exact ⟨_, _, _, _, _, rfl⟩

theorem retire_sameEngine (i : Instr) (s : State) : s.SameEngine (retire i s) := by
  obtain ⟨pc, ended, h⟩ := retire_eq i s
  rw [h]
  exact ⟨_, _, _, _, _, rfl⟩

/-- What fetching answers: an instruction to run, or the end of the step, with at most a refusal (R193) or a byte of no
row (log entry 3). -/
def Fetched.FromSameEngine (s : State) : Fetched → Prop
  | .run _ u => s.SameEngine u
  | .settled u => ∃ v, s.SameEngine v ∧ (u = v ∨ (∃ r, u = v.refuse r) ∨ ∃ b, u = v.emit (.wire (.reserved b)))

/-- A refusal at the port (R223) is a refusal in a run that has ended. -/
theorem refuseAtPort_fromSameEngine (s : State) (r : Reason) :
    Fetched.FromSameEngine s (.settled (s.refuseAtPort r)) :=
  ⟨{ s with ended := true }, ⟨_, _, _, _, _, rfl⟩, .inr (.inl ⟨r, rfl⟩)⟩

theorem fetchTransfer_fromSameEngine (t : Transfer) (more : List Transfer) (s : State) :
    (fetchTransfer t more s).FromSameEngine s := by
  unfold fetchTransfer
  split
  · exact ⟨_, _, _, _, _, rfl⟩
  · exact ⟨_, _, _, _, _, rfl⟩
  · split
    · exact ⟨_, ⟨_, _, _, _, _, rfl⟩, .inl rfl⟩
    · exact ⟨_, ⟨_, _, _, _, _, rfl⟩, .inr (.inr ⟨_, rfl⟩)⟩
    · exact ⟨_, ⟨_, _, _, _, _, rfl⟩, .inr (.inr ⟨_, rfl⟩)⟩

theorem fetchIssue_fromSameEngine (issue : Issue) (s : State) : (fetchIssue issue s).FromSameEngine s := by
  unfold fetchIssue
  split
  · split
    · exact refuseAtPort_fromSameEngine s _
    · exact .refl s
  · exact ⟨_, ⟨_, _, _, _, _, rfl⟩, .inl rfl⟩
  · split
    · exact refuseAtPort_fromSameEngine s _
    · exact splitProgram_sameEngine s _ _

theorem fetchNextRun_fromSameEngine (s : State) : (fetchNextRun s).FromSameEngine s := by
  unfold fetchNextRun
  split
  · exact ⟨s, .refl s, .inl rfl⟩
  · exact ⟨_, ⟨_, _, _, _, _, rfl⟩, .inl rfl⟩

theorem fetch_fromSameEngine (s : State) : (fetch s).FromSameEngine s := by
  unfold fetch
  split
  · exact fetchTransfer_fromSameEngine _ _ s
  · unfold fetchHost
    split
    · exact fetchNextRun_fromSameEngine s
    · split
      · exact fetchNextRun_fromSameEngine s
      · split
        · exact fetchIssue_fromSameEngine _ s
        · exact refuseAtPort_fromSameEngine s _

/-- A property of the engine's side that a refusal, a wire event and every instruction keep, every step keeps. -/
theorem step_keeps_of_exec {P : State → Prop} (hsame : ∀ s t, s.SameEngine t → P s → P t)
    (hrefuse : ∀ s r, P s → P (s.refuse r)) (hwire : ∀ s op, P s → P (s.emit (.wire op)))
    (hexec : ∀ i s t, exec i s = .next t → P s → P t) {s t : State} (h : step s = .next t) (hs : P s) : P t := by
  have hfetched := fetch_fromSameEngine s
  rcases step_cases h with hfetch | ⟨i, u, v, hfetch, hrun, rfl⟩
  · rw [hfetch] at hfetched
    obtain ⟨v, hv, rfl | ⟨r, rfl⟩ | ⟨b, rfl⟩⟩ := hfetched
    · exact hsame s t hv hs
    · exact hrefuse v r (hsame s v hv hs)
    · exact hwire v _ (hsame s v hv hs)
  · rw [hfetch] at hfetched
    exact hsame v _ (retire_sameEngine i v) (hexec i u v hrun (hsame s u hfetched hs))

/-! #### The records: the part of the invariant that every single move keeps

The trace and its projection (R56), the backlight registers (R31), the canonical forms (R34, R51), the holds (R213) and
the refusal mark (R36) agree at every point inside an operation, so they are stable in the sense of `ExecStable`. -/

/-- The clauses of `State.Inv` that do not wait for the initialized phase. -/
structure State.Records (s : State) : Prop where
  projection : s.panel = Panel.project s.cfg.panelLastWrap s.trace
  backlight : (s.blOn = some true ↔ s.blPin = some .low) ∧ (s.blOn = some false ↔ s.blPin = some .high)
  ram : Memory.wf s.panel.ram = true
  outputs : pinsWfFrom 0 s.outputs = true
  holds : ∀ ms, Event.hold ms ∈ s.trace → 100 ≤ ms
  refusal : ∀ r, s.lastResult = some (.refused r) → s.refused = true

/-- An event lets the panel see what it appends (R13, R56). -/
theorem State.Records.emit {s : State} (h : s.Records) {e : Event} (he : ∀ ms, e = .hold ms → 100 ≤ ms) :
    (s.emit e).Records where
  projection := by rw [State.emit_panel, State.emit_trace, State.emit_cfg, Panel.project_append, h.projection]
  backlight := h.backlight
  ram := Panel.step_wf h.ram e
  outputs := h.outputs
  holds ms hms := by
    rw [State.emit_trace, List.mem_append, List.mem_singleton] at hms
    rcases hms with hms | rfl
    · exact h.holds ms hms
    · exact he ms rfl
  refusal := h.refusal

theorem records_execStable : ExecStable State.Records where
  call s ev hev h := { h.emit (e := ev s.draw.answer) fun ms he => absurd he (hev _ ms) with }
  dc _ _ h := { h with }
  lastPos _ _ h := { h with }
  contrast _ _ h := { h with }
  backlight _ on h := { h with backlight := by cases on <;> simp [backlightLevel] }
  noBacklight _ h := { h with backlight := by simp }
  hold s h := h.emit fun ms he => by cases he; omega
  pins _ _ h := { h with }
  channel _ _ h := { h with }
  outputs _ p h := { h with outputs := pinsWfFrom_insertPin h.outputs (Nat.zero_le p) }
  rst _ _ h := { h with }
  initialized _ h := { h with }
  finish _ res h := { h with refusal := fun r hr => by cases res <;> cases hr }
  refuse _ _ h := { h with refusal := fun _ _ => rfl }
  wire _ _ h := h.emit fun _ he => by cases he

/-! #### What a piece of an operation ensures

INIT writes `pins`, `channel` and `rst` in turn, so it guarantees them only where it gets to its end. -/

/-- `r` leaves a state in `Q` if it succeeds. -/
def Ran.Ensures {α : Type} (r : Ran α) (Q : State → Prop) : Prop := ∀ a, r.res = .ok a → Q r.st

theorem Ran.Ensures.of_st {α : Type} {r : Ran α} {Q : State → Prop} (h : Q r.st) : r.Ensures Q := fun _ _ => h

theorem Ran.Ensures.andThen {α β : Type} {r : Ran α} {k : α → State → Ran β} {Q R : State → Prop} (h : r.Ensures Q)
    (hk : ∀ a s, Q s → (k a s).Ensures R) : (r.andThen k).Ensures R := by
  obtain ⟨s, res⟩ := r
  cases res with
  | ok a => exact hk a s (h a rfl)
  | error e => exact fun _ hb => by cases hb

theorem attempt_ensures {ev : Answer → Event} {e : Error} {onFail onOk : State → State} {s : State} {Q : State → Prop}
    (h : Q (onOk (s.call ev))) : (attempt ev e onFail onOk s).Ensures Q := by
  unfold attempt
  split
  · exact fun _ _ => h
  · exact fun _ hb => by cases hb

/-! #### The initialized engine (R29, R115) -/

/-- `pins` and `channel` are known. -/
def State.Attached (s : State) : Prop := s.pins.isSome = true ∧ s.channel.isSome = true

/-- What an initialized engine keeps: its handle (R115), and its reset line HIGH (R29). -/
def State.Powered (s : State) : Prop := s.Attached ∧ s.rst = some .high

/-- The clauses of `State.Inv` that wait for the initialized phase. -/
def State.Booted (s : State) : Prop := s.phase = .initialized → s.Powered

theorem State.booted_of_uninitialized {s : State} (h : s.phase = .uninitialized) : s.Booted := fun hi => by
  rw [h] at hi
  cases hi

theorem State.inv_iff (s : State) : s.Inv ↔ s.Records ∧ s.Booted := by
  constructor
  · intro h
    exact ⟨{ h with }, fun hi => ⟨h.handle hi, h.resetLine hi⟩⟩
  · rintro ⟨hrecords, hbooted⟩
    exact { hrecords with handle := fun hi => (hbooted hi).1, resetLine := fun hi => (hbooted hi).2 }

/-- No operation of an initialized engine writes the phase, the handle or the reset line. -/
theorem booted_engineStable : EngineStable State.Booted where
  call _ _ _ h := h
  dc _ _ h := h
  lastPos _ _ h := h
  contrast _ _ h := h
  backlight _ _ h := h
  noBacklight _ h := h

theorem powered_engineStable : EngineStable State.Powered where
  call _ _ _ h := h
  dc _ _ h := h
  lastPos _ _ h := h
  contrast _ _ h := h
  backlight _ _ h := h
  noBacklight _ h := h

/-- What the `PinMode` loop keeps (R111): each turn makes one call and may add a pin. -/
theorem setOutputs_keeps_of {P : State → Prop} (hcall : ∀ s p, P s → P (s.call (.pinMode p)))
    (houtputs : ∀ s p, P s → P { s with outputs := insertPin p s.outputs }) (ps : List Pin) (s : State) (hs : P s) :
    P (setOutputs ps s).st := by
  induction ps generalizing s with
  | nil => exact hs
  | cons p ps ih =>
    exact Ran.andThen_keeps (attempt_keeps (hcall s p hs) (fun _ h => h) (fun t => houtputs t p)) fun _ t ht => ih t ht

/-- A CONFIGURE that succeeds has set `pins` and `channel` (R111). -/
theorem configureBody_ensures (pins : PinMap) (s : State) : (configureBody pins s).Ensures State.Attached :=
  Ran.Ensures.andThen (Q := fun t => t.pins.isSome = true) (attempt_ensures rfl) fun _ _ hpins =>
    Ran.Ensures.andThen (Q := State.Attached) (attempt_ensures ⟨hpins, rfl⟩) fun _ v hv =>
      Ran.Ensures.andThen (Q := State.Attached)
        (.of_st (setOutputs_keeps_of (fun _ _ h => h) (fun _ _ h => h) _ v hv)) fun _ _ hw => .of_st hw

/-- An INIT that succeeds leaves a powered engine (R150). -/
theorem initBody_ensures (pins : PinMap) (contrast : Byte) (s : State) :
    (initBody pins contrast s).Ensures State.Powered :=
  (configureBody_ensures pins s).andThen fun h _ ht =>
    Ran.Ensures.andThen (Q := State.Attached) (attempt_ensures ht) fun _ _ hu =>
      Ran.Ensures.andThen (Q := State.Powered) (attempt_ensures ⟨hu, rfl⟩) fun _ v hv =>
        Ran.Ensures.andThen (Q := State.Powered)
          (.of_st (sendContrast_keeps powered_engineStable h contrast v hv)) fun _ w hw =>
            Ran.Ensures.andThen (Q := State.Powered)
              (.of_st (clearBody_keeps powered_engineStable h w hw)) fun _ _ hx => .of_st hx

/-- Every instruction but INIT and CONFIGURE keeps what the moves of an initialized engine, an ending, a refusal and the
wire rows keep. -/
theorem exec_keeps_of_operation {P : State → Prop} (hP : EngineStable P) (hfinish : ∀ s res, P s → P (s.finish res))
    (hrefuse : ∀ s r, P s → P (s.refuse r)) (hwire : ∀ s op, P s → P (s.emit (.wire op))) {i : Instr} {s t : State}
    (hinit : ∀ pins contrast, i ≠ .init pins contrast) (hconf : ∀ pins, i ≠ .configure pins)
    (h : exec i s = .next t) (hs : P s) : P t := by
  cases i with
  | init pins contrast => exact absurd rfl (hinit pins contrast)
  | configure pins => exact absurd rfl (hconf pins)
  | cmd => exact operate_keeps hfinish hrefuse (fun _ a => frame_keeps hP a _ _ _) hs ((exec_cmd ..).symm.trans h)
  | data => exact operate_keeps hfinish hrefuse (fun _ a => frame_keeps hP a _ _ _) hs ((exec_data ..).symm.trans h)
  | backlight on =>
    exact operate_keeps hfinish hrefuse (fun _ pins => driveBacklight_keeps hP on pins) hs
      ((exec_backlight ..).symm.trans h)
  | setpos =>
    exact operate_keeps hfinish hrefuse (fun p a => setPositionBody_keeps hP a p) hs ((exec_setpos ..).symm.trans h)
  | locate =>
    exact operate_keeps hfinish hrefuse (fun p a => setPositionBody_keeps hP a p) hs ((exec_locate ..).symm.trans h)
  | cls => exact operate_keeps hfinish hrefuse (fun _ a => clearBody_keeps hP a) hs ((exec_cls ..).symm.trans h)
  | contrast value =>
    exact operate_keeps hfinish hrefuse (fun _ a => sendContrast_keeps hP a value) hs
      ((exec_contrast ..).symm.trans h)
  | text _ _ chars =>
    exact operate_keeps hfinish hrefuse
      (fun p a u hu => Ran.andThen_keeps (setPositionBody_keeps hP a p u hu) fun _ => drawChars_keeps hP a chars) hs
      ((exec_text ..).symm.trans h)
  | setBank | setSegment | functionSetExtended | cmd0x14 | setVop | functionSetNormal | displayControlNormal
  | dataByte | positionSequence | contrastSequence =>
    obtain ⟨op, rfl⟩ := exec_wire rfl h
    exact hwire s op hs

/-- INIT ends powered, or in the phase it began in (R150). -/
theorem exec_init_booted {pins : PinMap} {contrast : Byte} {s t : State} (h : exec (.init pins contrast) s = .next t)
    (hs : s.Booted) : t.Booted := by
  cases hp : s.phase with
  | uninitialized =>
    rw [exec_init_uninitialized hp] at h
    cases h
    rcases initBody_ok_or_keeps (phase_bootStable .uninitialized) pins contrast s hp with hok | hkept
    · exact fun _ => initBody_ensures pins contrast s () hok
    · exact State.booted_of_uninitialized hkept
  | initialized =>
    rw [exec_init_initialized hp] at h
    cases h
    exact hs

/-- CONFIGURE is refused in an initialized engine, and leads to none (R111). -/
theorem exec_configure_booted {pins : PinMap} {s t : State} (h : exec (.configure pins) s = .next t)
    (hs : s.Booted) : t.Booted := by
  cases hp : s.phase with
  | uninitialized => exact State.booted_of_uninitialized (exec_uninitialized_of_ne_init hp (by simp) h)
  | initialized =>
    rw [exec_configure_initialized hp] at h
    cases h
    exact hs

theorem exec_booted {i : Instr} {s t : State} (h : exec i s = .next t) (hs : s.Booted) : t.Booted := by
  by_cases hinit : ∃ pins contrast, i = .init pins contrast
  · obtain ⟨pins, contrast, rfl⟩ := hinit
    exact exec_init_booted h hs
  by_cases hconf : ∃ pins, i = .configure pins
  · obtain ⟨pins, rfl⟩ := hconf
    exact exec_configure_booted h hs
  · exact exec_keeps_of_operation booted_engineStable (fun _ _ hu => hu) (fun _ _ hu => hu) (fun _ _ hu => hu)
      (fun pins contrast e => hinit ⟨pins, contrast, e⟩) (not_exists.mp hconf) h hs

/-- Every instruction keeps the invariant: the records at every move, the powered engine at its end. -/
theorem exec_inv {i : Instr} {s t : State} (h : exec i s = .next t) (hs : s.Inv) : t.Inv := by
  obtain ⟨hrecords, hbooted⟩ := s.inv_iff.mp hs
  exact t.inv_iff.mpr ⟨exec_keeps records_execStable hrecords h, exec_booted h hbooted⟩

/-- The invariant speaks of the engine's side of the state. -/
theorem State.Inv.of_sameEngine {s t : State} (h : s.SameEngine t) (hs : s.Inv) : t.Inv := by
  obtain ⟨_, _, _, _, _, rfl⟩ := h
  exact { hs with }

theorem State.Inv.refuse {s : State} (hs : s.Inv) (r : Reason) : (s.refuse r).Inv :=
  { hs with refusal := fun _ _ => rfl }

theorem State.Inv.wire {s : State} (hs : s.Inv) (op : WireOp) : (s.emit (.wire op)).Inv := by
  obtain ⟨hrecords, hbooted⟩ := s.inv_iff.mp hs
  exact (State.inv_iff _).mpr ⟨records_execStable.wire s op hrecords, hbooted⟩

/-- Settles O3: fetching, the instruction and retiring each keep the invariant. -/
theorem everyStepKeepsTheInvariant : Obligations.EveryStepKeepsTheInvariant := by
  unfold Obligations.EveryStepKeepsTheInvariant
  intro s t hs h
  exact step_keeps_of_exec (fun _ _ hsame hu => hu.of_sameEngine hsame) (fun _ r hu => hu.refuse r)
    (fun _ op hu => hu.wire op) (fun _ _ _ hrun hu => exec_inv hrun hu) h hs

end Sys2Proof.Machine

/-! ### The engine and the frame memory: commands write none of it, and no operation reads the panel -/

namespace Sys2Proof.Machine

variable {wrap : Option (Segment × Bank)}

/-! #### Commands and the frame memory (R56) -/

/-- Two panels that list the same bytes have the same cells. -/
theorem Panel.cell_congr {p q : Panel} (h : q.ram = p.ram) (b : Bank) (s : Segment) : q.cell b s = p.cell b s := by
  rw [Panel.cell_eq, Panel.cell_eq, h]

theorem Panel.step_command_ram (p : Panel) (ch : ChannelHandle) (bs : List Byte) {kind : Kind}
    (hkind : kind.isCommand = true) (a : Answer) : (p.step wrap (.serial ch bs kind a)).ram = p.ram := by
  cases a with
  | ok =>
    cases kind with
    | cmdPos | cmdContrast | cmdRaw => rfl
    | dataClear | dataGlyph | dataRaw => cases hkind
  | fail => simp [Panel.step, Panel.serialFailed, hkind, Panel.forgetRegisters]

/-- A write of another pin than the reset line is nothing to the panel (R56, R58). -/
theorem Panel.step_write {role : Role} (hrole : role ≠ .reset) (p : Panel) (pin : Pin) (level : Level) (a : Answer) :
    p.step wrap (.write pin level role a) = p := by
  cases role with
  | reset => exact absurd rfl hrole
  | dc | backlight => cases level <;> cases a <;> rfl

/-- `t` lists the same bytes in the panel's frame memory as `s`. -/
def State.SameRam (s t : State) : Prop := t.panel.ram = s.panel.ram

section

variable {s t : State}

theorem State.SameRam.call (h : s.SameRam t) {ev : Answer → Event}
    (hev : ∀ a, (t.panel.step t.cfg.panelLastWrap (ev a)).ram = t.panel.ram) : s.SameRam (t.call ev) :=
  (hev t.draw.answer).trans h

/-- The write of the D/C line and a command transfer leave the memory alone, and data goes out in neither. -/
theorem frame_command_sameRam (h : Handle) (bytes : List Byte) {kind : Kind} (hkind : kind.isCommand = true)
    (ht : s.SameRam t) : s.SameRam (frame h true bytes kind t).st :=
  Ran.andThen_keeps
    (attempt_keeps (ht.call fun a => congrArg Panel.ram (Panel.step_write (by simp) _ _ _ a)) (fun _ hu => hu)
      fun _ hu => hu)
    fun _ _ hu => attempt_keeps (hu.call fun a => Panel.step_command_ram _ _ _ hkind a) (fun _ hv => hv) fun _ hv => hv

theorem setPositionBody_sameRam (h : Handle) (p : Segment × Bank) (ht : s.SameRam t) :
    s.SameRam (setPositionBody h p t).st :=
  Ran.andThen_keeps (Ran.onError_keeps (frame_command_sameRam h _ rfl ht) fun _ hu => hu) fun _ _ hu => hu

theorem sendContrast_sameRam (h : Handle) (value : Byte) (ht : s.SameRam t) : s.SameRam (sendContrast h value t).st :=
  Ran.andThen_keeps (Ran.onError_keeps (frame_command_sameRam h _ rfl ht) fun _ hu => hu) fun _ _ hu => hu

theorem driveBacklight_sameRam (on : Bool) (pins : PinMap) (ht : s.SameRam t) :
    s.SameRam (driveBacklight on pins t).st :=
  attempt_keeps (ht.call fun a => congrArg Panel.ram (Panel.step_write (by simp) _ _ _ a)) (fun _ hu => hu)
    fun _ hu => hu

/-- The calls of CONFIGURE (R111) are none of the panel's. -/
theorem configureBody_sameRam (pins : PinMap) (s : State) : s.SameRam (configureBody pins s).st :=
  Ran.andThen_keeps (P := s.SameRam) (attempt_keeps rfl (fun _ hu => hu) fun _ hu => hu) fun _ _ hu =>
    Ran.andThen_keeps (attempt_keeps hu (fun _ hv => hv) fun _ hv => hv) fun _ v hv =>
      Ran.andThen_keeps (setOutputs_keeps_of (fun _ _ hw => hw) (fun _ _ hw => hw) _ v hv) fun _ _ hw => hw

theorem exec_configure_sameRam {pins : PinMap} (h : exec (.configure pins) s = .next t) : s.SameRam t := by
  cases hp : s.phase with
  | uninitialized =>
    rw [exec_configure_uninitialized hp] at h
    cases h
    exact Ran.andThen_keeps (P := s.SameRam) (configureBody_sameRam pins s) fun _ _ hu => hu
  | initialized =>
    rw [exec_configure_initialized hp] at h
    cases h
    rfl

theorem operate_sameRam {α β : Type} {check : Except Error β} {read : State → Except Fault α}
    {body : β → α → State → Ran Unit} (hbody : ∀ b a u, s.SameRam u → s.SameRam (body b a u).st)
    (h : operate check read body s = .next t) : s.SameRam t :=
  operate_keeps (fun _ _ hu => hu) (fun _ _ hu => hu) hbody rfl h

end

/-- Settles O40: no call of these six operations is a data transfer or a write of the reset line. -/
theorem commandsLeaveTheFrameMemory : Obligations.CommandsLeaveTheFrameMemory := by
  unfold Obligations.CommandsLeaveTheFrameMemory
  intro s t i h hi
  suffices hram : s.SameRam t from Panel.cell_congr hram
  rcases hi with ⟨bs, rfl⟩ | ⟨on, rfl⟩ | ⟨a, b, rfl⟩ | ⟨a, b, rfl⟩ | ⟨v, rfl⟩ | ⟨pins, rfl⟩
  · rw [exec_cmd] at h
    exact operate_sameRam (fun _ a _ => frame_command_sameRam a bs rfl) h
  · rw [exec_backlight] at h
    exact operate_sameRam (fun _ pins _ => driveBacklight_sameRam on pins) h
  · rw [exec_setpos] at h
    exact operate_sameRam (fun p a _ => setPositionBody_sameRam a p) h
  · rw [exec_locate] at h
    exact operate_sameRam (fun p a _ => setPositionBody_sameRam a p) h
  · rw [exec_contrast] at h
    exact operate_sameRam (fun _ a _ => sendContrast_sameRam a v) h
  · exact exec_configure_sameRam h

/-! #### The engine does not see the panel (R6, R71) -/

def State.withPanel (s : State) (q : Panel) : State := { s with panel := q }

@[simp] theorem State.withPanel_cfg (s : State) (q : Panel) : (s.withPanel q).cfg = s.cfg := rfl

/-- `r'` ends as `r` does, but for the panel. -/
def Ran.SameButPanel {α : Type} (r r' : Ran α) : Prop := r'.res = r.res ∧ ∃ q, r'.st = r.st.withPanel q

theorem Ran.SameButPanel.andThen {α β : Type} {r r' : Ran α} {k k' : α → State → Ran β} (h : r.SameButPanel r')
    (hk : ∀ a s q, (k a s).SameButPanel (k' a (s.withPanel q))) : (r.andThen k).SameButPanel (r'.andThen k') := by
  obtain ⟨s, res⟩ := r
  obtain ⟨t, res'⟩ := r'
  obtain ⟨hres, q, hst⟩ : res' = res ∧ ∃ q, t = s.withPanel q := h
  subst hres hst
  cases res' with
  | ok a => exact hk a s q
  | error e => exact ⟨rfl, q, rfl⟩

theorem Ran.SameButPanel.onError {α : Type} {r r' : Ran α} {clean : State → State} (h : r.SameButPanel r')
    (hclean : ∀ s q, clean (s.withPanel q) = (clean s).withPanel q) :
    (r.onError clean).SameButPanel (r'.onError clean) := by
  obtain ⟨s, res⟩ := r
  obtain ⟨t, res'⟩ := r'
  obtain ⟨hres, q, hst⟩ : res' = res ∧ ∃ q, t = s.withPanel q := h
  subst hres hst
  cases res' with
  | ok a => exact ⟨rfl, q, rfl⟩
  | error e => exact ⟨rfl, q, hclean s q⟩

theorem Ran.SameButPanel.finish {r r' : Ran Unit} (h : r.SameButPanel r') :
    ∃ q, r'.finish = r.finish.withPanel q := by
  obtain ⟨hres, q, hst⟩ := h
  exact ⟨q, by rw [Ran.finish, Ran.finish, hres, hst]; rfl⟩

/-- A backend call draws from the script, and the event it appends is the same. -/
theorem attempt_sameButPanel {ev : Answer → Event} {e : Error} {onFail onOk : State → State}
    (hfail : ∀ s q, onFail (s.withPanel q) = (onFail s).withPanel q)
    (hok : ∀ s q, onOk (s.withPanel q) = (onOk s).withPanel q) (s : State) (q : Panel) :
    (attempt ev e onFail onOk s).SameButPanel (attempt ev e onFail onOk (s.withPanel q)) := by
  have hdraw : (s.withPanel q).draw = s.draw := rfl
  unfold attempt
  rw [hdraw]
  split
  · exact ⟨rfl, _, hok (s.call ev) _⟩
  · exact ⟨rfl, _, hfail (s.call ev) _⟩

theorem frame_sameButPanel (h : Handle) (isCmd : Bool) (bytes : List Byte) (kind : Kind) (s : State) (q : Panel) :
    (frame h isCmd bytes kind s).SameButPanel (frame h isCmd bytes kind (s.withPanel q)) :=
  .andThen (attempt_sameButPanel (fun _ _ => rfl) (fun _ _ => rfl) s q) fun _ =>
    attempt_sameButPanel (fun _ _ => rfl) fun _ _ => rfl

theorem setPositionBody_sameButPanel (h : Handle) (p : Segment × Bank) (s : State) (q : Panel) :
    (setPositionBody h p s).SameButPanel (setPositionBody h p (s.withPanel q)) :=
  .andThen (.onError (frame_sameButPanel h _ _ _ s q) fun _ _ => rfl) fun _ _ q => ⟨rfl, q, rfl⟩

theorem clearBody_sameButPanel (h : Handle) (s : State) (q : Panel) :
    (clearBody h s).SameButPanel (clearBody h (s.withPanel q)) :=
  .andThen (setPositionBody_sameButPanel h _ s q) fun _ t q =>
    .andThen (.onError (frame_sameButPanel h _ _ _ t q) fun _ _ => rfl) fun _ => setPositionBody_sameButPanel h _

theorem sendContrast_sameButPanel (h : Handle) (value : Byte) (s : State) (q : Panel) :
    (sendContrast h value s).SameButPanel (sendContrast h value (s.withPanel q)) :=
  .andThen (.onError (frame_sameButPanel h _ _ _ s q) fun _ _ => rfl) fun _ _ q => ⟨rfl, q, rfl⟩

theorem drawChars_sameButPanel (h : Handle) (chars : List CharCode) (s : State) (q : Panel) :
    (drawChars h chars s).SameButPanel (drawChars h chars (s.withPanel q)) := by
  induction chars generalizing s q with
  | nil => exact ⟨rfl, q, rfl⟩
  | cons c cs ih =>
    unfold drawChars
    rw [State.withPanel_cfg]
    split
    · exact ⟨rfl, q, rfl⟩
    · exact .andThen (.onError (frame_sameButPanel h _ _ _ s q) fun _ _ => rfl) fun _ => ih

theorem driveBacklight_sameButPanel (on : Bool) (pins : PinMap) (s : State) (q : Panel) :
    (driveBacklight on pins s).SameButPanel (driveBacklight on pins (s.withPanel q)) :=
  attempt_sameButPanel (fun _ _ => rfl) (fun _ _ => rfl) s q

theorem driveReset_sameButPanel (pins : PinMap) (level : Level) (s : State) (q : Panel) :
    (driveReset pins level s).SameButPanel (driveReset pins level (s.withPanel q)) :=
  attempt_sameButPanel (fun _ _ => rfl) (fun _ _ => rfl) s q

theorem setOutputs_sameButPanel (ps : List Pin) (s : State) (q : Panel) :
    (setOutputs ps s).SameButPanel (setOutputs ps (s.withPanel q)) := by
  induction ps generalizing s q with
  | nil => exact ⟨rfl, q, rfl⟩
  | cons p ps ih => exact .andThen (attempt_sameButPanel (fun _ _ => rfl) (fun _ _ => rfl) s q) fun _ => ih

theorem configureBody_sameButPanel (pins : PinMap) (s : State) (q : Panel) :
    (configureBody pins s).SameButPanel (configureBody pins (s.withPanel q)) :=
  .andThen (attempt_sameButPanel (fun _ _ => rfl) (fun _ _ => rfl) { s with pins := some pins } q) fun _ t q =>
    .andThen (attempt_sameButPanel (fun _ _ => rfl) (fun _ _ => rfl) t q) fun _ u q =>
      .andThen (setOutputs_sameButPanel _ u q) fun _ _ q => ⟨rfl, q, rfl⟩

theorem initBody_sameButPanel (pins : PinMap) (contrast : Byte) (s : State) (q : Panel) :
    (initBody pins contrast s).SameButPanel (initBody pins contrast (s.withPanel q)) :=
  .andThen (configureBody_sameButPanel pins s q) fun h t q =>
    .andThen (driveReset_sameButPanel pins .low t q) fun _ u q =>
      .andThen (driveReset_sameButPanel pins .high u.hold q) fun _ v q =>
        .andThen (sendContrast_sameButPanel h contrast v q) fun _ w q =>
          .andThen (clearBody_sameButPanel h w q) fun _ _ q => ⟨rfl, q, rfl⟩

section

variable {s t : State}

theorem operate_withPanel {α β : Type} {check : Except Error β} {read : State → Except Fault α}
    {body : β → α → State → Ran Unit} (hread : ∀ q, read (s.withPanel q) = read s)
    (hbody : ∀ b a q, (body b a s).SameButPanel (body b a (s.withPanel q)))
    (h : operate check read body s = .next t) (p : Panel) :
    ∃ q, operate check read body (s.withPanel p) = .next (t.withPanel q) := by
  rcases operate_cases h with ⟨hphase, rfl⟩ | ⟨hphase, e, rfl, rfl⟩ | ⟨hphase, b, a, rfl, ha, rfl⟩
  · exact ⟨p, operate_uninitialized hphase⟩
  · exact ⟨p, operate_checked hphase⟩
  · obtain ⟨q, hq⟩ := (hbody b a p).finish
    have hphase' : (s.withPanel p).phase = .initialized := hphase
    exact ⟨q, by rw [operate_run hphase' ((hread p).trans ha), hq]⟩

theorem exec_init_withPanel {pins : PinMap} {contrast : Byte} (h : exec (.init pins contrast) s = .next t)
    (p : Panel) : ∃ q, exec (.init pins contrast) (s.withPanel p) = .next (t.withPanel q) := by
  cases hphase : s.phase with
  | uninitialized =>
    rw [exec_init_uninitialized hphase] at h
    cases h
    obtain ⟨q, hq⟩ := (initBody_sameButPanel pins contrast s p).finish
    have hphase' : (s.withPanel p).phase = .uninitialized := hphase
    exact ⟨q, by rw [exec_init_uninitialized hphase', hq]⟩
  | initialized =>
    rw [exec_init_initialized hphase] at h
    cases h
    exact ⟨p, exec_init_initialized hphase⟩

theorem exec_configure_withPanel {pins : PinMap} (h : exec (.configure pins) s = .next t) (p : Panel) :
    ∃ q, exec (.configure pins) (s.withPanel p) = .next (t.withPanel q) := by
  cases hphase : s.phase with
  | uninitialized =>
    rw [exec_configure_uninitialized hphase] at h
    cases h
    have hbody : ((configureBody pins s).andThen fun _ t => .done t).SameButPanel
        ((configureBody pins (s.withPanel p)).andThen fun _ t => .done t) :=
      .andThen (configureBody_sameButPanel pins s p) fun _ _ q => ⟨rfl, q, rfl⟩
    obtain ⟨q, hq⟩ := hbody.finish
    have hphase' : (s.withPanel p).phase = .uninitialized := hphase
    exact ⟨q, by rw [exec_configure_uninitialized hphase', hq]⟩
  | initialized =>
    rw [exec_configure_initialized hphase] at h
    cases h
    exact ⟨p, exec_configure_initialized hphase⟩

/-- A host operation does the same before another panel, whatever the backend answers. -/
theorem exec_withPanel {i : Instr} (hi : i.layer = .host) (h : exec i s = .next t) (p : Panel) :
    ∃ q, exec i (s.withPanel p) = .next (t.withPanel q) := by
  cases i with
  | init => exact exec_init_withPanel h p
  | configure => exact exec_configure_withPanel h p
  | cmd =>
    rw [exec_cmd] at h ⊢
    exact operate_withPanel (fun _ => rfl) (fun _ a => frame_sameButPanel a _ _ _ s) h p
  | data =>
    rw [exec_data] at h ⊢
    exact operate_withPanel (fun _ => rfl) (fun _ a => frame_sameButPanel a _ _ _ s) h p
  | backlight on =>
    rw [exec_backlight] at h ⊢
    exact operate_withPanel (fun _ => rfl) (fun _ pins => driveBacklight_sameButPanel on pins s) h p
  | setpos =>
    rw [exec_setpos] at h ⊢
    exact operate_withPanel (fun _ => rfl) (fun b a => setPositionBody_sameButPanel a b s) h p
  | locate =>
    rw [exec_locate] at h ⊢
    exact operate_withPanel (fun _ => rfl) (fun b a => setPositionBody_sameButPanel a b s) h p
  | cls =>
    rw [exec_cls] at h ⊢
    exact operate_withPanel (fun _ => rfl) (fun _ a => clearBody_sameButPanel a s) h p
  | contrast value =>
    rw [exec_contrast] at h ⊢
    exact operate_withPanel (fun _ => rfl) (fun _ a => sendContrast_sameButPanel a value s) h p
  | text _ _ chars =>
    rw [exec_text] at h ⊢
    exact operate_withPanel (fun _ => rfl)
      (fun b a q => .andThen (setPositionBody_sameButPanel a b s q) fun _ => drawChars_sameButPanel a chars) h p
  | setBank | setSegment | functionSetExtended | cmd0x14 | setVop | functionSetNormal | displayControlNormal
  | dataByte | positionSequence | contrastSequence => cases hi

end

/-- Settles O41: a panel put in another's place is one the operation never looks at. -/
theorem engineNeverReadsThePanel : Obligations.EngineNeverReadsThePanel := by
  unfold Obligations.EngineNeverReadsThePanel
  intro s t i p hi h
  exact exec_withPanel hi h p

end Sys2Proof.Machine

/-! ### The panel: data bytes, transfers and the wire rows -/

namespace Sys2Proof.Machine

variable {wrap : Option (Segment × Bank)}

/-! #### Data bytes and successful transfers (R52 to R56, R58) -/

theorem Panel.cell_of_ram_nil {p : Panel} (h : p.ram = []) (b : Bank) (s : Segment) : p.cell b s = none := by
  rw [Panel.cell_eq, h, Memory.read_nil]

/-- The cell at the cursor takes the byte (R54). -/
theorem Panel.dataByte_cell_same {p : Panel} {segment : Segment} {bank : Bank} (h : p.cursor = some (segment, bank))
    (v : Byte) : (p.dataByte wrap v).cell bank segment = some v := by
  rw [Panel.dataByte_known h, Panel.cell_eq, Memory.read_write_same]

/-- Every other cell stays. -/
theorem Panel.dataByte_cell_other {p : Panel} {segment : Segment} {bank : Bank} (h : p.cursor = some (segment, bank))
    (v : Byte) {b : Bank} {s : Segment} (hne : ¬ (b = bank ∧ s = segment)) :
    (p.dataByte wrap v).cell b s = p.cell b s := by
  rw [Panel.dataByte_known h, Panel.cell_eq, Panel.cell_eq]
  exact Memory.read_write_other _ _ fun haddress => hne (cellAddress_inj haddress)

theorem Panel.dataByte_cursor {p : Panel} {c : Segment × Bank} (h : p.cursor = some c) (v : Byte) :
    (p.dataByte wrap v).cursor = nextCell wrap c := by
  rw [Panel.dataByte_known h]

/-- Settles O42: the cell written is the cursor's, and the cursor's three ways on are those of `nextCell`. -/
theorem dataByteWritesAndAdvances : Obligations.DataByteWritesAndAdvances := by
  unfold Obligations.DataByteWritesAndAdvances
  refine ⟨rfl, fun wrap p v => ⟨fun segment bank hcursor => ?_, fun hcursor => ?_⟩⟩
  · have hnext := Panel.dataByte_cursor (wrap := wrap) hcursor v
    refine ⟨Panel.dataByte_cell_same hcursor v, fun b s hne => ?_, fun s hs => ?_, fun b hend hb => ?_,
      fun hend hlast => ?_⟩
    · exact Panel.dataByte_cell_other hcursor v fun ⟨hb, hs⟩ => hne (by rw [hb, hs])
    · rw [hnext, nextCell_inside bank (by omega)]
      simp [Fin.ext_iff, hs]
    · rw [hnext, nextCell_bankEnd hend (by omega)]
      simp [Fin.ext_iff, hb]
    · rw [hnext, nextCell_frameEnd hend hlast]
  · rw [Panel.dataByte_unknown hcursor]
    exact ⟨Panel.cell_of_ram_nil rfl, hcursor⟩

/-- Pixel `(x, y)` is a bit of the cell in column `x` of the bank that holds row `y` (R52). -/
theorem Panel.pixel_eq (p : Panel) (x : Segment) {y : Fin 48} {bank : Bank} (h : y.val / 8 = bank.val) :
    p.pixel x y = (p.cell bank x).map fun v => v.getLsbD (y.val % 8) := by
  have hbank : (⟨y.val / 8, by omega⟩ : Bank) = bank := Fin.ext h
  rw [Panel.pixel, hbank]

/-- Settles O43: a pixel is a bit of its cell, and the byte writes one cell. -/
theorem dataByteSetsEightPixels : Obligations.DataByteSetsEightPixels := by
  unfold Obligations.DataByteSetsEightPixels
  intro wrap p v segment bank x y hcursor
  constructor
  · rintro ⟨rfl, hbank⟩
    rw [Panel.pixel_eq _ x hbank, Panel.dataByte_cell_same hcursor, Option.map_some]
  · intro hne
    rw [Panel.pixel, Panel.pixel, Panel.dataByte_cell_other hcursor]
    rintro ⟨hbank, hx⟩
    exact hne ⟨hx, congrArg Fin.val hbank⟩

/-- A raw data write of a ready engine whose two calls succeed (R110, R113). -/
theorem exec_data_ok {s : State} {h : Handle} (hready : s.Ready h) (hok : s.AnswersOk 2) (bs : List Byte) :
    exec (.data bs) s = .next ({ s.afterEvents (transferEvents s.cfg h false bs .dataRaw) 2 with
      dc := some (dcLevel s.cfg false) }.finish (.ok ())) := by
  have hhandle : s.readHandle = .ok h := hready.readHandle
  obtain ⟨hphase, -, -⟩ := hready
  rw [exec_data, operate_run hphase hhandle, frame_ok hok, Ran.finish_mk]

/-- To the panel a successful data transfer is its bytes, and the end of any command sequence (log entry 22). -/
theorem Panel.transferEvents_data (c : Config) (h : Handle) (bs : List Byte) (p : Panel) :
    (transferEvents c h false bs .dataRaw).foldl (Panel.step wrap) p = { p.dataBytes wrap bs with seq := .idle } := by
  rw [transferEvents, List.foldl_cons, Panel.step_write (by simp)]
  rfl

/-- Settles O44: the write ends with the bytes at the panel, where `Panel.dataBytes_spec` says what they do. -/
theorem rawDataLandsAtTheCursor : Obligations.RawDataLandsAtTheCursor := by
  unfold Obligations.RawDataLandsAtTheCursor
  intro s t h bs segment bank hready hok hcursor hfit hexec
  rw [exec_data_ok hready hok] at hexec
  cases hexec
  refine ⟨rfl, fun b x => ?_⟩
  obtain ⟨hwritten, hkept, -⟩ := Panel.dataBytes_spec (wrap := s.cfg.panelLastWrap) bs hcursor hfit
  simp only at hwritten hkept
  simp only [State.finish_panel, State.afterEvents_panel, Panel.transferEvents_data, Panel.cell_eq]
  split
  · have hlands := hwritten (cellAddress b x - cellAddress bank segment) (by omega)
    rwa [Nat.add_sub_of_le (by omega), ← List.getElem?_eq_getElem] at hlands
  · exact hkept _ (by omega)

/-- Settles O45: each kind of command transfer is one of the panel's register updates. -/
theorem commandTransfersSetThePanelRegisters : Obligations.CommandTransfersSetThePanelRegisters := by
  unfold Obligations.CommandTransfersSetThePanelRegisters
  intro wrap p ch bs
  refine ⟨fun segment bank => ⟨fun hmode hsegment => ?_, fun hout => ?_, rfl, rfl, rfl, rfl⟩,
    fun v => ⟨rfl, rfl, rfl, rfl, rfl⟩, rfl, rfl, rfl, rfl, rfl⟩
  · exact if_pos ⟨hmode, hsegment⟩
  · refine if_neg fun ⟨hmode, hsegment⟩ => ?_
    rcases hout with hout | hout
    · exact hout hmode
    · omega

/-- A write of the reset pin that drives it LOW or fails is a reset pulse (R58). -/
theorem Panel.step_reset (p : Panel) (pin : Pin) {level : Level} {answer : Answer} (h : level = .low ∨ answer = .fail) :
    p.step wrap (.write pin level .reset answer) = p.resetPulse := by
  rcases h with rfl | rfl
  · cases answer <;> rfl
  · cases level <;> rfl

/-- Settles O47: such a write is a reset pulse, which leaves nothing known. -/
theorem resetPulseForgetsThePanel : Obligations.ResetPulseForgetsThePanel := by
  unfold Obligations.ResetPulseForgetsThePanel
  intro wrap p pin level answer h
  rw [Panel.step_reset p pin h]
  exact ⟨Panel.cell_of_ram_nil rfl, rfl, rfl, rfl, rfl⟩

/-! #### A failed data transfer (R57; log entry 13) -/

/-- `path` is the way of the cursor (R55), until it is unknown. -/
def IsPath (wrap : Option (Segment × Bank)) (path : Nat → Option (Segment × Bank)) : Prop :=
  ∀ k, path (k + 1) = (path k).bind (nextCell wrap)

theorem IsPath.tail {path : Nat → Option (Segment × Bank)} (h : IsPath wrap path) :
    IsPath wrap fun k => path (k + 1) := fun k => h (k + 1)

/-- One position of a known path. -/
theorem forgetPath_succ {path : Nat → Option (Segment × Bank)} (h : IsPath wrap path) {c : Segment × Bank}
    (hc : path 0 = some c) (n : Nat) (m : Memory) :
    forgetPath wrap (n + 1) (path 0) m = forgetPath wrap n (path 1) (Memory.forget (cellAddress c.2 c.1) m) := by
  rw [h 0, hc]
  rfl

/-- A path that leaves the known makes every cell unknown. -/
theorem forgetPath_eq_nil {n : Nat} {path : Nat → Option (Segment × Bank)} (h : IsPath wrap path) {k : Nat} (hk : k < n)
    (hnone : path k = none) (m : Memory) : forgetPath wrap n (path 0) m = [] := by
  induction n generalizing path k m with
  | zero => omega
  | succ n ih =>
    cases hc : path 0 with
    | none => rfl
    | some c =>
      rw [← hc, forgetPath_succ h hc]
      cases k with
      | zero => rw [hc] at hnone; cases hnone
      | succ k => exact ih h.tail (by omega) hnone _

/-- What is unknown stays so. -/
theorem forgetPath_read_none (n : Nat) (c : Option (Segment × Bank)) {m : Memory} (hm : Memory.wf m = true) {a : Nat}
    (h : Memory.read m a = none) : Memory.read (forgetPath wrap n c m) a = none := by
  induction n generalizing c m with
  | zero => exact h
  | succ n ih =>
    cases c with
    | none => rfl
    | some c =>
      refine ih _ (Memory.wf_forget hm _) ?_
      by_cases ha : a = cellAddress c.2 c.1
      · rw [ha]
        exact Memory.read_forget_same hm _
      · rw [Memory.read_forget_other m ha, h]

/-- The cells on a path become unknown. -/
theorem forgetPath_read_on {n : Nat} {path : Nat → Option (Segment × Bank)} (h : IsPath wrap path) {m : Memory}
    (hm : Memory.wf m = true) {k : Nat} (hk : k < n) {d : Segment × Bank} (hd : path k = some d) :
    Memory.read (forgetPath wrap n (path 0) m) (cellAddress d.2 d.1) = none := by
  induction n generalizing path k m with
  | zero => omega
  | succ n ih =>
    cases hc : path 0 with
    | none => rfl
    | some c =>
      rw [← hc, forgetPath_succ h hc]
      cases k with
      | zero =>
        obtain rfl : c = d := Option.some.inj (hc.symm.trans hd)
        exact forgetPath_read_none _ _ (Memory.wf_forget hm _) (Memory.read_forget_same hm _)
      | succ k => exact ih h.tail (Memory.wf_forget hm _) (by omega) hd

/-- The cells off a path that stays known are kept. -/
theorem forgetPath_read_off {n : Nat} {path : Nat → Option (Segment × Bank)} (h : IsPath wrap path)
    (hknown : ∀ k, k < n → path k ≠ none) {b : Bank} {s : Segment} (hoff : ∀ k, k < n → path k ≠ some (s, b))
    (m : Memory) :
    Memory.read (forgetPath wrap n (path 0) m) (cellAddress b s) = Memory.read m (cellAddress b s) := by
  induction n generalizing path m with
  | zero => rfl
  | succ n ih =>
    obtain ⟨c, hc⟩ := Option.ne_none_iff_exists'.mp (hknown 0 (by omega))
    rw [forgetPath_succ h hc, ih h.tail (fun k hk => hknown (k + 1) (by omega)) fun k hk => hoff (k + 1) (by omega)]
    refine Memory.read_forget_other m fun haddress => hoff 0 (by omega) ?_
    obtain ⟨hb, hs⟩ := cellAddress_inj haddress
    rw [hc, hb, hs]

/-- A failed command transfer is `forgetRegisters` (R57). -/
theorem Panel.step_failed_command (p : Panel) (ch : ChannelHandle) (bs : List Byte) {kind : Kind}
    (h : kind.isCommand = true) : p.step wrap (.serial ch bs kind .fail) = p.forgetRegisters :=
  if_pos h

theorem Panel.step_failed_data (p : Panel) (ch : ChannelHandle) (bs : List Byte) {kind : Kind}
    (h : kind.isCommand = false) :
    p.step wrap (.serial ch bs kind .fail) = { p.dataFailed wrap bs.length with seq := .idle } :=
  if_neg (by rw [h]; decide)

/-- A failed data transfer loses the cursor and no other register (R57). -/
theorem Panel.dataFailed_registers (p : Panel) (n : Nat) :
    (p.dataFailed wrap n).cursor = none ∧ (p.dataFailed wrap n).mode = p.mode ∧ (p.dataFailed wrap n).vop = p.vop ∧
      (p.dataFailed wrap n).display = p.display := by
  unfold Panel.dataFailed
  split
  · exact ⟨rfl, rfl, rfl, rfl⟩
  · exact ⟨‹_›, rfl, rfl, rfl⟩

theorem Panel.dataFailed_ram_known {p : Panel} {c : Segment × Bank} (h : p.cursor = some c) (n : Nat) :
    (p.dataFailed wrap n).ram = forgetPath wrap n (some c) p.ram := by
  simp [Panel.dataFailed, h]

theorem Panel.dataFailed_ram_unknown {p : Panel} (h : p.cursor = none) (n : Nat) :
    (p.dataFailed wrap n).ram = [] := by
  simp [Panel.dataFailed, h]

/-- Settles O46: a failed data transfer forgets along the cursor's path, and `forgetPath` forgets the cells on it, or
everything where the path is lost. -/
theorem failedTransfersForget : Obligations.FailedTransfersForget := by
  unfold Obligations.FailedTransfersForget
  intro wrap p ch bs kind hwf
  refine ⟨fun hkind => ?_, fun hkind => ?_⟩
  · rw [Panel.step_failed_command p ch bs hkind]
    exact ⟨rfl, rfl, rfl, rfl, fun _ _ => rfl⟩
  · rw [Panel.step_failed_data p ch bs hkind]
    obtain ⟨hcursor, hmode, hvop, hdisplay⟩ := Panel.dataFailed_registers (wrap := wrap) p bs.length
    refine ⟨hcursor, hmode, hvop, hdisplay, fun hnone => ?_, fun c hc path hstart hpath => ?_⟩
    · exact Panel.cell_of_ram_nil (Panel.dataFailed_ram_unknown hnone _)
    · have hram : (p.dataFailed wrap bs.length).ram = forgetPath wrap bs.length (path 0) p.ram := by
        rw [Panel.dataFailed_ram_known hc, hstart]
      simp only [Panel.cell_eq, hram]
      refine ⟨fun ⟨k, hk, hlost⟩ b s => ?_, fun hknown => ⟨fun k hk d hd => ?_, fun b s hoff => ?_⟩⟩
      · rw [forgetPath_eq_nil hpath hk hlost, Memory.read_nil]
      · exact forgetPath_read_on hpath hwf hk hd
      · exact forgetPath_read_off hpath hknown hoff p.ram

/-! #### The engine's transfers and the wire rows (R84 to R86, R92; log entry 3) -/

/-- The bank byte carries the bank in its low three bits (R83). -/
theorem bankByte_fields (bank : Bank) :
    isBankByte (0x80#8 ||| BitVec.ofNat 8 bank.val) = true ∧
      ((0x80#8 ||| BitVec.ofNat 8 bank.val).setWidth 3).toNat = bank.val := by
  revert bank
  decide

/-- The segment byte carries a segment up to 63 in its low six bits (R84). -/
theorem segmentByte_fields {segment : Segment} (h : segment.val ≤ 63) :
    isSegmentByte (0x40#8 ||| BitVec.ofNat 8 segment.val) = true ∧
      ((0x40#8 ||| BitVec.ofNat 8 segment.val).setWidth 6).toNat = segment.val := by
  revert segment
  decide

/-- The bytes of a position are the wire's position sequence of the same bank and segment (R85). -/
theorem positionOperands_positionBytes {segment : Segment} (h : segment.val ≤ 63) (bank : Bank) :
    ∃ x y, positionOperands (positionBytes segment bank) = some (x, y) ∧ x.toNat = bank.val ∧
      y.toNat = segment.val := by
  obtain ⟨hisBank, hbank⟩ := bankByte_fields bank
  obtain ⟨hisSegment, hsegment⟩ := segmentByte_fields h
  exact ⟨_, _, by simp [positionBytes, positionOperands, hisBank, hisSegment], hbank, hsegment⟩

/-- A whole position sequence is decoded as one (R85). -/
theorem decode_position {bs : List Byte} {x : BitVec 3} {y : BitVec 6} (h : positionOperands bs = some (x, y)) :
    decode (.command .idle) bs = .ok (.positionSequence x y, []) := by
  have hsequence := h
  unfold positionOperands at h
  split at h
  · simp [decode, decodeCommand, contrastOperand, hsequence]
  · cases h

/-- The wire's bits of a bank and a segment name that position. -/
theorem Panel.positionSequence_eq (p : Panel) {x : BitVec 3} {y : BitVec 6} {bank : Bank} {segment : Segment}
    (hx : x.toNat = bank.val) (hy : y.toNat = segment.val) : p.positionSequence x y = p.position segment bank := by
  have hbank : x.toNat ≤ 5 := by omega
  simp [Panel.positionSequence, hx, hy, Nat.le_of_lt_succ bank.isLt]

/-- A data byte does not look at the place in a command sequence. -/
theorem Panel.dataByte_seq (p : Panel) (seq : WireSeq) (v : Byte) :
    Panel.dataByte wrap { p with seq := seq } v = { p.dataByte wrap v with seq := seq } := by
  obtain hc | ⟨c, hc⟩ := Option.eq_none_or_eq_some p.cursor
  · rw [Panel.dataByte_unknown hc, Panel.dataByte_unknown (p := { p with seq := seq }) hc]
  · rw [Panel.dataByte_known hc, Panel.dataByte_known (p := { p with seq := seq }) hc]

/-- Outside a sequence, a data transfer received byte by byte is the whole transfer (R92). -/
theorem Panel.foldl_wire_dataByte (bs : List Byte) (p : Panel) :
    (bs.map WireOp.dataByte).foldl (Panel.wire wrap) { p with seq := .idle } =
      { p.dataBytes wrap bs with seq := .idle } := by
  induction bs generalizing p with
  | nil => rfl
  | cons v bs ih =>
    have hbyte : Panel.wire wrap { p with seq := .idle } (.dataByte v) = { p.dataByte wrap v with seq := .idle } := by
      rw [Panel.wire, Panel.dataByte_seq]
    rw [List.map_cons, List.foldl_cons, hbyte, ih, Panel.dataBytes_cons]

/-- Settles O51: each transfer's bytes decode to a row with the transfer's own effect, and a data transfer is its bytes
one by one. -/
theorem engineTransfersAreWireRows : Obligations.EngineTransfersAreWireRows := by
  unfold Obligations.EngineTransfersAreWireRows
  intro wrap p ch bank segment v bs
  refine ⟨fun hsegment => ?_, ⟨?_, rfl⟩, fun hne => ?_⟩
  · obtain ⟨x, y, hdecode, hx, hy⟩ := positionOperands_positionBytes hsegment bank
    exact ⟨_, x, y, decode_position hdecode, rfl, (Panel.positionSequence_eq p hx hy).symm⟩
  · simp [decode, decodeCommand, contrastBytes, contrastOperand]
  · obtain ⟨w, ws, rfl⟩ := List.exists_cons_of_ne_nil hne
    exact (Panel.foldl_wire_dataByte ws (p.dataByte wrap w)).symm

end Sys2Proof.Machine

/-! ### The encodings: the decoder and the encoder, each way -/

namespace Sys2Proof

/-! #### The host descriptor's fields (R95, R96) -/

/-- The pins of a spellable map are the zero extensions of their bytes (R95). -/
theorem pinsOf_pinBytes {pins : PinMap} (h : pins.spellable = true) :
    pinsOf (BitVec.ofNat 8 pins.clock) (BitVec.ofNat 8 pins.data) (BitVec.ofNat 8 pins.dataCommand)
      (BitVec.ofNat 8 pins.reset) (BitVec.ofNat 8 pins.backlight) (BitVec.ofNat 8 pins.chipEnable) = pins := by
  simp only [PinMap.spellable, Bool.and_eq_true, decide_eq_true_eq, and_assoc] at h
  obtain ⟨hclock, hdata, hdc, hreset, hbacklight, hce⟩ := h
  simp only [pinsOf, BitVec.toNat_ofNat, Nat.reducePow, Nat.mod_eq_of_lt, hclock, hdata, hdc, hreset, hbacklight, hce]

theorem decodeInit_bytes {pins : PinMap} (h : pins.spellable = true) (v : Byte) (rest : List Byte) :
    decodeInit (pins.bytes ++ v :: rest) = some (.init pins v, rest) := by
  simp only [PinMap.bytes, List.cons_append, List.nil_append, decodeInit, pinsOf_pinBytes h]

theorem decodeConfigure_bytes {pins : PinMap} (h : pins.spellable = true) (rest : List Byte) :
    decodeConfigure (pins.bytes ++ rest) = some (.configure pins, rest) := by
  simp only [PinMap.bytes, List.cons_append, List.nil_append, decodeConfigure, pinsOf_pinBytes h]

theorem decodeCounted_bytes (make : List Byte → Instr) {bs : List Byte} (h : bs.length < 65536) (rest : List Byte) :
    decodeCounted make (u16Bytes bs.length ++ (bs ++ rest)) = some (make bs, rest) := by
  simp only [u16Bytes, List.cons_append, List.nil_append, decodeCounted, u16_u16Bytes h, takeBytes_append,
    Option.map_some]

theorem decodePair_bytes (make : Int → Int → Instr) {a b : Int} (ha : spellableInt a = true)
    (hb : spellableInt b = true) (rest : List Byte) :
    decodePair make (BitVec.ofInt 8 a :: BitVec.ofInt 8 b :: rest) = some (make a b, rest) := by
  simp only [decodePair, toNat_ofInt_spellable ha, toNat_ofInt_spellable hb]

theorem decodeText_bytes {row col : Int} {chars : List CharCode} (hrow : spellableInt row = true)
    (hcol : spellableInt col = true) (hlength : chars.length < 65536) (hchars : ∀ c ∈ chars, c < 4294967296)
    (rest : List Byte) :
    decodeText (BitVec.ofInt 8 row :: BitVec.ofInt 8 col ::
        (u16Bytes chars.length ++ (chars.flatMap u32Bytes ++ rest))) =
      some (.text row col chars, rest) := by
  simp only [u16Bytes, List.cons_append, List.nil_append, decodeText, u16_u16Bytes hlength,
    takeCodes_append chars hchars, Option.map_some, toNat_ofInt_spellable hrow, toNat_ofInt_spellable hcol]

/-- The host's decoder takes the descriptor of a well-formed operation off a stream and leaves the rest (R95, R98). -/
theorem decodeHost_encode_append {i : Instr} (hwf : i.wellFormed = true) (hi : i.layer = .host) (rest : List Byte) :
    decodeHost (encode i ++ rest) = .ok (i, rest) := by
  cases i with
  | init pins v => simp [decodeHost, encode, decodeInit_bytes hwf, orTruncated]
  | configure pins => simp [decodeHost, encode, decodeConfigure_bytes hwf, orTruncated]
  | cmd bytes => simp [decodeHost, encode, decodeCounted_bytes Instr.cmd (of_decide_eq_true hwf), orTruncated]
  | data bytes => simp [decodeHost, encode, decodeCounted_bytes Instr.data (of_decide_eq_true hwf), orTruncated]
  | backlight on => cases on <;> rfl
  | setpos segment bank =>
    obtain ⟨hsegment, hbank⟩ := Bool.and_eq_true_iff.mp hwf
    simp [decodeHost, encode, decodePair_bytes Instr.setpos hsegment hbank, orTruncated]
  | locate row col =>
    obtain ⟨hrow, hcol⟩ := Bool.and_eq_true_iff.mp hwf
    simp [decodeHost, encode, decodePair_bytes Instr.locate hrow hcol, orTruncated]
  | cls => rfl
  | contrast v => rfl
  | text row col chars =>
    simp only [Instr.wellFormed, Bool.and_eq_true, decide_eq_true_eq, List.all_eq_true, and_assoc] at hwf
    obtain ⟨hrow, hcol, hlength, hchars⟩ := hwf
    simp [decodeHost, encode, decodeText_bytes hrow hcol hlength hchars, orTruncated]
  | setBank | setSegment | functionSetExtended | cmd0x14 | setVop | functionSetNormal | displayControlNormal
  | dataByte | positionSequence | contrastSequence => cases hi

theorem decodeHost_encode {i : Instr} (hwf : i.wellFormed = true) (hi : i.layer = .host) :
    decodeHost (encode i) = .ok (i, []) := by
  simpa using decodeHost_encode_append hwf hi []

/-! #### The wire rows (R83 to R92) -/

theorem isBankByte_bankByte {bank : BitVec 3} (h : bank.toNat ≤ 5) : isBankByte (bankByte bank) = true := by
  revert bank
  decide

theorem setWidth_bankByte (bank : BitVec 3) : (bankByte bank).setWidth 3 = bank := by
  revert bank
  decide

theorem isSegmentByte_segmentByte (segment : BitVec 6) : isSegmentByte (segmentByte segment) = true := by
  revert segment
  decide

theorem isBankByte_segmentByte (segment : BitVec 6) : isBankByte (segmentByte segment) = false := by
  revert segment
  decide

theorem setWidth_segmentByte (segment : BitVec 6) : (segmentByte segment).setWidth 6 = segment := by
  revert segment
  decide

/-- Outside the Vop byte's place a command transfer of one byte is that byte's row. -/
theorem decode_commandByte {seq : WireSeq} {b : Byte} {i : Instr} (hseq : seq ≠ .bias)
    (h : decodeCommandByte seq b = .ok i) : decode (.command seq) [b] = .ok (i, []) := by
  simp [decode, decodeCommand, hseq, contrastOperand, positionOperands, h]

theorem decode_bankByte {bank : BitVec 3} (h : bank.toNat ≤ 5) :
    decode (.command .idle) [bankByte bank] = .ok (.setBank bank, []) :=
  decode_commandByte (by decide) (by simp [decodeCommandByte, isBankByte_bankByte h, setWidth_bankByte])

theorem decode_segmentByte (segment : BitVec 6) :
    decode (.command .idle) [segmentByte segment] = .ok (.setSegment segment, []) :=
  decode_commandByte (by decide) (by
    simp [decodeCommandByte, isBankByte_segmentByte, isSegmentByte_segmentByte, setWidth_segmentByte])

theorem positionOperands_encode {bank : BitVec 3} (h : bank.toNat ≤ 5) (segment : BitVec 6) :
    positionOperands [bankByte bank, segmentByte segment] = some (bank, segment) := by
  simp [positionOperands, isBankByte_bankByte h, isSegmentByte_segmentByte, setWidth_bankByte, setWidth_segmentByte]

theorem decode_contrast (v : Byte) :
    decode (.command .idle) [0x21#8, 0x14#8, v, 0x20#8, 0x0C#8] = .ok (.contrastSequence v, []) := by
  simp [decode, decodeCommand, contrastOperand]

/-- Settles O52: a host operation by the layout of its tag, a wire row by the fields of its bytes. -/
theorem decodeOfEncodeIsTheInstruction : Obligations.DecodeOfEncodeIsTheInstruction := by
  unfold Obligations.DecodeOfEncodeIsTheInstruction
  intro i hwf
  cases i with
  | setBank bank => exact decode_bankByte (of_decide_eq_true hwf)
  | setSegment segment => exact decode_segmentByte segment
  | functionSetExtended | cmd0x14 | functionSetNormal | displayControlNormal => exact decode_commandByte (by decide) rfl
  | setVop v => rfl
  | dataByte v => rfl
  | positionSequence bank segment =>
    exact Machine.decode_position (positionOperands_encode (of_decide_eq_true hwf) segment)
  | contrastSequence v => exact decode_contrast v
  | init | configure | cmd | data | backlight | setpos | locate | cls | contrast | text =>
    exact decodeHost_encode hwf rfl

end Sys2Proof

namespace Sys2Proof

/-! #### Host streams (R98) -/

theorem encode_length_pos (i : Instr) : 0 < (encode i).length := by
  cases i <;> simp [encode]

/-- CONFIGURE alone is spelled with tag `0x02` (R95). -/
theorem encode_head {i : Instr} (hi : i.layer = .host) (hconf : ∀ pins, i ≠ .configure pins) (rest : List Byte) :
    (encode i ++ rest).head? ≠ some 0x02#8 := by
  cases i with
  | configure pins => exact absurd rfl (hconf pins)
  | init | cmd | data | backlight | setpos | locate | cls | contrast | text => simp [encode]
  | setBank | setSegment | functionSetExtended | cmd0x14 | setVop | functionSetNormal | displayControlNormal
  | dataByte | positionSequence | contrastSequence => cases hi

theorem decodeDescriptor_of_head {bs : List Byte} (h : bs.head? ≠ some 0x02#8) : decodeDescriptor bs = decodeHost bs :=
  if_neg h

theorem decodeDescriptor_encode_append {i : Instr} (hwf : i.wellFormed = true) (hi : i.layer = .host)
    (hconf : ∀ pins, i ≠ .configure pins) (rest : List Byte) : decodeDescriptor (encode i ++ rest) = .ok (i, rest) := by
  rw [decodeDescriptor_of_head (encode_head hi hconf rest), decodeHost_encode_append hwf hi]

/-- One descriptor of a stream, where the fuel lasts for a byte. -/
theorem decodeStreamFuel_succ {fuel : Nat} {bs rest : List Byte} {i : Instr}
    (h : decodeDescriptor bs = .ok (i, rest)) :
    decodeStreamFuel (fuel + 1) bs = (i :: (decodeStreamFuel fuel rest).1, (decodeStreamFuel fuel rest).2) := by
  obtain ⟨tag, fields, rfl⟩ := Machine.decodeDescriptor_ne_nil h
  simp [decodeStreamFuel, h]

/-- With fuel for every byte, the descriptors come off one after another. -/
theorem decodeStreamFuel_flatMap {ops : List Instr}
    (hops : ∀ i ∈ ops, i.wellFormed = true ∧ i.layer = .host ∧ ∀ pins, i ≠ .configure pins) {fuel : Nat}
    (hfuel : (ops.flatMap encode).length ≤ fuel) : decodeStreamFuel fuel (ops.flatMap encode) = (ops, none) := by
  induction ops generalizing fuel with
  | nil => cases fuel <;> rfl
  | cons i ops ih =>
    obtain ⟨⟨hwf, hi, hconf⟩, hrest⟩ := List.forall_mem_cons.mp hops
    have hpos : 0 < (encode i).length := encode_length_pos i
    rw [List.flatMap_cons, List.length_append] at hfuel
    obtain ⟨fuel, rfl⟩ : ∃ n, fuel = n + 1 := ⟨fuel - 1, by omega⟩
    rw [List.flatMap_cons, decodeStreamFuel_succ (decodeDescriptor_encode_append hwf hi hconf _),
      ih hrest (by omega)]

/-- Settles O53: the stream's length is fuel enough. -/
theorem streamsDecodeToTheirOperations : Obligations.StreamsDecodeToTheirOperations := by
  unfold Obligations.StreamsDecodeToTheirOperations
  intro ops hops
  exact decodeStreamFuel_flatMap hops (Nat.le_refl _)

/-! #### A descriptor has one meaning (R95 to R97) -/

theorem u32Bytes_u32 (a b c d : Byte) : u32Bytes (u32 a b c d) = [a, b, c, d] := by
  have ha := a.isLt
  have hb := b.isLt
  have hc := c.isLt
  have hd := d.isLt
  simp only [u32Bytes, u32, List.cons.injEq, and_true, ← BitVec.toNat_inj, BitVec.toNat_ofNat]
  omega

theorem takeCodes_some {n : Nat} {bs rest : List Byte} {cs : List CharCode} (h : takeCodes n bs = some (cs, rest)) :
    cs.length = n ∧ (∀ c ∈ cs, c < 4294967296) ∧ bs = cs.flatMap u32Bytes ++ rest := by
  induction n generalizing bs cs with
  | zero =>
    cases h
    simp
  | succ n ih =>
    unfold takeCodes at h
    split at h
    · omega
    · rename_i hn
      cases hn
      obtain ⟨⟨cs, rest⟩, hcodes, hr⟩ := Option.map_eq_some_iff.mp h
      cases hr
      obtain ⟨hlength, hlt, rfl⟩ := ih hcodes
      refine ⟨congrArg (· + 1) hlength, List.forall_mem_cons.mpr ⟨u32_lt _ _ _ _, hlt⟩, ?_⟩
      rw [List.flatMap_cons, u32Bytes_u32]
      rfl
    · cases h

/-- Pins assembled from bytes are spelled by those bytes. -/
theorem pinsOf_spellable (clock data dataCommand reset backlight chipEnable : Byte) :
    (pinsOf clock data dataCommand reset backlight chipEnable).spellable = true := by
  have hlt (b : Byte) : b.toNat < 256 := b.isLt
  simp [PinMap.spellable, pinsOf, hlt]

theorem pinsOf_bytes (clock data dataCommand reset backlight chipEnable : Byte) :
    (pinsOf clock data dataCommand reset backlight chipEnable).bytes =
      [clock, data, dataCommand, reset, backlight, chipEnable] := by
  simp [PinMap.bytes, pinsOf]

theorem decodeInit_some {bs rest : List Byte} {i : Instr} (h : decodeInit bs = some (i, rest)) :
    i.wellFormed = true ∧ 0x01#8 :: bs = encode i ++ rest := by
  unfold decodeInit at h
  split at h
  · cases h
    exact ⟨pinsOf_spellable .., by simp [encode, pinsOf_bytes]⟩
  · cases h

theorem decodeConfigure_some {bs rest : List Byte} {i : Instr} (h : decodeConfigure bs = some (i, rest)) :
    i.wellFormed = true ∧ 0x02#8 :: bs = encode i ++ rest := by
  unfold decodeConfigure at h
  split at h
  · cases h
    exact ⟨pinsOf_spellable .., by simp [encode, pinsOf_bytes]⟩
  · cases h

theorem decodeCounted_some {make : List Byte → Instr} {bs rest : List Byte} {i : Instr}
    (h : decodeCounted make bs = some (i, rest)) :
    ∃ x, x.length < 65536 ∧ i = make x ∧ bs = u16Bytes x.length ++ x ++ rest := by
  unfold decodeCounted at h
  split at h
  · rename_i lo hi fields
    obtain ⟨⟨x, rest⟩, htake, hr⟩ := Option.map_eq_some_iff.mp h
    cases hr
    obtain ⟨rfl, hlength⟩ := takeBytes_some htake
    refine ⟨x, hlength ▸ u16_lt lo hi, rfl, ?_⟩
    rw [hlength, u16Bytes_u16]
    rfl
  · cases h

theorem decodePair_some {make : Int → Int → Instr} {bs rest : List Byte} {i : Instr}
    (h : decodePair make bs = some (i, rest)) :
    ∃ a b : Byte, i = make a.toNat b.toNat ∧ bs = a :: b :: rest := by
  unfold decodePair at h
  split at h
  · cases h
    exact ⟨_, _, rfl, rfl⟩
  · cases h

theorem decodeContrast_some {bs rest : List Byte} {i : Instr} (h : decodeContrast bs = some (i, rest)) :
    i.wellFormed = true ∧ 0x09#8 :: bs = encode i ++ rest := by
  unfold decodeContrast at h
  split at h
  · cases h
    exact ⟨rfl, rfl⟩
  · cases h

theorem decodeBacklight_ok {bs rest : List Byte} {i : Instr} (h : decodeBacklight bs = .ok (i, rest)) :
    i.wellFormed = true ∧ 0x05#8 :: bs = encode i ++ rest := by
  unfold decodeBacklight at h
  split at h
  · split_ifs at h with hoff hon
    · cases h
      exact ⟨rfl, by rw [hoff]; rfl⟩
    · cases h
      exact ⟨rfl, by rw [hon]; rfl⟩
  · cases h

theorem decodeText_some {bs rest : List Byte} {i : Instr} (h : decodeText bs = some (i, rest)) :
    i.wellFormed = true ∧ 0x0A#8 :: bs = encode i ++ rest := by
  unfold decodeText at h
  split at h
  · rename_i row col lo hi fields
    obtain ⟨⟨chars, rest⟩, hcodes, hr⟩ := Option.map_eq_some_iff.mp h
    cases hr
    obtain ⟨hlength, hlt, rfl⟩ := takeCodes_some hcodes
    have hcount : chars.length < 65536 := hlength ▸ u16_lt lo hi
    constructor
    · simpa [Instr.wellFormed, spellableInt_toNat, hcount] using hlt
    · simp [encode, hlength, u16Bytes_u16]
  · cases h

theorem orTruncated_ok {tag : Byte} {fields : Option (Instr × List Byte)} {r : Instr × List Byte}
    (h : orTruncated tag fields = .ok r) : fields = some r := by
  cases fields with
  | none => cases h
  | some r' =>
    cases h
    rfl

/-- What the host's decoder reads is the spelling of what it gives, which is well-formed, and the rest (R95 to R98). -/
theorem decodeHost_ok {bs rest : List Byte} {i : Instr} (h : decodeHost bs = .ok (i, rest)) :
    i.wellFormed = true ∧ bs = encode i ++ rest := by
  unfold decodeHost at h
  split at h
  · cases h
  · rename_i tag fields
    split at h
    · obtain rfl : tag = 0x01#8 := BitVec.eq_of_toNat_eq ‹_›
      exact decodeInit_some (orTruncated_ok h)
    · obtain rfl : tag = 0x02#8 := BitVec.eq_of_toNat_eq ‹_›
      exact decodeConfigure_some (orTruncated_ok h)
    · obtain rfl : tag = 0x03#8 := BitVec.eq_of_toNat_eq ‹_›
      obtain ⟨x, hx, rfl, rfl⟩ := decodeCounted_some (orTruncated_ok h)
      exact ⟨decide_eq_true hx, rfl⟩
    · obtain rfl : tag = 0x04#8 := BitVec.eq_of_toNat_eq ‹_›
      obtain ⟨x, hx, rfl, rfl⟩ := decodeCounted_some (orTruncated_ok h)
      exact ⟨decide_eq_true hx, rfl⟩
    · obtain rfl : tag = 0x05#8 := BitVec.eq_of_toNat_eq ‹_›
      exact decodeBacklight_ok h
    · obtain rfl : tag = 0x06#8 := BitVec.eq_of_toNat_eq ‹_›
      obtain ⟨a, b, rfl, rfl⟩ := decodePair_some (orTruncated_ok h)
      exact ⟨by simp [Instr.wellFormed, spellableInt_toNat], by simp [encode]⟩
    · obtain rfl : tag = 0x07#8 := BitVec.eq_of_toNat_eq ‹_›
      obtain ⟨a, b, rfl, rfl⟩ := decodePair_some (orTruncated_ok h)
      exact ⟨by simp [Instr.wellFormed, spellableInt_toNat], by simp [encode]⟩
    · obtain rfl : tag = 0x08#8 := BitVec.eq_of_toNat_eq ‹_›
      cases h
      exact ⟨rfl, rfl⟩
    · obtain rfl : tag = 0x09#8 := BitVec.eq_of_toNat_eq ‹_›
      exact decodeContrast_some (orTruncated_ok h)
    · obtain rfl : tag = 0x0A#8 := BitVec.eq_of_toNat_eq ‹_›
      exact decodeText_some (orTruncated_ok h)
    · cases h

/-- Settles O54, by the inversion of the host's decoder. -/
theorem descriptorsHaveOneMeaning : Obligations.DescriptorsHaveOneMeaning := by
  unfold Obligations.DescriptorsHaveOneMeaning
  intro bs rest i h
  obtain ⟨hwf, hbytes⟩ := decodeHost_ok h
  exact ⟨hwf, Machine.decodeHost_layer h, hbytes⟩

end Sys2Proof

/-! ### Refused descriptors (R97, R193) -/

namespace Sys2Proof.Machine

/-- R98's length of a descriptor is the number of its bytes, whatever follows it. -/
theorem descriptorLength_encode_append {i : Instr} (hwf : i.wellFormed = true) (hi : i.layer = .host)
    (rest : List Byte) : descriptorLength (encode i ++ rest) = (encode i).length := by
  cases i with
  | cmd bytes =>
    rw [Laws.EncodeLength.cmd]
    exact congrArg (3 + ·) (u16_u16Bytes (of_decide_eq_true hwf))
  | data bytes =>
    rw [Laws.EncodeLength.data]
    exact congrArg (3 + ·) (u16_u16Bytes (of_decide_eq_true hwf))
  | text row col chars =>
    simp only [Instr.wellFormed, Bool.and_eq_true, decide_eq_true_eq] at hwf
    obtain ⟨⟨-, hlength⟩, -⟩ := hwf
    rw [Laws.EncodeLength.text]
    exact congrArg (5 + 4 * ·) (u16_u16Bytes hlength)
  | init | configure | backlight | setpos | locate | cls | contrast => rfl
  | setBank | setSegment | functionSetExtended | cmd0x14 | setVop | functionSetNormal | displayControlNormal
  | dataByte | positionSequence | contrastSequence => cases hi

/-- A descriptor that decodes is as long as its layout requires (R97). -/
theorem descriptorLength_le_of_decodeHost {bs rest : List Byte} {i : Instr} (h : decodeHost bs = .ok (i, rest)) :
    descriptorLength bs ≤ bs.length := by
  obtain ⟨hwf, rfl⟩ := decodeHost_ok h
  rw [descriptorLength_encode_append hwf (decodeHost_layer h), List.length_append]
  omega

theorem decodeHost_noSuchOperation {tag : Byte} (h : tag = 0x00#8 ∨ 0x0B#8 ≤ tag) (rest : List Byte) :
    decodeHost (tag :: rest) = .error (.noSuchOperation tag) := by
  have htag : tag.toNat = 0 ∨ 11 ≤ tag.toNat := h.imp (fun h => by rw [h]; rfl) BitVec.le_def.mp
  simp only [decodeHost]
  split
  case h_11 => rfl
  all_goals omega

theorem decodeHost_badBacklight {on : Byte} (hoff : on ≠ 0x00#8) (hon : on ≠ 0x01#8) (rest : List Byte) :
    decodeHost (0x05#8 :: on :: rest) = .error (.badBacklight on) := by
  simp [decodeHost, decodeBacklight, hoff, hon]

theorem rejectReason_of_orTruncated {tag : Byte} {fields : Option (Instr × List Byte)} {r : Reject}
    (h : orTruncated tag fields = .error r) : rejectReason r = .badDescriptor := by
  cases fields with
  | none =>
    cases h
    rfl
  | some _ => cases h

theorem rejectReason_of_decodeBacklight {bs : List Byte} {r : Reject} (h : decodeBacklight bs = .error r) :
    rejectReason r = .badDescriptor := by
  unfold decodeBacklight at h
  split at h
  · split_ifs at h
    cases h
    rfl
  · cases h
    rfl

/-- Every defect the layout reader finds is a bad descriptor: `internal` is the port's own reason (R97, R193). -/
theorem rejectReason_of_decodeHost {bs : List Byte} {r : Reject} (h : decodeHost bs = .error r) :
    rejectReason r = .badDescriptor := by
  unfold decodeHost at h
  split at h
  · cases h
    rfl
  · split at h
    · exact rejectReason_of_orTruncated h
    · exact rejectReason_of_orTruncated h
    · exact rejectReason_of_orTruncated h
    · exact rejectReason_of_orTruncated h
    · exact rejectReason_of_decodeBacklight h
    · exact rejectReason_of_orTruncated h
    · exact rejectReason_of_orTruncated h
    · cases h
    · exact rejectReason_of_orTruncated h
    · exact rejectReason_of_orTruncated h
    · cases h
      rfl

/-- The step at a host stream whose first descriptor is refused (R97, R193, R223). -/
theorem step_refused_descriptor {s : State} {tag : Byte} {fields : List Byte} {r : Reject} (hbus : s.busIn = [])
    (hrun : s.ended = false) (hcfg : s.cfg.accepted = true) (hissue : s.prog[s.pc]? = some (.bytes (tag :: fields)))
    (h : decodeDescriptor (tag :: fields) = .error r) : step s = .next (s.refuseAtPort (rejectReason r)) := by
  refine step_settled ?_
  rw [fetch_issue hbus hrun hissue, if_pos hcfg, fetchIssue_error h]

/-- Settles O13: the port refuses tag `0x02` before the layout is read, and each other defect is one the layout reader
refuses, a short descriptor because one that decodes is as long as its layout. -/
theorem badDescriptorsAreRefused : Obligations.BadDescriptorsAreRefused := by
  unfold Obligations.BadDescriptorsAreRefused
  intro s bs hbus hrun hcfg hissue
  constructor
  · intro hhead
    obtain ⟨fields, rfl⟩ := List.head?_eq_some_iff.mp hhead
    exact step_refused_descriptor hbus hrun hcfg hissue (if_pos rfl)
  · intro hdefect
    have hrefused : ∃ tag fields r, bs = tag :: fields ∧ tag ≠ 0x02#8 ∧ decodeHost bs = .error r := by
      rcases hdefect with ⟨tag, fields, rfl, htag⟩ | ⟨on, fields, rfl, hoff, hon⟩ | ⟨tag, fields, rfl, htag, hshort⟩
      · exact ⟨tag, fields, _, rfl, by rintro rfl; revert htag; decide, decodeHost_noSuchOperation htag fields⟩
      · exact ⟨_, _, _, rfl, by decide, decodeHost_badBacklight hoff hon fields⟩
      · cases hdecode : decodeHost (tag :: fields) with
        | error r => exact ⟨tag, fields, r, rfl, htag, rfl⟩
        | ok ir => exact absurd (descriptorLength_le_of_decodeHost hdecode) (Nat.not_le.mpr hshort)
    obtain ⟨tag, fields, r, rfl, htag, hdecode⟩ := hrefused
    have hdescriptor : decodeDescriptor (tag :: fields) = .error r := by
      rw [decodeDescriptor_of_head (by simpa using htag), hdecode]
    rw [step_refused_descriptor hbus hrun hcfg hissue hdescriptor, rejectReason_of_decodeHost hdecode]
    rfl

end Sys2Proof.Machine

/-! ### Composed commands and their bytes (R101) -/

namespace Sys2Proof.Machine

theorem wireBytes_append (es fs : List Event) : wireBytes (es ++ fs) = wireBytes es ++ wireBytes fs := by
  induction es with
  | nil => rfl
  | cons e es ih => cases e <;> simp [wireBytes, ih]

/-- What a framing step puts on the wire does not depend on the kind it is recorded under, whatever the backend
answers (R110). -/
theorem wireBytes_frame (h : Handle) (isCmd : Bool) (bytes : List Byte) (kind kind' : Kind) (s : State) :
    wireBytes (frame h isCmd bytes kind s).st.trace = wireBytes (frame h isCmd bytes kind' s).st.trace := by
  rcases s.answersOk_or_failsAfter 2 with hok | ⟨m, hm, hfails⟩
  · simp [frame_ok hok, transferEvents, wireBytes_append, wireBytes]
  · obtain rfl | rfl : m = 0 ∨ m = 1 := by omega
    · rw [frame_dcFails hfails, frame_dcFails hfails]
    · simp [frame_serialFails hfails, wireBytes_append, wireBytes]

/-- Cleaning up after a failure and setting registers after a success append no event (R188). -/
theorem Ran.onError_andThen_trace {α β : Type} {r : Ran α} {clean : State → State} {k : α → State → Ran β}
    (hclean : ∀ t, (clean t).trace = t.trace) (hk : ∀ a t, (k a t).st.trace = t.trace) :
    ((r.onError clean).andThen k).st.trace = r.st.trace := by
  obtain ⟨t, res⟩ := r
  cases res with
  | ok a => exact hk a t
  | error e => exact hclean t

theorem sendContrast_trace (h : Handle) (v : Byte) (s : State) :
    (sendContrast h v s).st.trace = (frame h true (contrastBytes v) (.cmdContrast v) s).st.trace :=
  Ran.onError_andThen_trace (fun _ => rfl) fun _ _ => rfl

theorem setPositionBody_trace (h : Handle) (p : Segment × Bank) (s : State) :
    (setPositionBody h p s).st.trace = (frame h true (positionBytes p.1 p.2) (.cmdPos p.1 p.2) s).st.trace :=
  Ran.onError_andThen_trace (fun _ => rfl) fun _ _ => rfl

/-- Two operations past their operand checks, whose bodies put the same bytes on the wire. -/
theorem operate_sameBytes {α β γ : Type} {b : β} {c : γ} {read : State → Except Fault α}
    {body : β → α → State → Ran Unit} {body' : γ → α → State → Ran Unit} {s t u : State}
    (hbody : ∀ a, wireBytes (body b a s).st.trace = wireBytes (body' c a s).st.trace)
    (ht : operate (.ok b) read body s = .next t) (hu : operate (.ok c) read body' s = .next u) :
    wireBytes t.trace = wireBytes u.trace := by
  cases hphase : s.phase with
  | uninitialized =>
    rw [operate_uninitialized hphase] at ht hu
    cases ht
    cases hu
    rfl
  | initialized =>
    cases hread : read s with
    | error f => simp [operate, hphase, hread] at ht
    | ok a =>
      rw [operate_run hphase hread] at ht hu
      cases ht
      cases hu
      exact hbody a

/-- Settles O29: SET_CONTRAST and SET_POSITION each frame the raw command's bytes, under another kind. -/
theorem composedCommandsSendTheRawBytes : Obligations.ComposedCommandsSendTheRawBytes := by
  unfold Obligations.ComposedCommandsSendTheRawBytes
  intro s t u
  constructor
  · intro v ht hu
    rw [exec_contrast] at ht
    rw [exec_cmd] at hu
    refine operate_sameBytes (fun h => ?_) ht hu
    rw [sendContrast_trace]
    exact wireBytes_frame h true (contrastBytes v) _ _ s
  · intro segment bank ht hu
    rw [exec_setpos, place_ok] at ht
    rw [exec_cmd] at hu
    refine operate_sameBytes (fun h => ?_) ht hu
    rw [setPositionBody_trace]
    exact wireBytes_frame h true (positionBytes segment bank) _ _ s

end Sys2Proof.Machine

/-! ### The wire rows, in their places and out of them (R83 to R93; log entry 3) -/

namespace Sys2Proof.Machine

/-! #### What each row does to the panel -/

section

variable {p : Panel} {bank : BitVec 3}

theorem Panel.setBank_placed (hbank : bank.toNat ≤ 5) (hmode : p.mode = some .normal) :
    p.setBank bank = { p with cursor := none, seq := .bank ⟨bank.toNat, by omega⟩ } := by
  simp [Panel.setBank, hbank, hmode]

theorem Panel.setBank_misplaced (hbank : bank.toNat ≤ 5) (hmode : p.mode ≠ some .normal) :
    p.setBank bank = { p with cursor := none, seq := .idle } := by
  simp [Panel.setBank, hbank, hmode]

theorem Panel.setBank_reserved (hbank : 6 ≤ bank.toNat) : p.setBank bank = p.forgetRegisters :=
  dif_neg (by omega)

theorem Panel.setSegment_placed {b : Bank} (hseq : p.seq = .bank b) (hmode : p.mode = some .normal)
    (segment : BitVec 6) :
    p.setSegment segment = { p with cursor := some (⟨segment.toNat, by omega⟩, b), seq := .idle } := by
  simp [Panel.setSegment, hseq, hmode]

theorem Panel.setSegment_misplaced (h : (∀ b, p.seq ≠ .bank b) ∨ p.mode ≠ some .normal) (segment : BitVec 6) :
    p.setSegment segment = { p with cursor := none, seq := .idle } := by
  unfold Panel.setSegment
  split
  · rename_i b hseq
    rw [if_neg (h.resolve_left fun hne => hne b hseq)]
  · rfl

theorem Panel.cmd0x14_placed (h : p.seq = .extended) : p.cmd0x14 = { p with seq := .bias } := if_pos h

theorem Panel.cmd0x14_misplaced (h : p.seq ≠ .extended) : p.cmd0x14 = p.forgetRegisters := if_neg h

theorem Panel.setVop_placed (h : p.seq = .bias) (v : Byte) : p.setVop v = { p with vop := some v, seq := .idle } :=
  if_pos h

theorem Panel.setVop_misplaced (h : p.seq ≠ .bias) (v : Byte) : p.setVop v = p.forgetRegisters := if_neg h

theorem Panel.displayControlNormal_placed (h : p.mode = some .normal) :
    p.displayControlNormal = { p with display := some .normal, seq := .idle } := if_pos h

theorem Panel.displayControlNormal_misplaced (h : p.mode ≠ some .normal) :
    p.displayControlNormal = p.forgetRegisters := if_neg h

theorem Panel.positionSequence_placed (hbank : bank.toNat ≤ 5) (hmode : p.mode = some .normal) (segment : BitVec 6) :
    p.positionSequence bank segment =
      { p with cursor := some (⟨segment.toNat, by omega⟩, ⟨bank.toNat, by omega⟩), seq := .idle } := by
  have hsegment : segment.toNat ≤ 63 := by omega
  simp [Panel.positionSequence, Panel.position, hbank, hmode, hsegment]

theorem Panel.positionSequence_misplaced (hbank : bank.toNat ≤ 5) (hmode : p.mode ≠ some .normal) (segment : BitVec 6) :
    p.positionSequence bank segment = { p with cursor := none, seq := .idle } := by
  simp [Panel.positionSequence, Panel.position, hbank, hmode]

theorem Panel.positionSequence_reserved (hbank : 6 ≤ bank.toNat) (segment : BitVec 6) :
    p.positionSequence bank segment = p.forgetRegisters :=
  dif_neg (by omega)

end

/-! #### A sequence is its bytes (R85, R86) -/

/-- A position sequence is its bank byte and its segment byte, in every place and mode. -/
theorem Panel.setSegment_setBank (p : Panel) (bank : BitVec 3) (segment : BitVec 6) :
    (p.setBank bank).setSegment segment = p.positionSequence bank segment := by
  by_cases hbank : bank.toNat ≤ 5
  · by_cases hmode : p.mode = some .normal
    · rw [Panel.setBank_placed hbank hmode, Panel.positionSequence_placed hbank hmode]
      exact Panel.setSegment_placed (p := { p with cursor := none, seq := .bank _ }) rfl hmode segment
    · rw [Panel.setBank_misplaced hbank hmode, Panel.positionSequence_misplaced hbank hmode]
      exact Panel.setSegment_misplaced (p := { p with cursor := none, seq := .idle }) (.inr hmode) segment
  · have hreserved : 6 ≤ bank.toNat := by omega
    rw [Panel.setBank_reserved hreserved, Panel.positionSequence_reserved hreserved]
    exact Panel.setSegment_misplaced (p := p.forgetRegisters) (.inl nofun) segment

/-- A contrast sequence is its five command bytes: each stands in its place behind the one before it. -/
theorem Panel.contrast_rows (p : Panel) (v : Byte) :
    (p.functionSetExtended.cmd0x14.setVop v).functionSetNormal.displayControlNormal = p.contrast v := by
  rw [Panel.cmd0x14_placed rfl, Panel.setVop_placed rfl, Panel.displayControlNormal_placed rfl]
  rfl

/-- Settles O50, by the two sequences' equations. -/
theorem sequencesAreTheirBytes : Obligations.SequencesAreTheirBytes := by
  unfold Obligations.SequencesAreTheirBytes
  intro wrap p bank segment v
  exact ⟨Panel.setSegment_setBank p bank segment, Panel.contrast_rows p v⟩

/-! #### The rows as instructions -/

/-- A wire row's next state: its event, and what it does to the panel. -/
theorem exec_received {i : Instr} {op : WireOp} {s : State} {p : Panel} (hi : exec i s = receive op s)
    (hp : s.panel.wire s.cfg.panelLastWrap op = p) :
    exec i s = .next { s with trace := s.trace ++ [.wire op], panel := p } := by
  rw [hi, ← hp]
  rfl

/-- Settles O48, each row by what it does to the panel in its place. -/
theorem wireRowsReachThePanel : Obligations.WireRowsReachThePanel := by
  unfold Obligations.WireRowsReachThePanel
  intro s bank segment v
  exact ⟨fun hbank hmode => ⟨_, rfl, exec_received rfl (Panel.setBank_placed hbank hmode)⟩,
    fun b hmode hseq => ⟨_, rfl, exec_received rfl (Panel.setSegment_placed hseq hmode segment)⟩,
    exec_received rfl rfl,
    fun hseq => exec_received rfl (Panel.cmd0x14_placed hseq),
    fun hseq => exec_received rfl (Panel.setVop_placed hseq v),
    exec_received rfl rfl,
    fun hmode => exec_received rfl (Panel.displayControlNormal_placed hmode),
    exec_received rfl rfl,
    fun hbank hmode => ⟨_, _, rfl, rfl, exec_received rfl (Panel.positionSequence_placed hbank hmode segment)⟩,
    exec_received rfl rfl⟩

/-! #### The step at the panel's port (log entry 3) -/

theorem fetch_waiting {s : State} {t : Transfer} {more : List Transfer} (hbus : s.busIn = t :: more) :
    fetch s = fetchTransfer t more s := by
  rw [fetch, hbus]

theorem decodeCommandByte_layer {seq : WireSeq} {b : Byte} {i : Instr} (h : decodeCommandByte seq b = .ok i) :
    i.layer = .wire := by
  unfold decodeCommandByte at h
  split_ifs at h <;> cases h <;> rfl

theorem decodeCommand_layer {seq : WireSeq} {bs rest : List Byte} {i : Instr}
    (h : decodeCommand seq bs = .ok (i, rest)) : i.layer = .wire := by
  unfold decodeCommand at h
  split at h
  · cases h
  · split at h
    · cases h
      rfl
    · split at h
      · cases h
        rfl
      · cases h
        rfl
      · split at h
        · cases h
          exact decodeCommandByte_layer ‹_›
        · cases h

theorem decodeData_layer {bs rest : List Byte} {i : Instr} (h : decodeData bs = .ok (i, rest)) : i.layer = .wire := by
  unfold decodeData at h
  split at h <;> cases h
  rfl

/-- What the panel's port decodes is a wire row. -/
theorem decode_transfer_layer {seq : WireSeq} {t : Transfer} {rest : List Byte} {i : Instr}
    (h : decode (t.port seq) t.bytes = .ok (i, rest)) : i.layer = .wire := by
  obtain ⟨framing, bs⟩ := t
  cases framing with
  | command => exact decodeCommand_layer h
  | data => exact decodeData_layer h

/-- The port takes the first instruction of a transfer, and its other bytes go on waiting. -/
theorem fetchTransfer_ok {t : Transfer} {more : List Transfer} {s : State} {rest : List Byte} {i : Instr}
    (h : decode (t.port s.panel.seq) t.bytes = .ok (i, rest)) :
    fetchTransfer t more s =
      .run i { s with busIn := if rest = [] then more else { t with bytes := rest } :: more } := by
  cases rest <;> simp [fetchTransfer, h]

/-- The port takes a byte of no row off its transfer, and the panel receives it as such (R93). -/
theorem fetchTransfer_reserved {t : Transfer} {more : List Transfer} {s : State} {b : Byte} {rest : List Byte}
    {r : Reject} (hbytes : t.bytes = b :: rest) (h : decode (t.port s.panel.seq) t.bytes = .error r) :
    fetchTransfer t more s = .settled
      ({ s with busIn := if rest = [] then more else { t with bytes := rest } :: more }.emit
        (.wire (.reserved b))) := by
  rw [hbytes] at h
  cases rest <;> simp [fetchTransfer, hbytes, h]

/-- Settles O9: the port runs a wire row, which is retired as it is. -/
theorem stepRunsTheWaitingTransfer : Obligations.StepRunsTheWaitingTransfer := by
  unfold Obligations.StepRunsTheWaitingTransfer
  intro s u framing bs rest more i hbus hdecode hexec
  have hport : decode (Transfer.port s.panel.seq ⟨framing, bs⟩) bs = .ok (i, rest) := by
    cases framing <;> exact hdecode
  have hfetch := (fetch_waiting hbus).trans (fetchTransfer_ok hport)
  rw [step_run hfetch hexec, retire_wire (decode_transfer_layer hport)]

/-- Settles O49: the rows by what they do to the panel out of their places, and the step by the port's answer to a byte
that decodes to no row. -/
theorem misplacedCommandBytesAreUnknown : Obligations.MisplacedCommandBytesAreUnknown := by
  unfold Obligations.MisplacedCommandBytesAreUnknown
  intro s bank segment v received cursorLost
  refine ⟨fun hbank => ⟨exec_received rfl (Panel.setBank_reserved hbank),
      exec_received rfl (Panel.positionSequence_reserved hbank segment)⟩,
    fun hseq => exec_received rfl (Panel.cmd0x14_misplaced hseq),
    fun hseq => exec_received rfl (Panel.setVop_misplaced hseq v),
    fun hmode => exec_received rfl (Panel.displayControlNormal_misplaced hmode),
    fun hplace => exec_received rfl (Panel.setSegment_misplaced hplace segment),
    fun hbank hmode => ⟨exec_received rfl (Panel.setBank_misplaced hbank hmode),
      exec_received rfl (Panel.positionSequence_misplaced hbank hmode segment)⟩,
    fun rest more hbus hseq hnotBank hnotSegment hnotRow => ?_⟩
  have hdecode := decode_reserved rest hseq hnotBank hnotSegment hnotRow
  exact step_settled ((fetch_waiting hbus).trans (fetchTransfer_reserved rfl hdecode))

end Sys2Proof.Machine

/-! ### The rest of the encoding: levels, position bytes, written words, assembler lines -/

namespace Sys2Proof.Machine

theorem Level.flip_ne (l : Level) : Level.flip l ≠ l := by
  cases l <;> decide

/-- Settles O19: the data level is the flipped command level. -/
theorem framingLevelsDiffer : Obligations.FramingLevelsDiffer :=
  ⟨rfl, fun c => ⟨rfl, Level.flip_ne c.dcCommandLevel⟩⟩

/-! #### The position bytes (R83 to R85) -/

theorem bankPositionByte_toNat (bank : Bank) : (0x80#8 ||| BitVec.ofNat 8 bank.val).toNat = 0x80 + bank.val := by
  revert bank
  decide

theorem segmentPositionByte_toNat (segment : Segment) :
    (0x40#8 ||| BitVec.ofNat 8 segment.val).toNat = if segment.val < 64 then 0x40 + segment.val else segment.val := by
  revert segment
  decide

/-- Bit 6 of a segment above 63 coincides with the fixed bit of the byte (R84). -/
theorem segmentPositionByte_alias {segment other : Segment} (h : segment.val = other.val + 64) :
    0x40#8 ||| BitVec.ofNat 8 segment.val = 0x40#8 ||| BitVec.ofNat 8 other.val := by
  refine BitVec.eq_of_toNat_eq ?_
  rw [segmentPositionByte_toNat, segmentPositionByte_toNat, if_neg (by omega), if_pos (by omega), h, Nat.add_comm]

/-- Settles O20, by the values of the two bytes. -/
theorem positionBytesAlias : Obligations.PositionBytesAlias := by
  unfold Obligations.PositionBytesAlias
  intro segment bank
  refine ⟨⟨_, _, rfl, bankPositionByte_toNat bank, segmentPositionByte_toNat segment⟩, fun other h => ?_⟩
  rw [positionBytes, positionBytes, segmentPositionByte_alias h]

/-! #### Words written out (R83 to R96) -/

/-- Settles O55: the words are the spellings of the instructions. -/
theorem writtenOutWordsDecode : Obligations.WrittenOutWordsDecode := by
  unfold Obligations.WrittenOutWordsDecode
  have hdecode := decodeOfEncodeIsTheInstruction
  exact ⟨hdecode (.init PinMap.default 0xB0#8) rfl, decodeHost_encode_append (i := .locate 5 13) rfl rfl [0x08#8],
    hdecode (.data [0xFF#8]) rfl, hdecode (.setBank 5#3) rfl, hdecode (.setSegment 18#6) rfl,
    hdecode (.contrastSequence 0xB0#8) rfl, hdecode (.dataByte 0x21#8) rfl⟩

/-! #### The assembler lines (R100) -/

theorem byteOperand_small {v : Nat} (h : v < 256) : byteOperand v = some (BitVec.ofNat 8 v) := if_pos h

theorem byteOperand_large {v : Nat} (h : 256 ≤ v) : byteOperand v = none := if_neg (Nat.not_lt.mpr h)

theorem lineOperation_contrast (v : Nat) :
    lineOperation ['c', 'o', 'n', 't', 'r', 'a', 's', 't'] [.number v] = (byteOperand v).map .contrast := rfl

theorem byteOperands_small {v : Nat} (h : v < 256) : byteOperands [.number v] = some [BitVec.ofNat 8 v] := by
  rw [byteOperands, byteOperand_small h, Option.map_some]

theorem lineOperation_cmd (operands : List Token) :
    lineOperation ['c', 'm', 'd'] operands = (byteOperands operands).map .cmd := rfl

theorem lineOperation_data (operands : List Token) :
    lineOperation ['d', 'a', 't', 'a'] operands = (byteOperands operands).map .data := rfl

/-- Settles O56: the mnemonics pick their lines, and the byte operands are those below 256. -/
theorem assemblerFollowsItsSyntax : Obligations.AssemblerFollowsItsSyntax := by
  unfold Obligations.AssemblerFollowsItsSyntax
  intro a b v chars
  refine ⟨rfl, rfl, rfl, rfl, rfl, rfl, rfl, fun hsmall => ⟨?_, ?_, ?_⟩, fun hlarge => ?_, rfl⟩
  · rw [lineOperation_contrast, byteOperand_small hsmall, Option.map_some]
  · rw [lineOperation_cmd, byteOperands_small hsmall, Option.map_some]
  · rw [lineOperation_data, byteOperands_small hsmall, Option.map_some]
  · rw [lineOperation_contrast, byteOperand_large hlarge, Option.map_none]

end Sys2Proof.Machine

/-! ### The bus adapter: what its operations do, and which registers each operation writes -/

namespace Sys2Proof.Machine

/-! #### No step stops (R115, R184) -/

/-- An initialized engine that meets R115 is ready with the handle it knows. -/
theorem State.Booted.ready {s : State} (hs : s.Booted) (hphase : s.phase = .initialized) : ∃ h, s.Ready h := by
  obtain ⟨⟨hpins, hchannel⟩, -⟩ := hs hphase
  obtain ⟨pins, hpins⟩ := Option.isSome_iff_exists.mp hpins
  obtain ⟨channel, hchannel⟩ := Option.isSome_iff_exists.mp hchannel
  exact ⟨⟨pins, channel⟩, hphase, hpins, hchannel⟩

/-- An operation faults only where an initialized engine does not know what it reads (R12). -/
theorem operate_next {α β : Type} {read : State → Except Fault α} {s : State}
    (hread : s.phase = .initialized → ∃ a, read s = .ok a) (check : Except Error β) (body : β → α → State → Ran Unit) :
    ∃ t, operate check read body s = .next t := by
  cases hphase : s.phase with
  | uninitialized => exact ⟨_, operate_uninitialized hphase⟩
  | initialized =>
    cases check with
    | error e => exact ⟨_, operate_checked hphase⟩
    | ok b =>
      obtain ⟨a, ha⟩ := hread hphase
      exact ⟨_, operate_run hphase ha⟩

/-- Every instruction answers a next state where an initialized engine has its handle. -/
theorem exec_next (i : Instr) {s : State} (hs : s.Booted) : ∃ t, exec i s = .next t := by
  have hhandle (hphase : s.phase = .initialized) : ∃ h, s.readHandle = .ok h :=
    (hs.ready hphase).imp fun _ => State.Ready.readHandle
  have hpins (hphase : s.phase = .initialized) : ∃ pins, s.readPins = .ok pins := by
    obtain ⟨h, hready⟩ := hs.ready hphase
    exact ⟨h.pins, hready.readPins⟩
  cases i with
  | init =>
    cases hphase : s.phase with
    | uninitialized => exact ⟨_, exec_init_uninitialized hphase⟩
    | initialized => exact ⟨_, exec_init_initialized hphase⟩
  | configure =>
    cases hphase : s.phase with
    | uninitialized => exact ⟨_, exec_configure_uninitialized hphase⟩
    | initialized => exact ⟨_, exec_configure_initialized hphase⟩
  | backlight => exact exec_backlight .. ▸ operate_next hpins _ _
  | cmd => exact exec_cmd .. ▸ operate_next hhandle _ _
  | data => exact exec_data .. ▸ operate_next hhandle _ _
  | setpos => exact exec_setpos .. ▸ operate_next hhandle _ _
  | locate => exact exec_locate .. ▸ operate_next hhandle _ _
  | cls => exact exec_cls .. ▸ operate_next hhandle _ _
  | contrast => exact exec_contrast .. ▸ operate_next hhandle _ _
  | text => exact exec_text .. ▸ operate_next hhandle _ _
  | setBank | setSegment | functionSetExtended | cmd0x14 | setVop | functionSetNormal | displayControlNormal
  | dataByte | positionSequence | contrastSequence => exact ⟨_, rfl⟩

/-- Settles O4: fetching leaves the invariant, and under it the instruction fetched answers a next state. -/
theorem noStepStopsUnderTheInvariant : Obligations.NoStepStopsUnderTheInvariant := by
  unfold Obligations.NoStepStopsUnderTheInvariant
  intro s hs
  have hfetched := fetch_fromSameEngine s
  cases hfetch : fetch s with
  | settled u => exact ⟨u, step_settled hfetch⟩
  | run i u =>
    rw [hfetch] at hfetched
    obtain ⟨-, hbooted⟩ := u.inv_iff.mp (hs.of_sameEngine hfetched)
    obtain ⟨v, hexec⟩ := exec_next i hbooted
    exact ⟨retire i v, step_run hfetch hexec⟩

/-! #### The raw writes (R110, R112, R113) -/

theorem exec_cmd_ready {s : State} {h : Handle} (hready : s.Ready h) (bs : List Byte) :
    exec (.cmd bs) s = .next (frame h true bs .cmdRaw s).finish := by
  rw [exec_cmd, operate_run hready.1 hready.readHandle]

theorem exec_data_ready {s : State} {h : Handle} (hready : s.Ready h) (bs : List Byte) :
    exec (.data bs) s = .next (frame h false bs .dataRaw s).finish := by
  rw [exec_data, operate_run hready.1 hready.readHandle]

/-- Settles O16: a raw write is the framing step, which ends in one of three ways. -/
theorem rawWritesFollowTheirPseudocode : Obligations.RawWritesFollowTheirPseudocode := by
  unfold Obligations.RawWritesFollowTheirPseudocode
  intro s h bs hready
  rw [exec_cmd_ready hready, exec_data_ready hready]
  refine ⟨fun hok => ?_, fun hdc => ?_, fun hserial => ?_⟩
  · rw [frame_ok hok, frame_ok hok]
    exact ⟨rfl, rfl⟩
  · rw [frame_dcFails hdc, frame_dcFails hdc]
    exact ⟨rfl, rfl⟩
  · rw [frame_serialFails hserial, frame_serialFails hserial]
    exact ⟨rfl, rfl⟩

/-! #### The backlight (R114) -/

theorem State.FailsAfter.draw {s : State} (h : s.FailsAfter 0) : s.draw.answer = .fail := h.2

theorem exec_backlight_ready {s : State} {h : Handle} (hready : s.Ready h) (on : Bool) :
    exec (.backlight on) s = .next (driveBacklight on h.pins s).finish := by
  rw [exec_backlight, operate_run hready.1 hready.readPins]

theorem driveBacklight_ok {s : State} (hok : s.draw.answer = .ok) (on : Bool) (pins : PinMap) :
    driveBacklight on pins s =
      ⟨{ s.afterEvents [.write pins.backlight (backlightLevel on) .backlight .ok] 1 with
        blPin := some (backlightLevel on), blOn := some on }, .ok ()⟩ := by
  rw [driveBacklight, attempt_ok hok]

theorem driveBacklight_fails {s : State} (hfail : s.draw.answer = .fail) (on : Bool) (pins : PinMap) :
    driveBacklight on pins s =
      ⟨{ s.afterEvents [.write pins.backlight (backlightLevel on) .backlight .fail] 1 with
        blPin := none, blOn := none }, .error .transfer⟩ := by
  rw [driveBacklight, attempt_fail hfail]

/-- Settles O17: the operation is its pin write, at the active-low level. -/
theorem backlightFollowsItsPseudocode : Obligations.BacklightFollowsItsPseudocode := by
  unfold Obligations.BacklightFollowsItsPseudocode
  intro s h hready
  rw [exec_backlight_ready hready, exec_backlight_ready hready]
  refine ⟨fun hok => ?_, fun hfail => ?_⟩
  · have hdraw : s.draw.answer = .ok := hok.draw Nat.one_pos
    rw [driveBacklight_ok hdraw, driveBacklight_ok hdraw]
    exact ⟨rfl, rfl⟩
  · rw [driveBacklight_fails hfail.draw, driveBacklight_fails hfail.draw]
    exact ⟨rfl, rfl⟩

/-! #### CONFIGURE (R111, R188) -/

/-- A CONFIGURE before initialization ends as its body does. -/
theorem exec_configure_of_body {s t : State} {pins : PinMap} {res : Except Error Handle}
    (hphase : s.phase = .uninitialized) (hbody : configureBody pins s = ⟨t, res⟩) :
    exec (.configure pins) s = .next (t.finish (res.map fun _ => ())) := by
  rw [exec_configure_uninitialized hphase, hbody]
  cases res <;> rfl

/-- The GPIO call fails (R111). -/
theorem configureBody_gpioFails {pins : PinMap} {s : State} (hfail : s.FailsAfter 0) :
    configureBody pins s = ⟨{ s.afterEvents [.setupGpio .fail] 1 with pins := some pins }, .error .busInit⟩ := by
  have hgpio : ({ s with pins := some pins } : State).draw.answer = .fail := hfail.draw
  rw [configureBody, attempt_fail hgpio, Ran.andThen_error]
  rfl

/-- The channel call fails (R111; log entry 12). -/
theorem configureBody_channelFails {pins : PinMap} {s : State} (hfail : s.FailsAfter 1) :
    configureBody pins s =
      ⟨{ s.afterEvents
          [.setupGpio .ok, .setupChannel pins.chipEnable pins.data pins.clock s.cfg.spiMode .fail] 2 with
        pins := some pins }, .error .busInit⟩ := by
  have hgpio : ({ s with pins := some pins } : State).draw.answer = .ok := hfail.1.draw Nat.one_pos
  rw [configureBody, attempt_ok hgpio, Ran.andThen_ok, attempt_fail, Ran.andThen_error]
  · simp [State.afterEvents]
  · exact hfail.2

/-- The events of a CONFIGURE begin with its two setup calls, and a `PinMode` call follows for each pin in the listed
order. -/
theorem configureEvents_take (c : Config) (pins : PinMap) (k : Nat) :
    (configureEvents c pins).take (2 + k) =
      [.setupGpio .ok, .setupChannel pins.chipEnable pins.data pins.clock c.spiMode .ok] ++
        ((pinOrder pins).take k).map fun p => .pinMode p .ok := by
  rw [List.map_take, Nat.add_comm]
  rfl

/-- The `PinMode` call of pin `p`, the k-th in the listed order, fails (R111). -/
theorem configureBody_pinModeFails {pins : PinMap} {s : State} {k : Nat} {p : Pin} (hp : (pinOrder pins)[k]? = some p)
    (hfail : s.FailsAfter (2 + k)) :
    configureBody pins s =
      ⟨{ s.afterEvents ((configureEvents s.cfg pins).take (2 + k) ++ [.pinMode p .fail]) (3 + k) with
        pins := some pins
        channel := some (s.drawAt (s.drawn + 1)).handle
        outputs := ((pinOrder pins).take k).foldl (fun o p => insertPin p o) s.outputs }, .error .busInit⟩ := by
  have hgpio : ({ s with pins := some pins } : State).draw.answer = .ok := hfail.1.draw (by omega)
  rw [configureBody, attempt_ok hgpio, Ran.andThen_ok, attempt_ok, Ran.andThen_ok, setOutputs_fails _ hp,
    Ran.andThen_error]
  · simp [State.afterEvents, State.draw, State.drawAt, configureEvents_take]
    omega
  · exact State.FailsAfter.later (s := s) hfail rfl rfl
  · exact hfail.1 1 (by omega)

/-- Settles O18: CONFIGURE's body for each answer of the backend, ended with its result. -/
theorem configureCompletes : Obligations.ConfigureCompletes := by
  unfold Obligations.ConfigureCompletes
  intro s pins hphase order handle
  exact ⟨fun hok => exec_configure_of_body hphase (configureBody_ok hok),
    fun hfail => exec_configure_of_body hphase (configureBody_gpioFails hfail),
    fun hfail => exec_configure_of_body hphase (configureBody_channelFails hfail),
    fun k p hp hfail => exec_configure_of_body hphase (configureBody_pinModeFails hp hfail)⟩

/-! #### The registers each operation writes -/

/-- The registers of the spec's "Registers written", those that are written together as one. -/
inductive Register where
  | phase
  /-- `pins`, `channel` and `outputs` -/
  | handle
  | dc
  | rst
  /-- `blPin` and `blOn` -/
  | backlight
  | contrast
  | lastPos
  | refused

/-- The register holds in `t` what it holds in `s`. -/
def Register.Same (s t : State) : Register → Prop
  | .phase => t.phase = s.phase
  | .handle => t.pins = s.pins ∧ t.channel = s.channel ∧ t.outputs = s.outputs
  | .dc => t.dc = s.dc
  | .rst => t.rst = s.rst
  | .backlight => t.blPin = s.blPin ∧ t.blOn = s.blOn
  | .contrast => t.contrast = s.contrast
  | .lastPos => t.lastPos = s.lastPos
  | .refused => t.refused = s.refused

/-- `t` differs from `s` in no register but those listed. -/
def State.ChangesOnly (regs : List Register) (s t : State) : Prop := ∀ r, r ∉ regs → r.Same s t

/-- The registers an operation that is not refused may write (R110 to R114, R131 to R133, R150, R151, R157). -/
@[simp] def registersWritten : Instr → List Register
  | .init _ _ => [.phase, .handle, .dc, .rst, .contrast, .lastPos]
  | .configure _ => [.handle]
  | .cmd _ | .data _ => [.dc]
  | .backlight _ => [.backlight]
  | .setpos _ _ | .locate _ _ | .cls | .text _ _ _ => [.dc, .lastPos]
  | .contrast _ => [.dc, .contrast]
  | .setBank _ | .setSegment _ | .functionSetExtended | .cmd0x14 | .setVop _ | .functionSetNormal
  | .displayControlNormal | .dataByte _ | .positionSequence _ _ | .contrastSequence _ => []

section

variable {regs : List Register} {s t : State}

theorem State.ChangesOnly.refl (s : State) : s.ChangesOnly regs s := fun r _ => by
  cases r with
  | handle => exact ⟨rfl, rfl, rfl⟩
  | backlight => exact ⟨rfl, rfl⟩
  | phase | dc | rst | contrast | lastPos | refused => rfl

/-- An event and a draw write no register. -/
theorem State.ChangesOnly.call (ht : s.ChangesOnly regs t) (ev : Answer → Event) : s.ChangesOnly regs (t.call ev) :=
  fun r hr => by cases r <;> exact ht _ hr

theorem State.ChangesOnly.hold (ht : s.ChangesOnly regs t) : s.ChangesOnly regs t.hold :=
  fun r hr => by cases r <;> exact ht _ hr

theorem State.ChangesOnly.finish (ht : s.ChangesOnly regs t) (res : Except Error Unit) :
    s.ChangesOnly regs (t.finish res) :=
  fun r hr => by cases r <;> exact ht _ hr

theorem State.ChangesOnly.setPhase (ht : s.ChangesOnly regs t) (hmem : .phase ∈ regs) (v : Phase) :
    s.ChangesOnly regs { t with phase := v } := fun r hr => by
  cases r with
  | phase => exact absurd hmem hr
  | _ => exact ht _ hr

theorem State.ChangesOnly.setDc (ht : s.ChangesOnly regs t) (hmem : .dc ∈ regs) (v : Option Level) :
    s.ChangesOnly regs { t with dc := v } := fun r hr => by
  cases r with
  | dc => exact absurd hmem hr
  | _ => exact ht _ hr

theorem State.ChangesOnly.setRst (ht : s.ChangesOnly regs t) (hmem : .rst ∈ regs) (v : Option Level) :
    s.ChangesOnly regs { t with rst := v } := fun r hr => by
  cases r with
  | rst => exact absurd hmem hr
  | _ => exact ht _ hr

theorem State.ChangesOnly.setContrast (ht : s.ChangesOnly regs t) (hmem : .contrast ∈ regs) (v : Option Byte) :
    s.ChangesOnly regs { t with contrast := v } := fun r hr => by
  cases r with
  | contrast => exact absurd hmem hr
  | _ => exact ht _ hr

theorem State.ChangesOnly.setLastPos (ht : s.ChangesOnly regs t) (hmem : .lastPos ∈ regs)
    (v : Option (Segment × Bank)) : s.ChangesOnly regs { t with lastPos := v } := fun r hr => by
  cases r with
  | lastPos => exact absurd hmem hr
  | _ => exact ht _ hr

theorem State.ChangesOnly.setBacklight (ht : s.ChangesOnly regs t) (hmem : .backlight ∈ regs) (pin : Option Level)
    (on : Option Bool) : s.ChangesOnly regs { t with blPin := pin, blOn := on } := fun r hr => by
  cases r with
  | backlight => exact absurd hmem hr
  | _ => exact ht _ hr

theorem State.ChangesOnly.setHandle (ht : s.ChangesOnly regs t) (hmem : .handle ∈ regs) (pins : Option PinMap)
    (channel : Option ChannelHandle) (outputs : List Pin) :
    s.ChangesOnly regs { t with pins := pins, channel := channel, outputs := outputs } := fun r hr => by
  cases r with
  | handle => exact absurd hmem hr
  | _ => exact ht _ hr

/-! Each piece of an operation writes its own registers, so it adds none to a list that holds them. -/

theorem frame_changesOnly (hdc : .dc ∈ regs) (h : Handle) (isCmd : Bool) (bytes : List Byte) (kind : Kind)
    (ht : s.ChangesOnly regs t) : s.ChangesOnly regs (frame h isCmd bytes kind t).st :=
  Ran.andThen_keeps (attempt_keeps (ht.call _) (fun _ hu => hu.setDc hdc _) fun _ hu => hu.setDc hdc _)
    fun _ _ hu => attempt_keeps (hu.call _) (fun _ hv => hv) fun _ hv => hv

theorem setPositionBody_changesOnly (hdc : .dc ∈ regs) (hpos : .lastPos ∈ regs) (h : Handle) (p : Segment × Bank)
    (ht : s.ChangesOnly regs t) : s.ChangesOnly regs (setPositionBody h p t).st :=
  Ran.andThen_keeps (Ran.onError_keeps (frame_changesOnly hdc h _ _ _ ht) fun _ hu => hu.setLastPos hpos _)
    fun _ _ hu => hu.setLastPos hpos _

theorem clearBody_changesOnly (hdc : .dc ∈ regs) (hpos : .lastPos ∈ regs) (h : Handle) (ht : s.ChangesOnly regs t) :
    s.ChangesOnly regs (clearBody h t).st :=
  Ran.andThen_keeps (setPositionBody_changesOnly hdc hpos h _ ht) fun _ _ hu =>
    Ran.andThen_keeps (Ran.onError_keeps (frame_changesOnly hdc h _ _ _ hu) fun _ hv => hv.setLastPos hpos _)
      fun _ _ hv => setPositionBody_changesOnly hdc hpos h _ hv

theorem sendContrast_changesOnly (hdc : .dc ∈ regs) (hcontrast : .contrast ∈ regs) (h : Handle) (v : Byte)
    (ht : s.ChangesOnly regs t) : s.ChangesOnly regs (sendContrast h v t).st :=
  Ran.andThen_keeps (Ran.onError_keeps (frame_changesOnly hdc h _ _ _ ht) fun _ hu => hu.setContrast hcontrast _)
    fun _ _ hu => hu.setContrast hcontrast _

theorem drawChars_changesOnly (hdc : .dc ∈ regs) (hpos : .lastPos ∈ regs) (h : Handle) (chars : List CharCode)
    (ht : s.ChangesOnly regs t) : s.ChangesOnly regs (drawChars h chars t).st := by
  induction chars generalizing t with
  | nil => exact ht
  | cons c cs ih =>
    unfold drawChars
    split
    · exact ht
    · exact Ran.andThen_keeps
        (Ran.onError_keeps (frame_changesOnly hdc h _ _ _ ht) fun _ hu => hu.setLastPos hpos _) fun _ _ hu => ih hu

theorem driveBacklight_changesOnly (hbl : .backlight ∈ regs) (on : Bool) (pins : PinMap)
    (ht : s.ChangesOnly regs t) : s.ChangesOnly regs (driveBacklight on pins t).st :=
  attempt_keeps (ht.call _) (fun _ hu => hu.setBacklight hbl _ _) fun _ hu => hu.setBacklight hbl _ _

theorem driveReset_changesOnly (hrst : .rst ∈ regs) (pins : PinMap) (level : Level) (ht : s.ChangesOnly regs t) :
    s.ChangesOnly regs (driveReset pins level t).st :=
  attempt_keeps (ht.call _) (fun _ hu => hu.setRst hrst _) fun _ hu => hu.setRst hrst _

theorem configureBody_changesOnly (hhandle : .handle ∈ regs) (pins : PinMap) (ht : s.ChangesOnly regs t) :
    s.ChangesOnly regs (configureBody pins t).st :=
  Ran.andThen_keeps
    (attempt_keeps ((ht.setHandle hhandle (some pins) t.channel t.outputs).call _) (fun _ hu => hu) fun _ hu => hu)
    fun _ _ hu =>
      Ran.andThen_keeps (attempt_keeps (hu.call _) (fun _ hv => hv) fun _ hv => hv.setHandle hhandle _ _ _)
        fun _ _ hv =>
          Ran.andThen_keeps
            (setOutputs_keeps_of (fun _ _ hw => hw.call _) (fun _ _ hw => hw.setHandle hhandle _ _ _) _ _ hv)
            fun _ _ hw => hw

/-- INIT (R150) writes every register of its list and no other. -/
theorem initBody_changesOnly (pins : PinMap) (contrast : Byte) (s : State) :
    s.ChangesOnly (registersWritten (.init pins contrast)) (initBody pins contrast s).st :=
  Ran.andThen_keeps (configureBody_changesOnly (by simp) pins (.refl s)) fun h _ ht =>
    Ran.andThen_keeps (driveReset_changesOnly (by simp) pins .low ht) fun _ _ hu =>
      Ran.andThen_keeps (driveReset_changesOnly (by simp) pins .high hu.hold) fun _ _ hv =>
        Ran.andThen_keeps
          (sendContrast_changesOnly (by simp) (by simp) h contrast hv)
          fun _ _ hw =>
            Ran.andThen_keeps (clearBody_changesOnly (by simp) (by simp) h hw)
              fun _ _ hx => hx.setPhase (by simp) _

/-- An operation is refused, or it changes what its body changes. -/
theorem operate_refuses_or_changesOnly {α β : Type} {check : Except Error β} {read : State → Except Fault α}
    {body : β → α → State → Ran Unit} (hbody : ∀ b a, s.ChangesOnly regs (body b a s).st)
    (h : operate check read body s = .next t) : (∃ reason, t = s.refuse reason) ∨ s.ChangesOnly regs t := by
  rcases operate_cases h with ⟨-, rfl⟩ | ⟨-, e, -, rfl⟩ | ⟨-, b, a, -, -, rfl⟩
  · exact .inl ⟨_, rfl⟩
  · exact .inr ((State.ChangesOnly.refl s).finish _)
  · exact .inr ((hbody b a).finish _)

theorem exec_init_refuses_or_changesOnly {pins : PinMap} {contrast : Byte}
    (h : exec (.init pins contrast) s = .next t) :
    (∃ reason, t = s.refuse reason) ∨ s.ChangesOnly (registersWritten (.init pins contrast)) t := by
  cases hphase : s.phase with
  | uninitialized =>
    rw [exec_init_uninitialized hphase] at h
    cases h
    exact .inr ((initBody_changesOnly pins contrast s).finish _)
  | initialized =>
    rw [exec_init_initialized hphase] at h
    cases h
    exact .inl ⟨_, rfl⟩

theorem exec_configure_refuses_or_changesOnly {pins : PinMap} (h : exec (.configure pins) s = .next t) :
    (∃ reason, t = s.refuse reason) ∨ s.ChangesOnly (registersWritten (.configure pins)) t := by
  cases hphase : s.phase with
  | uninitialized =>
    rw [exec_configure_of_body hphase rfl] at h
    cases h
    exact .inr ((configureBody_changesOnly (by simp) pins (.refl s)).finish _)
  | initialized =>
    rw [exec_configure_initialized hphase] at h
    cases h
    exact .inl ⟨_, rfl⟩

/-- A host operation is refused, or it changes no register but those its rule lists. -/
theorem exec_refuses_or_changesOnly {i : Instr} (hi : i.layer = .host) (h : exec i s = .next t) :
    (∃ reason, t = s.refuse reason) ∨ s.ChangesOnly (registersWritten i) t := by
  have hs {regs : List Register} : s.ChangesOnly regs s := .refl s
  cases i with
  | init => exact exec_init_refuses_or_changesOnly h
  | configure => exact exec_configure_refuses_or_changesOnly h
  | cmd =>
    rw [exec_cmd] at h
    exact operate_refuses_or_changesOnly (fun _ a => frame_changesOnly (by simp) a _ _ _ hs) h
  | data =>
    rw [exec_data] at h
    exact operate_refuses_or_changesOnly (fun _ a => frame_changesOnly (by simp) a _ _ _ hs) h
  | backlight on =>
    rw [exec_backlight] at h
    exact operate_refuses_or_changesOnly
      (fun _ pins => driveBacklight_changesOnly (by simp) on pins hs) h
  | setpos =>
    rw [exec_setpos] at h
    exact operate_refuses_or_changesOnly
      (fun p a => setPositionBody_changesOnly (by simp) (by simp) a p hs) h
  | locate =>
    rw [exec_locate] at h
    exact operate_refuses_or_changesOnly
      (fun p a => setPositionBody_changesOnly (by simp) (by simp) a p hs) h
  | cls =>
    rw [exec_cls] at h
    exact operate_refuses_or_changesOnly
      (fun _ a => clearBody_changesOnly (by simp) (by simp) a hs) h
  | contrast value =>
    rw [exec_contrast] at h
    exact operate_refuses_or_changesOnly
      (fun _ a => sendContrast_changesOnly (by simp) (by simp) a value hs) h
  | text _ _ chars =>
    rw [exec_text] at h
    exact operate_refuses_or_changesOnly (fun p a => Ran.andThen_keeps
      (setPositionBody_changesOnly (by simp) (by simp) a p hs)
      fun _ _ => drawChars_changesOnly (by simp) (by simp) a chars) h
  | setBank | setSegment | functionSetExtended | cmd0x14 | setVop | functionSetNormal | displayControlNormal
  | dataByte | positionSequence | contrastSequence => cases hi

end

/-! Which operations the lists leave a register out of. -/

theorem phase_rst_unwritten {i : Instr} (hinit : ∀ pins c, i ≠ .init pins c) :
    .phase ∉ registersWritten i ∧ .rst ∉ registersWritten i := by
  cases i with
  | init pins c => exact absurd rfl (hinit pins c)
  | _ => simp

theorem handle_unwritten {i : Instr} (hinit : ∀ pins c, i ≠ .init pins c) (hconf : ∀ pins, i ≠ .configure pins) :
    .handle ∉ registersWritten i := by
  cases i with
  | init pins c => exact absurd rfl (hinit pins c)
  | configure pins => exact absurd rfl (hconf pins)
  | _ => simp

theorem backlight_unwritten {i : Instr} (hbl : ∀ on, i ≠ .backlight on) : .backlight ∉ registersWritten i := by
  cases i with
  | backlight on => exact absurd rfl (hbl on)
  | _ => simp

theorem contrast_unwritten {i : Instr} (hinit : ∀ pins c, i ≠ .init pins c) (hcontrast : ∀ v, i ≠ .contrast v) :
    .contrast ∉ registersWritten i := by
  cases i with
  | init pins c => exact absurd rfl (hinit pins c)
  | contrast v => exact absurd rfl (hcontrast v)
  | _ => simp

theorem lastPos_unwritten {i : Instr} (hinit : ∀ pins c, i ≠ .init pins c) (hsetpos : ∀ a b, i ≠ .setpos a b)
    (hlocate : ∀ a b, i ≠ .locate a b) (hcls : i ≠ .cls) (htext : ∀ a b cs, i ≠ .text a b cs) :
    .lastPos ∉ registersWritten i := by
  cases i with
  | init pins c => exact absurd rfl (hinit pins c)
  | setpos a b => exact absurd rfl (hsetpos a b)
  | locate a b => exact absurd rfl (hlocate a b)
  | cls => exact absurd rfl hcls
  | text a b cs => exact absurd rfl (htext a b cs)
  | _ => simp

theorem dc_unwritten {i : Instr} (h : (∃ on, i = .backlight on) ∨ ∃ pins, i = .configure pins) :
    .dc ∉ registersWritten i := by
  rcases h with ⟨on, rfl⟩ | ⟨pins, rfl⟩ <;> simp

theorem refused_unwritten (i : Instr) : .refused ∉ registersWritten i := by
  cases i <;> simp

/-- Settles O39: a refusal writes its mark alone, and every other result leaves the registers outside the operation's
list. -/
theorem operationsWriteOnlyTheirRegisters : Obligations.OperationsWriteOnlyTheirRegisters := by
  unfold Obligations.OperationsWriteOnlyTheirRegisters
  intro s t i hi h
  rcases exec_refuses_or_changesOnly hi h with ⟨reason, rfl⟩ | hkept
  · exact ⟨fun _ => ⟨rfl, rfl⟩, fun _ _ => ⟨rfl, rfl, rfl⟩, fun _ => ⟨rfl, rfl⟩, fun _ _ => rfl, fun _ _ _ _ _ => rfl,
      fun _ => rfl, .inr ⟨rfl, reason, rfl⟩⟩
  · refine ⟨fun hinit => ?_, fun hinit hconf => hkept .handle (handle_unwritten hinit hconf),
      fun hbl => hkept .backlight (backlight_unwritten hbl),
      fun hinit hcontrast => hkept .contrast (contrast_unwritten hinit hcontrast),
      fun hinit hsetpos hlocate hcls htext => hkept .lastPos (lastPos_unwritten hinit hsetpos hlocate hcls htext),
      fun hdc => hkept .dc (dc_unwritten hdc), .inl (hkept .refused (refused_unwritten i))⟩
    obtain ⟨hphase, hrst⟩ := phase_rst_unwritten hinit
    exact ⟨hkept .phase hphase, hkept .rst hrst⟩

end Sys2Proof.Machine

/-! ### The addressing model: positions, range checks and the clear screen -/

namespace Sys2Proof.Machine

variable {wrap : Option (Segment × Bank)}

/-! #### Positions (R131, R132, R188) -/

theorem exec_setpos_ready {s : State} {h : Handle} (hready : s.Ready h) (segment : Segment) (bank : Bank) :
    exec (.setpos segment.val bank.val) s = .next (setPositionBody h (segment, bank) s).finish := by
  rw [exec_setpos, place_ok, operate_run hready.1 hready.readHandle]

/-- A failing framing step makes the recorded position unknown (R188). -/
theorem setPositionBody_of_frame_error {h : Handle} {p : Segment × Bank} {s t : State} {e : Error}
    (hframe : frame h true (positionBytes p.1 p.2) (.cmdPos p.1 p.2) s = ⟨t, .error e⟩) :
    setPositionBody h p s = ⟨{ t with lastPos := none }, .error e⟩ := by
  rw [setPositionBody, hframe, Ran.onError_error, Ran.andThen_error]

/-- Settles O21: SET_POSITION is its framing step, which ends in one of three ways. -/
theorem setPositionFollowsItsPseudocode : Obligations.SetPositionFollowsItsPseudocode := by
  unfold Obligations.SetPositionFollowsItsPseudocode
  intro s h segment bank hready
  rw [exec_setpos_ready hready]
  refine ⟨fun hok => ?_, fun hdc => ?_, fun hserial => ?_⟩
  · rw [setPositionBody_ok hok]
    rfl
  · rw [setPositionBody_of_frame_error (frame_dcFails hdc)]
    rfl
  · rw [setPositionBody_of_frame_error (frame_serialFails hserial)]
    rfl

/-- LOCATE sets the position its row and column stand for (R132). -/
theorem exec_locate_eq_setpos (row col : Int) (s : State) : exec (.locate row col) s = exec (.setpos (6 * col) row) s :=
  rfl

/-- Settles O22: SET_POSITION's case of two ok answers (O21), at the segment of the column. -/
theorem locateIsScaledSetPosition : Obligations.LocateIsScaledSetPosition := by
  unfold Obligations.LocateIsScaledSetPosition
  refine ⟨fun s row col => exec_locate_eq_setpos row col s, fun s h row col segment hready hok hsegment => ?_⟩
  have hcolumn : 6 * (col.val : Int) = segment.val := by omega
  obtain ⟨hcompletes, -, -⟩ := setPositionFollowsItsPseudocode s h segment row hready
  rw [exec_locate_eq_setpos, hcolumn]
  exact hcompletes hok

/-! #### The range checks (R130, R155, R183) -/

theorem inRange_iff (segment bank : Int) :
    inRange segment bank = true ↔ 0 ≤ segment ∧ segment ≤ 83 ∧ 0 ≤ bank ∧ bank ≤ 5 := by
  simp [inRange, and_assoc]

theorem textFits_iff (row col : Int) (n : Nat) : textFits row col n = true ↔
    0 ≤ row ∧ row ≤ 5 ∧ 0 ≤ col ∧ col ≤ 13 ∧ 6 * col + 6 * (n : Int) ≤ 84 := by
  simp [textFits, and_assoc]

theorem place_outOfRange {segment bank : Int} (h : ¬ (0 ≤ segment ∧ segment ≤ 83 ∧ 0 ≤ bank ∧ bank ≤ 5)) :
    place segment bank = .error .range :=
  if_neg (mt (inRange_iff segment bank).mp h)

theorem textStart_outOfRange {row col : Int} {n : Nat}
    (h : ¬ (0 ≤ row ∧ row ≤ 5 ∧ 0 ≤ col ∧ col ≤ 13 ∧ 6 * col + 6 * (n : Int) ≤ 84)) :
    textStart row col n = .error .range :=
  if_neg (mt (textFits_iff row col n).mp h)

/-- Settles O23: the check fails before the operation reads its handle; segments 0 to 83 hold the columns 0 to 13. -/
theorem rangeErrorsPrecedeEveryCall : Obligations.RangeErrorsPrecedeEveryCall := by
  unfold Obligations.RangeErrorsPrecedeEveryCall
  intro s hphase
  refine ⟨fun segment bank hout => ?_, fun row col hout => ?_, fun row col chars hout => ?_⟩
  · rw [exec_setpos, place_outOfRange hout]
    exact operate_checked hphase
  · have hposition : ¬ (0 ≤ 6 * col ∧ 6 * col ≤ 83 ∧ 0 ≤ row ∧ row ≤ 5) := by omega
    rw [exec_locate, columnSegment, place_outOfRange hposition]
    exact operate_checked hphase
  · rw [exec_text, textStart_outOfRange hout]
    exact operate_checked hphase

/-! #### The clear screen (R133) -/

/-- Settles O24: CLEAR_SCREEN is its body, whose six calls succeed. -/
theorem clearScreenCompletes : Obligations.ClearScreenCompletes := by
  unfold Obligations.ClearScreenCompletes
  intro s h hready hok
  rw [exec_cls, operate_run hready.1 hready.readHandle, clearBody_ok hok]
  rfl

/-- To the panel a successful transfer is its serial call (R56). -/
theorem Panel.foldl_transferEvents (c : Config) (h : Handle) (isCmd : Bool) (bs : List Byte) (kind : Kind) (p : Panel) :
    (transferEvents c h isCmd bs kind).foldl (Panel.step wrap) p = p.serialOk wrap bs kind := by
  rw [transferEvents, List.foldl_cons, Panel.step_write (by simp)]
  rfl

/-- To the panel a clear screen is a position, the zero bytes and the position again. -/
theorem Panel.foldl_clearEvents (c : Config) (h : Handle) (p : Panel) :
    (clearEvents c h).foldl (Panel.step wrap) p =
      Panel.position { (p.position 0 0).dataBytes wrap (zeros frameBytes) with seq := .idle } 0 0 := by
  rw [clearEvents, List.foldl_append, List.foldl_append, Panel.foldl_transferEvents, Panel.foldl_transferEvents,
    Panel.foldl_transferEvents]
  rfl

/-- In normal mode a position up to segment 63 sets the cursor (R56). -/
theorem Panel.position_cursor {p : Panel} (hmode : p.mode = some .normal) {segment : Segment}
    (hsegment : segment.val ≤ 63) (bank : Bank) : (p.position segment bank).cursor = some (segment, bank) :=
  if_pos ⟨hmode, hsegment⟩

/-- A frame of zero bytes from the first cell on writes every cell (R54, R55). -/
theorem Panel.dataBytes_zeros_cell {p : Panel} (hcursor : p.cursor = some (0, 0)) (bank : Bank) (segment : Segment) :
    (p.dataBytes wrap (zeros frameBytes)).cell bank segment = some 0x00#8 := by
  have hlength : (zeros frameBytes).length = frameBytes := List.length_replicate
  obtain ⟨hwritten, -, -⟩ := Panel.dataBytes_spec (wrap := wrap) (zeros frameBytes) hcursor (by rw [hlength]; decide)
  have hcell := hwritten (cellAddress bank segment) (hlength.symm ▸ cellAddress_lt bank segment)
  simpa [Panel.cell_eq, cellAddress, zeros] using hcell

/-- Settles O25: the position sets the cursor at the first cell, the zero bytes fill the frame wherever the last of them
leaves the cursor, and the second position brings it back. -/
theorem clearScreenFillsTheFrame : Obligations.ClearScreenFillsTheFrame := by
  unfold Obligations.ClearScreenFillsTheFrame
  intro s t h hready hok hmode hexec
  rw [clearScreenCompletes s h hready hok] at hexec
  cases hexec
  have hcursor : (s.panel.position 0 0).cursor = some (0, 0) := Panel.position_cursor hmode (by decide) 0
  have hcells := Panel.dataBytes_zeros_cell (wrap := s.cfg.panelLastWrap) hcursor
  obtain ⟨hkept, -⟩ :=
    Panel.dataBytes_registers (wrap := s.cfg.panelLastWrap) (s.panel.position 0 0) (zeros frameBytes)
  simp only [State.afterEvents_panel, Panel.foldl_clearEvents]
  -- From here on only these facts about the filled panel count, not the 504 writes that led to it.
  generalize (s.panel.position 0 0).dataBytes s.cfg.panelLastWrap (zeros frameBytes) = filled at hcells hkept ⊢
  have hmode' : filled.mode = some .normal := hkept.trans hmode
  exact ⟨hcells, Panel.position_cursor hmode' (by decide) 0, hmode'⟩

end Sys2Proof.Machine

/-! ### The renderer: the contrast, the compositor, the texts and INIT -/

namespace Sys2Proof.Machine

variable {wrap : Option (Segment × Bank)}

/-! #### The contrast (R151, R188) -/

theorem exec_contrast_ready {s : State} {h : Handle} (hready : s.Ready h) (v : Byte) :
    exec (.contrast v) s = .next (sendContrast h v s).finish := by
  rw [exec_contrast, operate_run hready.1 hready.readHandle]

/-- A failing framing step makes the recorded contrast unknown (R188). -/
theorem sendContrast_of_frame_error {h : Handle} {v : Byte} {s t : State} {e : Error}
    (hframe : frame h true (contrastBytes v) (.cmdContrast v) s = ⟨t, .error e⟩) :
    sendContrast h v s = ⟨{ t with contrast := none }, .error e⟩ := by
  rw [sendContrast, hframe, Ran.onError_error, Ran.andThen_error]

/-- Settles O28: SET_CONTRAST is its framing step, which ends in one of three ways. -/
theorem setContrastFollowsItsPseudocode : Obligations.SetContrastFollowsItsPseudocode := by
  unfold Obligations.SetContrastFollowsItsPseudocode
  intro s h v hready
  rw [exec_contrast_ready hready]
  refine ⟨fun hok => ?_, fun hdc => ?_, fun hserial => ?_⟩
  · rw [sendContrast_ok hok]
    rfl
  · rw [sendContrast_of_frame_error (frame_dcFails hdc)]
    rfl
  · rw [sendContrast_of_frame_error (frame_serialFails hserial)]
    rfl

/-! #### The compositor (R152 to R154) -/

/-- Settles O59: the glyph's columns, and the spacing column appended to them. -/
theorem cellBytesEndInTheSpacingColumn : Obligations.CellBytesEndInTheSpacingColumn := by
  unfold Obligations.CellBytesEndInTheSpacingColumn
  intro g0 g1 g2 g3 g4
  rfl

/-- The cells of characters that all have glyphs, in order (R153, R154). -/
def textBytes (font : Font) (chars : List CharCode) : List Byte :=
  chars.flatMap fun c => cellBytes ((glyph font c).getD [])

theorem textBytes_cons (font : Font) (c : CharCode) (cs : List CharCode) :
    textBytes font (c :: cs) = cellBytes ((glyph font c).getD []) ++ textBytes font cs := rfl

/-- Where the characters of `before` have glyphs, the compositor has their cells and goes on with the rest. -/
theorem compose_append {font : Font} {before : List CharCode} (hglyphs : ∀ c ∈ before, glyph font c ≠ none)
    (rest : List CharCode) :
    compose font (before ++ rest) = (textBytes font before ++ (compose font rest).1, (compose font rest).2) := by
  induction before with
  | nil => rfl
  | cons c cs ih =>
    obtain ⟨hc, hcs⟩ := List.forall_mem_cons.mp hglyphs
    obtain ⟨g, hg⟩ := Option.ne_none_iff_exists'.mp hc
    simp [compose, textBytes_cons, hg, ih hcs]

theorem compose_of_glyphs {font : Font} {chars : List CharCode} (hglyphs : ∀ c ∈ chars, glyph font c ≠ none) :
    compose font chars = (textBytes font chars, none) := by
  simpa [compose] using compose_append hglyphs []

/-- A cell of a five-byte glyph has six bytes. -/
theorem textBytes_length {font : Font} {chars : List CharCode}
    (hfive : ∀ c ∈ chars, ∃ g, glyph font c = some g ∧ g.length = 5) :
    (textBytes font chars).length = 6 * chars.length := by
  induction chars with
  | nil => rfl
  | cons c cs ih =>
    obtain ⟨⟨g, hg, hlength⟩, hcs⟩ := List.forall_mem_cons.mp hfive
    simp [textBytes_cons, cellBytes, hg, hlength, ih hcs]
    omega

/-- Settles O33: the compositor goes through the characters with glyphs, and stops at one that has none. -/
theorem composerStopsAtUnsupportedCharacters : Obligations.ComposerStopsAtUnsupportedCharacters := by
  unfold Obligations.ComposerStopsAtUnsupportedCharacters
  intro font before after hfont hglyphs
  have hfive : ∀ c ∈ before, ∃ g, glyph font c = some g ∧ g.length = 5 := fun c hc =>
    (Option.ne_none_iff_exists'.mp (hglyphs c hc)).imp fun g hg => ⟨hg, hfont c g hg⟩
  rw [compose_of_glyphs hglyphs]
  refine ⟨rfl, rfl, textBytes_length hfive, fun c hnone => ?_⟩
  simp [compose_append hglyphs, compose, hnone]

/-! #### The texts (R155 to R157) -/

/-- DRAW_TEXT of a text that fits is its position command and then its characters (R157). -/
theorem exec_text_ready {s : State} {h : Handle} (hready : s.Ready h) {row : Bank} {col : Fin 14} {segment : Segment}
    {chars : List CharCode} (hsegment : segment.val = 6 * col.val) (hfit : 6 * col.val + 6 * chars.length ≤ 84) :
    exec (.text row.val col.val chars) s =
      .next ((setPositionBody h (segment, row) s).andThen fun _ t => drawChars h chars t).finish := by
  rw [exec_text, textStart_ok hsegment hfit, operate_run hready.1 hready.readHandle]

/-- The position command and the glyph transfers of `before` succeed, and the loop goes on with `rest`. -/
theorem setPositionBody_andThen_drawChars {s : State} {h : Handle} {p : Segment × Bank} {before : List CharCode}
    (hok : s.AnswersOk (2 + 2 * before.length)) (hglyphs : ∀ c ∈ before, glyph s.cfg.font c ≠ none)
    (rest : List CharCode) :
    ((setPositionBody h p s).andThen fun _ t => drawChars h (before ++ rest) t) =
      drawChars h rest { s.afterEvents
          (transferEvents s.cfg h true (positionBytes p.1 p.2) (.cmdPos p.1 p.2) ++ glyphEvents s.cfg h before)
          (2 + 2 * before.length) with
        dc := some (dcLevel s.cfg before.isEmpty)
        lastPos := some p } := by
  rw [setPositionBody_ok (hok.mono (by omega)), Ran.andThen_ok, drawChars_append, ← State.afterEvents_afterEvents]
  · cases before <;> rfl
  · exact State.AnswersOk.later (s := s) hok rfl rfl
  · exact hglyphs

/-- A character with no glyph ends the loop where it is met (R156). -/
theorem drawChars_unsupported {h : Handle} {c : CharCode} {s : State} (hnone : glyph s.cfg.font c = none)
    (rest : List CharCode) : drawChars h (c :: rest) s = ⟨s, .error (.unsupportedCharacter c)⟩ := by
  rw [drawChars, hnone]

/-- Settles O30: after all its characters the loop has nothing left. -/
theorem drawTextCompletes : Obligations.DrawTextCompletes := by
  unfold Obligations.DrawTextCompletes
  intro s h row col segment chars hready hok hsegment hfit hglyphs
  have hbody := setPositionBody_andThen_drawChars (h := h) (p := (segment, row)) hok hglyphs []
  rw [List.append_nil] at hbody
  rw [exec_text_ready hready hsegment hfit, hbody]
  rfl

/-- Settles O31: the loop meets `c` after the transfers of `before`, and ends there. -/
theorem drawTextStopsAtAnUnsupportedCharacter : Obligations.DrawTextStopsAtAnUnsupportedCharacter := by
  unfold Obligations.DrawTextStopsAtAnUnsupportedCharacter
  intro s h row col segment before after c hready hok hsegment hfit hglyphs hnone
  have hlength : (before ++ c :: after).length = before.length + 1 + after.length := by simp; omega
  rw [exec_text_ready hready hsegment (hlength ▸ hfit), setPositionBody_andThen_drawChars hok hglyphs,
    drawChars_unsupported]
  · rfl
  · exact hnone

/-- To a panel outside any command sequence the glyph transfers are the bytes of the text. -/
theorem Panel.foldl_glyphEvents {p : Panel} (hseq : p.seq = .idle) (c : Config) (h : Handle) (chars : List CharCode) :
    (glyphEvents c h chars).foldl (Panel.step wrap) p = p.dataBytes wrap (textBytes c.font chars) := by
  induction chars generalizing p with
  | nil => rfl
  | cons ch chars ih =>
    have htransfer := Panel.foldl_transferEvents (wrap := wrap) c h false (cellBytes ((glyph c.font ch).getD []))
      (.dataGlyph ch) p
    obtain ⟨-, -, -, hkept⟩ := Panel.dataBytes_registers (wrap := wrap) p (cellBytes ((glyph c.font ch).getD []))
    have hidle := hkept.trans hseq
    rw [Panel.serialOk, ← hidle] at htransfer
    rw [glyphEvents, List.flatMap_cons, List.foldl_append, htransfer, textBytes_cons, Panel.dataBytes_append]
    exact ih hidle

/-- To the panel a completed text is its position and then its bytes. -/
theorem Panel.foldl_textEvents (c : Config) (h : Handle) (bs : List Byte) (segment : Segment) (bank : Bank)
    (chars : List CharCode) (p : Panel) :
    (transferEvents c h true bs (.cmdPos segment bank) ++ glyphEvents c h chars).foldl (Panel.step wrap) p =
      (p.position segment bank).dataBytes wrap (textBytes c.font chars) := by
  rw [List.foldl_append, Panel.foldl_transferEvents]
  exact Panel.foldl_glyphEvents rfl c h chars

/-- Data bytes that stay in the row of a known cursor: they fill the cells from the cursor on, every other cell stays,
and the cursor ends after the last of them where that is in the row (R54, R55). -/
theorem Panel.dataBytes_inRow {p : Panel} {start : Segment} {row : Bank} (hcursor : p.cursor = some (start, row))
    {bs : List Byte} (hfit : start.val + bs.length ≤ 84) :
    (∀ segment : Segment, start.val ≤ segment.val → segment.val < start.val + bs.length →
      (p.dataBytes wrap bs).cell row segment = bs[segment.val - start.val]?) ∧
    (∀ (bank : Bank) (segment : Segment),
      ¬ (bank = row ∧ start.val ≤ segment.val ∧ segment.val < start.val + bs.length) →
      (p.dataBytes wrap bs).cell bank segment = p.cell bank segment) ∧
    (∀ segment : Segment, segment.val = start.val + bs.length →
      (p.dataBytes wrap bs).cursor = some (segment, row)) := by
  have hrow := row.isLt
  obtain ⟨hwritten, hkept, hend⟩ := Panel.dataBytes_spec (wrap := wrap) bs hcursor (by
    simp only [cellAddress, frameBytes]
    omega)
  simp only [cellAddress, frameBytes] at hwritten hkept hend
  simp only [Panel.cell_eq, cellAddress]
  refine ⟨fun segment hfrom hto => ?_, fun bank segment hout => hkept _ ?_, fun segment hsegment => ?_⟩
  · have hlands := hwritten (segment.val - start.val) (by omega)
    rwa [Nat.add_assoc, Nat.add_sub_of_le hfrom, ← List.getElem?_eq_getElem] at hlands
  · rw [Fin.ext_iff] at hout
    omega
  · obtain ⟨d, hcursor', haddress⟩ := hend (by omega)
    have hcell : cellAddress d.2 d.1 = cellAddress row segment := by
      rw [cellAddress, cellAddress]
      omega
    obtain ⟨hbank, hsegment⟩ := cellAddress_inj hcell
    rw [hcursor', ← hbank, ← hsegment]

/-- Settles O32: the position sets the cursor, and the bytes of the text stay in its row. -/
theorem drawnTextFillsItsCells : Obligations.DrawnTextFillsItsCells := by
  unfold Obligations.DrawnTextFillsItsCells
  intro s t h row col chars hready hok hmode hcol hfit hfive hexec
  have hglyphs : ∀ c ∈ chars, glyph s.cfg.font c ≠ none := fun c hc => by
    obtain ⟨g, hg, -⟩ := hfive c hc
    simp [hg]
  have hlength := textBytes_length hfive
  obtain ⟨start, hstart⟩ : ∃ start : Segment, start.val = 6 * col.val := ⟨⟨6 * col.val, by omega⟩, rfl⟩
  have hcursor := Panel.position_cursor hmode (show start.val ≤ 63 by omega) row
  rw [drawTextCompletes s h row col start chars hready hok hstart hfit hglyphs] at hexec
  cases hexec
  obtain ⟨hwritten, hkept, hend⟩ := Panel.dataBytes_inRow (wrap := s.cfg.panelLastWrap) hcursor
    (bs := textBytes s.cfg.font chars) (by omega)
  rw [hlength, hstart] at hwritten hkept hend
  simp only [State.afterEvents_panel, Panel.foldl_textEvents, compose_of_glyphs hglyphs]
  exact ⟨hlength, hwritten, hkept, fun segment hsegment => hend segment (by omega)⟩


/-! #### Calls and transfers that fail after others (R110, R133, R188) -/

theorem driveReset_fails_after {s : State} {events : List Event} {n : Nat} {pins : PinMap} {level : Level}
    (hfail : s.FailsAfter n) :
    driveReset pins level (s.afterEvents events n) =
      ⟨{ s.afterEvents (events ++ [.write pins.reset level .reset .fail]) (n + 1) with rst := none },
        .error .transfer⟩ := by
  have hnext : (s.afterEvents events n).FailsAfter 0 := State.FailsAfter.later (s := s) hfail rfl rfl
  rw [driveReset_fails hnext.draw, State.afterEvents_afterEvents]

theorem frame_dcFails_after {s : State} {events : List Event} {n : Nat} {h : Handle} {isCmd : Bool} {bytes : List Byte}
    {kind : Kind} (hfail : s.FailsAfter n) :
    frame h isCmd bytes kind (s.afterEvents events n) =
      ⟨{ s.afterEvents (events ++ [.write h.pins.dataCommand (dcLevel s.cfg isCmd) .dc .fail]) (n + 1) with
          dc := none }, .error .transfer⟩ := by
  have hnext : (s.afterEvents events n).FailsAfter 0 := State.FailsAfter.later (s := s) hfail rfl rfl
  rw [frame_dcFails hnext, State.afterEvents_afterEvents, State.afterEvents_cfg]

theorem frame_serialFails_after {s : State} {events : List Event} {n : Nat} {h : Handle} {isCmd : Bool}
    {bytes : List Byte} {kind : Kind} (hfail : s.FailsAfter (n + 1)) :
    frame h isCmd bytes kind (s.afterEvents events n) =
      ⟨{ s.afterEvents (events ++ [.write h.pins.dataCommand (dcLevel s.cfg isCmd) .dc .ok,
            .serial h.channel bytes kind .fail]) (n + 2) with
          dc := some (dcLevel s.cfg isCmd) }, .error .transfer⟩ := by
  have hnext : (s.afterEvents events n).FailsAfter 1 := State.FailsAfter.later (s := s) hfail rfl rfl
  rw [frame_serialFails hnext, State.afterEvents_afterEvents, State.afterEvents_cfg]

/-! The clear screen stops at the first of its three transfers that fails (R133, R188). -/

theorem clearBody_of_home_error {h : Handle} {s t : State} {e : Error}
    (hframe : frame h true (positionBytes 0 0) (.cmdPos 0 0) s = ⟨t, .error e⟩) :
    clearBody h s = ⟨{ t with lastPos := none }, .error e⟩ := by
  rw [clearBody, setPositionBody_of_frame_error (p := (0, 0)) hframe, Ran.andThen_error]

theorem clearBody_of_zeros_error {h : Handle} {s t : State} {e : Error} (hok : s.AnswersOk 2)
    (hframe : frame h false (zeros frameBytes) .dataClear
      ({ s with dc := some (dcLevel s.cfg true), lastPos := some (0, 0) }.afterEvents
        ((clearEvents s.cfg h).take 2) 2) = ⟨t, .error e⟩) :
    clearBody h s = ⟨{ t with lastPos := none }, .error e⟩ := by
  have hhome : setPositionBody h (0, 0) s =
      ⟨{ s with dc := some (dcLevel s.cfg true), lastPos := some (0, 0) }.afterEvents
        ((clearEvents s.cfg h).take 2) 2, .ok ()⟩ := setPositionBody_ok hok
  rw [clearBody, hhome, Ran.andThen_ok, hframe, Ran.onError_error, Ran.andThen_error]

theorem clearBody_of_return_error {h : Handle} {s t : State} {e : Error} (hok : s.AnswersOk 4)
    (hframe : frame h true (positionBytes 0 0) (.cmdPos 0 0)
      ({ s with dc := some (dcLevel s.cfg false), lastPos := some (0, 0) }.afterEvents
        ((clearEvents s.cfg h).take 4) 4) = ⟨t, .error e⟩) :
    clearBody h s = ⟨{ t with lastPos := none }, .error e⟩ := by
  rw [clearBody, setPositionBody_ok (hok.mono (by omega)), Ran.andThen_ok, frame_ok, Ran.onError_ok, Ran.andThen_ok]
  · refine setPositionBody_of_frame_error (p := (0, 0)) ?_
    rw [← hframe]
    exact congrArg (frame h true (positionBytes 0 0) (.cmdPos 0 0)) (State.afterEvents_afterEvents
      { s with dc := some (dcLevel s.cfg false), lastPos := some (0, 0) } ((clearEvents s.cfg h).take 2)
      (transferEvents s.cfg h false (zeros frameBytes) .dataClear) 2 2)
  · exact State.AnswersOk.later (s := s) hok rfl rfl

/-! #### INIT (R150, R188, R211, R213) -/

/-- The registers of CONFIGURE, as INIT writes them when its first eight calls succeed (R111). -/
def State.configured (s : State) (pins : PinMap) : State :=
  { s with
    pins := some pins
    channel := some (s.drawAt (s.drawn + 1)).handle
    outputs := (pinOrder pins).foldl (fun o p => insertPin p o) s.outputs }

/-- The handle CONFIGURE sets up: the channel is its second call's. -/
def State.bootHandle (s : State) (pins : PinMap) : Handle := ⟨pins, (s.drawAt (s.drawn + 1)).handle⟩

/-- How long INIT holds the reset line LOW: the hold stands before the tenth call (R213). -/
def State.bootHold (s : State) : Nat := 100 + (s.drawAt (s.drawn + 9)).holdExtra

/-- The events of INIT where every call succeeds (R150). -/
def State.bootEvents (s : State) (pins : PinMap) (contrast : Byte) : List Event :=
  initEvents s.cfg (s.bootHandle pins) contrast s.bootHold

/-- The registers INIT has written when its contrast transfer has succeeded. -/
def State.contrasted (s : State) (pins : PinMap) (contrast : Byte) : State :=
  { s.configured pins with rst := some .high, dc := some (dcLevel s.cfg true), contrast := some contrast }

/-! INIT's body with its first calls done, up to the end of each piece: what is left runs in a state with the registers
written so far, after the first of the nineteen events. -/

theorem initBody_configured {s : State} (hok : s.AnswersOk 8) (pins : PinMap) (contrast : Byte) :
    initBody pins contrast s =
      (driveReset pins .low ((s.configured pins).afterEvents ((s.bootEvents pins contrast).take 8) 8)).andThen
        fun _ u => (driveReset pins .high u.hold).andThen fun _ v =>
          (sendContrast (s.bootHandle pins) contrast v).andThen fun _ w =>
            (clearBody (s.bootHandle pins) w).andThen fun _ x => .done { x with phase := .initialized } := by
  rw [initBody, configureBody_ok hok, Ran.andThen_ok]
  rfl

theorem initBody_held {s : State} (hok : s.AnswersOk 9) (pins : PinMap) (contrast : Byte) :
    initBody pins contrast s =
      (driveReset pins .high
        ({ s.configured pins with rst := some .low }.afterEvents ((s.bootEvents pins contrast).take 10) 9)).andThen
        fun _ v =>
          (sendContrast (s.bootHandle pins) contrast v).andThen fun _ w =>
            (clearBody (s.bootHandle pins) w).andThen fun _ x => .done { x with phase := .initialized } := by
  have hlow : driveReset pins .low ((s.configured pins).afterEvents ((s.bootEvents pins contrast).take 8) 8) =
      ⟨{ s.configured pins with rst := some .low }.afterEvents ((s.bootEvents pins contrast).take 9) 9, .ok ()⟩ := by
    rw [driveReset_ok, State.afterEvents_afterEvents]
    · rfl
    · exact hok 8 (by omega)
  rw [initBody_configured (hok.mono (by omega)), hlow, Ran.andThen_ok, State.hold_eq_afterEvents,
    State.afterEvents_afterEvents]
  rfl

theorem initBody_reset {s : State} (hok : s.AnswersOk 10) (pins : PinMap) (contrast : Byte) :
    initBody pins contrast s =
      (sendContrast (s.bootHandle pins) contrast
        ({ s.configured pins with rst := some .high }.afterEvents ((s.bootEvents pins contrast).take 11) 10)).andThen
        fun _ w =>
          (clearBody (s.bootHandle pins) w).andThen fun _ x => .done { x with phase := .initialized } := by
  rw [initBody_held (hok.mono (by omega)), driveReset_ok, Ran.andThen_ok, State.afterEvents_afterEvents]
  · rfl
  · exact hok 9 (by omega)

theorem initBody_contrasted {s : State} (hok : s.AnswersOk 12) (pins : PinMap) (contrast : Byte) :
    initBody pins contrast s =
      (clearBody (s.bootHandle pins)
        ((s.contrasted pins contrast).afterEvents ((s.bootEvents pins contrast).take 13) 12)).andThen
        fun _ x => .done { x with phase := .initialized } := by
  rw [initBody_reset (hok.mono (by omega)), sendContrast_ok, Ran.andThen_ok, State.afterEvents_afterEvents]
  · rfl
  · exact State.AnswersOk.later (s := s) hok rfl rfl

theorem initBody_ok {s : State} (hok : s.AnswersOk 18) (pins : PinMap) (contrast : Byte) :
    initBody pins contrast s =
      ⟨{ s.contrasted pins contrast with phase := .initialized, lastPos := some (0, 0) }.afterEvents
        (s.bootEvents pins contrast) 18, .ok ()⟩ := by
  rw [initBody_contrasted (hok.mono (by omega)), clearBody_ok, Ran.andThen_ok, State.afterEvents_afterEvents]
  · rfl
  · exact State.AnswersOk.later (s := s) hok rfl rfl

/-- INIT before initialization ends as its body does. -/
theorem exec_init_of_body {s t : State} {pins : PinMap} {contrast : Byte} {res : Except Error Unit}
    (hphase : s.phase = .uninitialized) (hbody : initBody pins contrast s = ⟨t, res⟩) :
    exec (.init pins contrast) s = .next (t.finish res) := by
  rw [exec_init_uninitialized hphase, hbody, Ran.finish_mk]

theorem State.bootHold_ge (s : State) : 100 ≤ s.bootHold := Nat.le_add_right 100 _

/-- Settles O26: INIT's body with eighteen ok answers, ended with its result. -/
theorem initCompletes : Obligations.InitCompletes := by
  unfold Obligations.InitCompletes
  intro s pins contrast hphase hok
  refine ⟨s.bootHold, s.bootHold_ge, ?_⟩
  rw [exec_init_of_body hphase (initBody_ok hok pins contrast)]
  rfl

/-! A piece of INIT that fails ends INIT (R186): each lemma takes a failing call or transfer in the state that the calls
before it leave. -/

section

variable {s t : State} {e : Error} (pins : PinMap) (contrast : Byte) (hphase : s.phase = .uninitialized)
include hphase

theorem exec_init_of_low_error (hok : s.AnswersOk 8)
    (hlow : driveReset pins .low ((s.configured pins).afterEvents ((s.bootEvents pins contrast).take 8) 8) =
      ⟨t, .error e⟩) :
    exec (.init pins contrast) s = .next (t.finish (.error e)) := by
  refine exec_init_of_body hphase ?_
  rw [initBody_configured hok, hlow, Ran.andThen_error]

theorem exec_init_of_high_error (hok : s.AnswersOk 9)
    (hhigh : driveReset pins .high
      ({ s.configured pins with rst := some .low }.afterEvents ((s.bootEvents pins contrast).take 10) 9) =
        ⟨t, .error e⟩) :
    exec (.init pins contrast) s = .next (t.finish (.error e)) := by
  refine exec_init_of_body hphase ?_
  rw [initBody_held hok, hhigh, Ran.andThen_error]

theorem exec_init_of_contrast_error (hok : s.AnswersOk 10)
    (hframe : frame (s.bootHandle pins) true (contrastBytes contrast) (.cmdContrast contrast)
      ({ s.configured pins with rst := some .high }.afterEvents ((s.bootEvents pins contrast).take 11) 10) =
        ⟨t, .error e⟩) :
    exec (.init pins contrast) s = .next ({ t with contrast := none }.finish (.error e)) := by
  refine exec_init_of_body hphase ?_
  rw [initBody_reset hok, sendContrast_of_frame_error hframe, Ran.andThen_error]

theorem exec_init_of_clear_error (hok : s.AnswersOk 12)
    (hclear : clearBody (s.bootHandle pins)
      ((s.contrasted pins contrast).afterEvents ((s.bootEvents pins contrast).take 13) 12) = ⟨t, .error e⟩) :
    exec (.init pins contrast) s = .next (t.finish (.error e)) := by
  refine exec_init_of_body hphase ?_
  rw [initBody_contrasted hok, hclear, Ran.andThen_error]

theorem exec_init_of_home_error (hok : s.AnswersOk 12)
    (hframe : frame (s.bootHandle pins) true (positionBytes 0 0) (.cmdPos 0 0)
      ((s.contrasted pins contrast).afterEvents ((s.bootEvents pins contrast).take 13) 12) = ⟨t, .error e⟩) :
    exec (.init pins contrast) s = .next ({ t with lastPos := none }.finish (.error e)) :=
  exec_init_of_clear_error pins contrast hphase hok (clearBody_of_home_error hframe)

theorem exec_init_of_zeros_error (hok : s.AnswersOk 14)
    (hframe : frame (s.bootHandle pins) false (zeros frameBytes) .dataClear
      ({ s.contrasted pins contrast with lastPos := some (0, 0) }.afterEvents
        ((s.bootEvents pins contrast).take 15) 14) = ⟨t, .error e⟩) :
    exec (.init pins contrast) s = .next ({ t with lastPos := none }.finish (.error e)) := by
  refine exec_init_of_clear_error pins contrast hphase (hok.mono (by omega)) (clearBody_of_zeros_error ?_ ?_)
  · exact State.AnswersOk.later (s := s) hok rfl rfl
  · rw [← hframe]
    exact congrArg (frame (s.bootHandle pins) false (zeros frameBytes) .dataClear) (State.afterEvents_afterEvents
      { s.contrasted pins contrast with lastPos := some (0, 0) } ((s.bootEvents pins contrast).take 13)
      ((clearEvents s.cfg (s.bootHandle pins)).take 2) 12 2)

theorem exec_init_of_return_error (hok : s.AnswersOk 16)
    (hframe : frame (s.bootHandle pins) true (positionBytes 0 0) (.cmdPos 0 0)
      ({ s.contrasted pins contrast with dc := some (dcLevel s.cfg false), lastPos := some (0, 0) }.afterEvents
        ((s.bootEvents pins contrast).take 17) 16) = ⟨t, .error e⟩) :
    exec (.init pins contrast) s = .next ({ t with lastPos := none }.finish (.error e)) := by
  refine exec_init_of_clear_error pins contrast hphase (hok.mono (by omega)) (clearBody_of_return_error ?_ ?_)
  · exact State.AnswersOk.later (s := s) hok rfl rfl
  · rw [← hframe]
    exact congrArg (frame (s.bootHandle pins) true (positionBytes 0 0) (.cmdPos 0 0)) (State.afterEvents_afterEvents
      { s.contrasted pins contrast with dc := some (dcLevel s.cfg false), lastPos := some (0, 0) }
      ((s.bootEvents pins contrast).take 13) ((clearEvents s.cfg (s.bootHandle pins)).take 4) 12 4)

end

/-- CONFIGURE's body ends in an error when one of its eight calls fails (R111). -/
theorem configureBody_fails {s : State} {n : Nat} (hn : n < 8) (hfail : s.FailsAfter n) (pins : PinMap) :
    ∃ t e, configureBody pins s = ⟨t, .error e⟩ := by
  match n, hn, hfail with
  | 0, _, hfail => exact ⟨_, _, configureBody_gpioFails hfail⟩
  | 1, _, hfail => exact ⟨_, _, configureBody_channelFails hfail⟩
  | k + 2, hn, hfail =>
    have hk : k < (pinOrder pins).length := by simp only [pinOrder, List.length_cons, List.length_nil]; omega
    exact ⟨_, _, configureBody_pinModeFails (List.getElem?_eq_getElem hk) (by rwa [Nat.add_comm])⟩

/-- INIT ends as CONFIGURE does where CONFIGURE's body ends in an error (R150). -/
theorem exec_init_eq_configure {s t : State} {pins : PinMap} {e : Error} (hphase : s.phase = .uninitialized)
    (hbody : configureBody pins s = ⟨t, .error e⟩) (contrast : Byte) :
    exec (.init pins contrast) s = exec (.configure pins) s := by
  rw [exec_configure_of_body hphase hbody, exec_init_uninitialized hphase, initBody, hbody]
  rfl

/-- Settles O58: at each of its calls INIT stops in the piece that call belongs to. -/
theorem initFailuresFollowTheirPseudocode : Obligations.InitFailuresFollowTheirPseudocode := by
  unfold Obligations.InitFailuresFollowTheirPseudocode
  intro s pins contrast hphase
  refine ⟨fun n hn hfail => ?_, s.bootHold, s.bootHold_ge, ?_⟩
  · obtain ⟨t, e, hbody⟩ := configureBody_fails hn hfail pins
    exact exec_init_eq_configure hphase hbody contrast
  intro handle events left command data
  exact ⟨
    fun hfail => (exec_init_of_low_error pins contrast hphase hfail.1 (driveReset_fails_after hfail) :),
    fun hfail => (exec_init_of_high_error pins contrast hphase hfail.1 (driveReset_fails_after hfail) :),
    fun hfail => (exec_init_of_contrast_error pins contrast hphase hfail.1 (frame_dcFails_after hfail) :),
    fun hfail => (exec_init_of_contrast_error pins contrast hphase (hfail.1.mono (by omega))
      (frame_serialFails_after hfail) :),
    fun hfail => (exec_init_of_home_error pins contrast hphase hfail.1 (frame_dcFails_after hfail) :),
    fun hfail => (exec_init_of_home_error pins contrast hphase (hfail.1.mono (by omega))
      (frame_serialFails_after hfail) :),
    fun hfail => (exec_init_of_zeros_error pins contrast hphase hfail.1 (frame_dcFails_after hfail) :),
    fun hfail => (exec_init_of_zeros_error pins contrast hphase (hfail.1.mono (by omega))
      (frame_serialFails_after hfail) :),
    fun hfail => (exec_init_of_return_error pins contrast hphase hfail.1 (frame_dcFails_after hfail) :),
    fun hfail => (exec_init_of_return_error pins contrast hphase (hfail.1.mono (by omega))
      (frame_serialFails_after hfail) :)⟩

end Sys2Proof.Machine

/-! ### Errors and refusals (R180 to R194) -/

namespace Sys2Proof.Machine

/-! #### Refusals (R97, R193) and result codes (R180) -/

/-- Settles O11, by the refusal that every operation but INIT and CONFIGURE comes to. -/
theorem uninitializedEngineRefuses : Obligations.UninitializedEngineRefuses :=
  fun _ _ => exec_refuses_uninitialized

/-- Settles O12, by the initialized arms of INIT and CONFIGURE. -/
theorem initializedEngineRefusesInit : Obligations.InitializedEngineRefusesInit :=
  fun _ _ _ hphase => ⟨exec_init_initialized hphase, exec_configure_initialized hphase⟩

/-- Settles O14: the port refuses the item before it runs anything, in either phase. -/
theorem hostConfigureIsRefused : Obligations.HostConfigureIsRefused := by
  unfold Obligations.HostConfigureIsRefused
  intro s pins hbus hrun hcfg hissue
  have hfetch : fetch s = .settled (s.refuseAtPort .internal) := by
    rw [fetch_issue hbus hrun hissue, if_pos hcfg]
    rfl
  exact step_settled hfetch

/-- Settles O57, by the definitions of the code and of the recorded character at each kind of result. -/
theorem resultCodesNameTheKinds : Obligations.ResultCodesNameTheKinds :=
  ⟨rfl, rfl, rfl, rfl, fun _ => ⟨rfl, rfl⟩, fun _ => rfl⟩

/-! #### The failing call (R181, R182)

An error that a backend call raises is raised by the last event of the operation, and by no other. -/

/-- The error that a backend call raises when it fails, read off its event (R181, R182). -/
def Event.raises : Event → Option Error
  | .setupGpio .fail | .setupChannel _ _ _ _ .fail | .pinMode _ .fail => some .busInit
  | .write _ _ _ .fail | .serial _ _ _ .fail => some .transfer
  | _ => none

theorem Event.raises_busInit {p : Event} (h : p.raises = some .busInit) :
    p = .setupGpio .fail ∨ (∃ a b c m, p = .setupChannel a b c m .fail) ∨ ∃ q, p = .pinMode q .fail := by
  unfold Event.raises at h
  split at h
  case h_1 => exact .inl rfl
  case h_2 => exact .inr (.inl ⟨_, _, _, _, rfl⟩)
  case h_3 => exact .inr (.inr ⟨_, rfl⟩)
  all_goals cases h

theorem Event.raises_transfer {p : Event} (h : p.raises = some .transfer) :
    (∃ q l r, p = .write q l r .fail) ∨ ∃ ch bs k, p = .serial ch bs k .fail := by
  unfold Event.raises at h
  split at h
  case h_4 => exact .inl ⟨_, _, _, rfl⟩
  case h_5 => exact .inr ⟨_, _, _, rfl⟩
  all_goals cases h

/-- A call raises one of the two errors of R181 and R182. -/
theorem Event.raises_call {p : Event} {e : Error} (h : p.raises = some e) : e = .busInit ∨ e = .transfer := by
  unfold Event.raises at h
  split at h
  case h_1 | h_2 | h_3 =>
    cases h
    exact .inl rfl
  case h_4 | h_5 =>
    cases h
    exact .inr rfl
  case h_6 => cases h

/-- The errors that an operand raises, and no call (R183, R185). -/
def Error.OfOperand (e : Error) : Prop := e = .range ∨ ∃ c, e = .unsupportedCharacter c

/-- The trace of `t` is that of `s` and more events, none of which failed. -/
def State.Answered (s t : State) : Prop :=
  ∃ events, t.trace = s.trace ++ events ∧ ∀ e ∈ events, e.answer ≠ some .fail

/-- The trace of `t` is that of `s`, more events none of which failed, and the event `p`, which raised `e`. -/
def State.StoppedBy (s t : State) (p : Event) (e : Error) : Prop :=
  ∃ done, t.trace = s.trace ++ (done ++ [p]) ∧ (∀ e ∈ done, e.answer ≠ some .fail) ∧ p.raises = some e

/-- A piece of an operation whose errors are precise: a success follows events that did not fail, and so does an
operand's error; any other error is raised by the last event `p`, and leaves a state with `left p`. -/
def Ran.Precise {α : Type} (s : State) (left : Event → State → Prop) (r : Ran α) : Prop :=
  match r.res with
  | .ok _ => s.Answered r.st
  | .error e => (e.OfOperand ∧ s.Answered r.st) ∨ ∃ p, s.StoppedBy r.st p e ∧ left p r.st

section

variable {s t : State} {left left' : Event → State → Prop}

theorem State.Answered.refl (s : State) : s.Answered s := ⟨[], by simp, by simp⟩

theorem State.Answered.append (ht : s.Answered t) {u : State} {e : Event} (hu : u.trace = t.trace ++ [e])
    (he : e.answer ≠ some .fail) : s.Answered u := by
  obtain ⟨events, htrace, hevents⟩ := ht
  exact ⟨events ++ [e], by rw [hu, htrace, List.append_assoc], by simpa [or_imp, forall_and] using ⟨hevents, he⟩⟩

theorem State.Answered.stop (ht : s.Answered t) {u : State} {p : Event} {e : Error} (hu : u.trace = t.trace ++ [p])
    (hp : p.raises = some e) : s.StoppedBy u p e := by
  obtain ⟨events, htrace, hevents⟩ := ht
  exact ⟨events, by rw [hu, htrace, List.append_assoc], hevents, hp⟩

theorem State.Answered.congr (ht : s.Answered t) {u : State} (hu : u.trace = t.trace) : s.Answered u := by
  rwa [State.Answered, hu]

theorem State.StoppedBy.congr {p : Event} {e : Error} (ht : s.StoppedBy t p e) {u : State} (hu : u.trace = t.trace) :
    s.StoppedBy u p e := by
  rwa [State.StoppedBy, hu]

/-- The last event of an operation that a call has stopped. -/
theorem State.StoppedBy.getLast {p : Event} {e : Error} (h : s.StoppedBy t p e) : t.trace.getLast? = some p := by
  obtain ⟨done, htrace, -⟩ := h
  simp [htrace, ← List.append_assoc]

/-! How precision goes through the sequencing of pieces (R186, R188). -/

theorem Ran.Precise.done (ht : s.Answered t) : (Ran.done t).Precise s left := ht

theorem Ran.Precise.andThen {α β : Type} {r : Ran α} {k : α → State → Ran β} (hr : r.Precise s left)
    (hk : ∀ a t, s.Answered t → (k a t).Precise s left) : (r.andThen k).Precise s left := by
  obtain ⟨t, res⟩ := r
  cases res with
  | ok a => exact hk a t hr
  | error e => exact hr

/-- A cleanup adds what it writes to what the failing call left. -/
theorem Ran.Precise.onError {α : Type} {r : Ran α} {clean : State → State} (hr : r.Precise s left)
    (hclean : ∀ t, (clean t).trace = t.trace) (hleft : ∀ p t, left p t → left' p (clean t)) :
    (r.onError clean).Precise s left' := by
  obtain ⟨t, res⟩ := r
  cases res with
  | ok a => exact hr
  | error e =>
    rcases hr with ⟨he, ht⟩ | ⟨p, hp, hl⟩
    · exact .inl ⟨he, ht.congr (hclean t)⟩
    · exact .inr ⟨p, hp.congr (hclean t), hleft p t hl⟩

theorem Ran.Precise.mono {α : Type} {r : Ran α} (hr : r.Precise s left) (hleft : ∀ p t, left p t → left' p t) :
    r.Precise s left' := by
  obtain ⟨t, res⟩ := r
  cases res with
  | ok a => exact hr
  | error e => exact hr.imp id fun ⟨p, hp, hl⟩ => ⟨p, hp, hleft p t hl⟩

/-- One backend call is precise (R13). -/
theorem attempt_precise {ev : Answer → Event} {e : Error} {onFail onOk : State → State} (ht : s.Answered t)
    (hok : (ev .ok).answer = some .ok) (hfail : (ev .fail).raises = some e)
    (honOk : ∀ u, (onOk u).trace = u.trace) (honFail : ∀ u, (onFail u).trace = u.trace)
    (hleft : ∀ u, left (ev .fail) (onFail u)) : (attempt ev e onFail onOk t).Precise s left := by
  rcases attempt_cases ev e onFail onOk t with ⟨-, h⟩ | ⟨-, h⟩ <;> rw [h]
  · exact ht.append (honOk _) (by simp [hok])
  · exact .inr ⟨_, ht.stop (honFail _) hfail, hleft _⟩

end

/-! #### What a failing call leaves (R188) -/

/-- Where a failing call has this event, the register it was to set, or its transfer was to set, is unknown: a raw
transfer sets none (R32, R33). -/
def State.Forgets (t : State) : Event → Prop
  | .write _ _ .dc _ => t.dc = none
  | .write _ _ .reset _ => t.rst = none
  | .write _ _ .backlight _ => t.blPin = none ∧ t.blOn = none
  | .serial _ _ (.cmdContrast _) _ => t.contrast = none
  | .serial _ _ (.cmdPos _ _) _ | .serial _ _ .dataClear _ | .serial _ _ (.dataGlyph _) _ => t.lastPos = none
  | _ => True

/-- The registers that the operation itself was to set are unknown. -/
def State.Unset (t : State) : Instr → Prop
  | .setpos _ _ | .locate _ _ | .cls | .text _ _ _ => t.lastPos = none
  | .contrast _ => t.contrast = none
  | .backlight _ => t.blPin = none ∧ t.blOn = none
  | _ => True

/-- What the call `p` that stopped the operation `i` leaves. -/
def FailedIn (i : Instr) (p : Event) (t : State) : Prop := t.Forgets p ∧ t.Unset i

/-- `FailedIn` as it stands for each of the positioning operations (R131 to R133, R157). -/
def LosesPosition (p : Event) (t : State) : Prop := t.Forgets p ∧ t.lastPos = none

/-- What a transfer leaves that fails: its D/C write failed and the line is unknown, or its serial call failed (R110). -/
def FrameFailed (kind : Kind) (p : Event) (t : State) : Prop :=
  (∃ pin level, p = .write pin level .dc .fail ∧ t.dc = none) ∨ ∃ ch bytes, p = .serial ch bytes kind .fail

theorem FrameFailed.forgets {kind : Kind} {p : Event} {t : State} (h : FrameFailed kind p t)
    (hserial : ∀ ch bytes, t.Forgets (.serial ch bytes kind .fail)) : t.Forgets p := by
  rcases h with ⟨pin, level, rfl, hdc⟩ | ⟨ch, bytes, rfl⟩
  · exact hdc
  · exact hserial ch bytes

section

variable {s t : State}

theorem frame_precise (h : Handle) (isCmd : Bool) (bytes : List Byte) (kind : Kind) (ht : s.Answered t) :
    (frame h isCmd bytes kind t).Precise s (FrameFailed kind) :=
  Ran.Precise.andThen
    (attempt_precise ht rfl rfl (fun _ => rfl) (fun _ => rfl) fun _ => .inl ⟨_, _, rfl, rfl⟩) fun _ _ hu =>
    attempt_precise hu rfl rfl (fun _ => rfl) (fun _ => rfl) fun _ => .inr ⟨_, _, rfl⟩

/-- A raw transfer leaves no register but D/C unknown (R112, R113). -/
theorem rawFrame_precise (h : Handle) (isCmd : Bool) (bytes : List Byte) {kind : Kind}
    (hkind : kind = .cmdRaw ∨ kind = .dataRaw) (ht : s.Answered t) :
    (frame h isCmd bytes kind t).Precise s fun p u => u.Forgets p :=
  (frame_precise h isCmd bytes kind ht).mono fun _ _ hu => hu.forgets fun _ _ => by
    rcases hkind with rfl | rfl <;> trivial

/-- A transfer whose failure makes `lastPos` unknown (R131, R133, R157). -/
theorem positionedFrame_precise (h : Handle) (isCmd : Bool) (bytes : List Byte) (kind : Kind)
    (hkind : ∀ (u : State) ch bs, u.lastPos = none → u.Forgets (.serial ch bs kind .fail)) (ht : s.Answered t) :
    ((frame h isCmd bytes kind t).onError fun u => { u with lastPos := none }).Precise s (LosesPosition) :=
  (frame_precise h isCmd bytes kind ht).onError (fun _ => rfl) fun p u hu =>
    have hfailed : FrameFailed kind p { u with lastPos := none } := hu
    ⟨hfailed.forgets fun ch bs => hkind _ ch bs rfl, rfl⟩

theorem setPositionBody_precise (h : Handle) (p : Segment × Bank) (ht : s.Answered t) :
    (setPositionBody h p t).Precise s (LosesPosition) :=
  (positionedFrame_precise h _ _ (.cmdPos p.1 p.2) (fun _ _ _ hu => hu) ht).andThen fun _ _ hu => .done hu

theorem clearBody_precise (h : Handle) (ht : s.Answered t) : (clearBody h t).Precise s (LosesPosition) :=
  (setPositionBody_precise h _ ht).andThen fun _ _ hu =>
    (positionedFrame_precise h _ _ .dataClear (fun _ _ _ hv => hv) hu).andThen fun _ _ hv =>
      setPositionBody_precise h _ hv

theorem drawChars_precise (h : Handle) (chars : List CharCode) (ht : s.Answered t) :
    (drawChars h chars t).Precise s (LosesPosition) := by
  induction chars generalizing t with
  | nil => exact ht
  | cons c cs ih =>
    unfold drawChars
    split
    · exact .inl ⟨.inr ⟨c, rfl⟩, ht⟩
    · exact (positionedFrame_precise h _ _ (.dataGlyph c) (fun _ _ _ hu => hu) ht).andThen fun _ _ hu => ih hu

theorem sendContrast_precise (h : Handle) (v : Byte) (ht : s.Answered t) :
    (sendContrast h v t).Precise s (FailedIn (.contrast v)) := by
  refine Ran.Precise.andThen ((frame_precise h true _ _ ht).onError (fun _ => rfl) fun p u hu => ?_)
    fun _ _ hu => .done hu
  have hfailed : FrameFailed (.cmdContrast v) p { u with contrast := none } := hu
  exact ⟨hfailed.forgets fun _ _ => rfl, rfl⟩

theorem driveBacklight_precise (on : Bool) (pins : PinMap) (ht : s.Answered t) :
    (driveBacklight on pins t).Precise s (FailedIn (.backlight on)) :=
  attempt_precise ht rfl rfl (fun _ => rfl) (fun _ => rfl) fun _ => ⟨⟨rfl, rfl⟩, rfl, rfl⟩

theorem driveReset_precise (pins : PinMap) (level : Level) (ht : s.Answered t) :
    (driveReset pins level t).Precise s fun p u => u.Forgets p :=
  attempt_precise ht rfl rfl (fun _ => rfl) (fun _ => rfl) fun _ => rfl

theorem setOutputs_precise (ps : List Pin) (ht : s.Answered t) :
    (setOutputs ps t).Precise s fun p u => u.Forgets p := by
  induction ps generalizing t with
  | nil => exact ht
  | cons p ps ih =>
    exact Ran.Precise.andThen (attempt_precise ht rfl rfl (fun _ => rfl) (fun _ => rfl) fun _ => trivial)
      fun _ _ hu => ih hu

theorem configureBody_precise (pins : PinMap) (ht : s.Answered t) :
    (configureBody pins t).Precise s fun p u => u.Forgets p :=
  have hpins : s.Answered { t with pins := some pins } := ht
  Ran.Precise.andThen (attempt_precise hpins rfl rfl (fun _ => rfl) (fun _ => rfl) fun _ => trivial) fun _ _ hu =>
    Ran.Precise.andThen (attempt_precise hu rfl rfl (fun _ => rfl) (fun _ => rfl) fun _ => trivial) fun _ _ hv =>
      (setOutputs_precise _ hv).andThen fun _ _ hw => hw

/-- Every piece of INIT is precise, and the reset hold cannot fail (R150, R184). -/
theorem initBody_precise (pins : PinMap) (contrast : Byte) (ht : s.Answered t) :
    (initBody pins contrast t).Precise s fun p u => u.Forgets p :=
  (configureBody_precise pins ht).andThen fun h _ hu =>
    (driveReset_precise pins .low hu).andThen fun _ v hv =>
      have hhold : s.Answered v.hold := hv.append (State.hold_trace v) (by simp [Event.answer])
      (driveReset_precise pins .high hhold).andThen fun _ _ hw =>
        ((sendContrast_precise h contrast hw).mono fun _ _ hl => hl.1).andThen fun _ _ hx =>
          ((clearBody_precise h hx).mono fun _ _ hl => hl.1).andThen fun _ _ hy => .done hy

/-- A host operation is refused, or it ends as a precise piece does. -/
def EndsPrecisely (s : State) (i : Instr) (t : State) : Prop :=
  (∃ reason, t = s.refuse reason) ∨ ∃ r : Ran Unit, r.Precise s (FailedIn i) ∧ t = r.finish

theorem operate_precise {α β : Type} {check : Except Error β} {read : State → Except Fault α}
    {body : β → α → State → Ran Unit} {i : Instr} (hcheck : ∀ e, check = .error e → e = .range)
    (hbody : ∀ b a, (body b a s).Precise s (FailedIn i)) (h : operate check read body s = .next t) :
    EndsPrecisely s i t := by
  rcases operate_cases h with ⟨-, rfl⟩ | ⟨-, e, he, rfl⟩ | ⟨-, b, a, -, -, rfl⟩
  · exact .inl ⟨_, rfl⟩
  · exact .inr ⟨⟨s, .error e⟩, .inl ⟨.inl (hcheck e he), .refl s⟩, rfl⟩
  · exact .inr ⟨_, hbody b a, rfl⟩

theorem exec_init_precise {pins : PinMap} {contrast : Byte} (h : exec (.init pins contrast) s = .next t) :
    EndsPrecisely s (.init pins contrast) t := by
  cases hphase : s.phase with
  | uninitialized =>
    rw [exec_init_uninitialized hphase] at h
    cases h
    exact .inr ⟨_, (initBody_precise pins contrast (.refl s)).mono fun _ _ hl => ⟨hl, trivial⟩, rfl⟩
  | initialized =>
    rw [exec_init_initialized hphase] at h
    cases h
    exact .inl ⟨_, rfl⟩

theorem exec_configure_precise {pins : PinMap} (h : exec (.configure pins) s = .next t) :
    EndsPrecisely s (.configure pins) t := by
  cases hphase : s.phase with
  | uninitialized =>
    rw [exec_configure_uninitialized hphase] at h
    cases h
    have hbody := (configureBody_precise pins (.refl s)).andThen fun _ _ hu => Ran.Precise.done hu
    exact .inr ⟨_, hbody.mono fun _ _ hl => ⟨hl, trivial⟩, rfl⟩
  | initialized =>
    rw [exec_configure_initialized hphase] at h
    cases h
    exact .inl ⟨_, rfl⟩

/-- Every host operation ends precisely, whatever the backend answers. -/
theorem exec_precise {i : Instr} (hi : i.layer = .host) (h : exec i s = .next t) : EndsPrecisely s i t := by
  have hs : s.Answered s := .refl s
  have hnone : ∀ e, (Except.ok () : Except Error Unit) = .error e → e = .range := fun _ he => by cases he
  cases i with
  | init => exact exec_init_precise h
  | configure => exact exec_configure_precise h
  | cmd bs =>
    rw [exec_cmd] at h
    exact operate_precise hnone
      (fun _ a => (rawFrame_precise a true bs (.inl rfl) hs).mono fun _ _ hl => ⟨hl, trivial⟩) h
  | data bs =>
    rw [exec_data] at h
    exact operate_precise hnone
      (fun _ a => (rawFrame_precise a false bs (.inr rfl) hs).mono fun _ _ hl => ⟨hl, trivial⟩) h
  | backlight on =>
    rw [exec_backlight] at h
    exact operate_precise hnone (fun _ pins => driveBacklight_precise on pins hs) h
  | setpos =>
    rw [exec_setpos] at h
    exact operate_precise (fun _ => place_error) (fun p a => setPositionBody_precise a p hs) h
  | locate =>
    rw [exec_locate] at h
    exact operate_precise (fun _ => place_error) (fun p a => setPositionBody_precise a p hs) h
  | cls =>
    rw [exec_cls] at h
    exact operate_precise hnone (fun _ a => clearBody_precise a hs) h
  | contrast v =>
    rw [exec_contrast] at h
    exact operate_precise hnone (fun _ a => sendContrast_precise a v hs) h
  | text row col chars =>
    have hbody (p : Segment × Bank) (a : Handle) :
        ((setPositionBody a p s).andThen fun _ u => drawChars a chars u).Precise s (FailedIn (.text row col chars)) :=
      (setPositionBody_precise a p hs).andThen fun _ _ hu => drawChars_precise a chars hu
    rw [exec_text] at h
    exact operate_precise (fun _ => textStart_error) (fun p a => hbody p a) h
  | setBank | setSegment | functionSetExtended | cmd0x14 | setVop | functionSetNormal | displayControlNormal
  | dataByte | positionSequence | contrastSequence => cases hi

end

/-- Settles O34: a precise ending shows its error in the last event, and a refusal appends none. -/
theorem errorsArePrecise : Obligations.ErrorsArePrecise := by
  unfold Obligations.ErrorsArePrecise
  intro s t i hi h
  rcases exec_precise hi h with ⟨reason, rfl⟩ | ⟨⟨u, res⟩, hr, rfl⟩
  · exact ⟨[], by simp, .inr (.inr ⟨by simp, .inr (.inr (.inr ⟨reason, rfl⟩))⟩)⟩
  cases res with
  | ok a =>
    obtain ⟨events, htrace, hevents⟩ := hr
    exact ⟨events, htrace, .inr (.inr ⟨hevents, .inl rfl⟩)⟩
  | error e =>
    rcases hr with ⟨he, events, htrace, hevents⟩ | ⟨p, ⟨done, htrace, hdone, hp⟩, -⟩
    · refine ⟨events, htrace, .inr (.inr ⟨hevents, .inr ?_⟩)⟩
      rcases he with rfl | ⟨c, rfl⟩
      · exact .inl rfl
      · exact .inr (.inl ⟨c, rfl⟩)
    · refine ⟨done ++ [p], htrace, ?_⟩
      rcases Event.raises_call hp with rfl | rfl
      · exact .inl ⟨rfl, done, p, rfl, hdone, Event.raises_busInit hp⟩
      · exact .inr (.inl ⟨rfl, done, p, rfl, hdone, Event.raises_transfer hp⟩)

/-- An operation that ends with `TransferError` was stopped by its last event, and left what that call leaves. -/
theorem exec_transferError {s t : State} {i : Instr} (hi : i.layer = .host) (h : exec i s = .next t)
    (hres : t.lastResult = some (.err .transfer)) : ∃ p, t.trace.getLast? = some p ∧ FailedIn i p t := by
  rcases exec_precise hi h with ⟨reason, rfl⟩ | ⟨⟨u, res⟩, hr, rfl⟩
  · simp at hres
  cases res with
  | ok a => cases hres
  | error e =>
    obtain rfl : e = .transfer := by simpa using hres
    rcases hr with ⟨he, -⟩ | ⟨p, hp, hleft⟩
    · simp [Error.OfOperand] at he
    · exact ⟨p, hp.getLast, hleft⟩

/-! #### INIT's D/C writes (R150, R188) -/

/-- What a failing D/C write of INIT leaves after the events `done`: it belongs to the contrast transfer, before which no
serial call is made, or to the clear screen, before which the contrast has gone out. -/
def DcWriteFailedInInit (c : Byte) (done : List Event) (t : State) : Prop :=
  ((∀ ch bs kind answer, .serial ch bs kind answer ∉ done) ∧ t.contrast = none) ∨
    ((∃ ch bs, .serial ch bs (.cmdContrast c) .ok ∈ done) ∧ t.contrast = some c ∧ t.lastPos = none)

/-- INIT makes no serial call before its twelfth event. -/
theorem initEvents_take_noSerial (cfg : Config) (h : Handle) (c : Byte) (ms : Nat) :
    ∀ ch bs kind answer, .serial ch bs kind answer ∉ (initEvents cfg h c ms).take 11 := by
  simp [initEvents, configureEvents]

/-- The contrast goes out with the thirteenth event of INIT. -/
theorem contrast_mem_initEvents_take (cfg : Config) (h : Handle) (c : Byte) (ms : Nat) {k : Nat} (hk : 13 ≤ k) :
    ∃ ch bs, .serial ch bs (.cmdContrast c) .ok ∈ (initEvents cfg h c ms).take k :=
  ⟨h.channel, [0x21#8, 0x14#8, c, 0x20#8, 0x0C#8],
    (List.take_prefix_take_left hk).subset (by simp [initEvents, configureEvents, transferEvents])⟩

/-- INIT ends with `BusInitError` where one of its first eight calls fails (R111, R181). -/
theorem exec_init_busInit {s t : State} {pins : PinMap} {c : Byte} {n : Nat} (hphase : s.phase = .uninitialized)
    (hn : n < 8) (hfail : s.FailsAfter n) (h : exec (.init pins c) s = .next t) :
    t.lastResult = some (.err .busInit) := by
  obtain ⟨hconf, -⟩ := initFailuresFollowTheirPseudocode s pins c hphase
  obtain ⟨-, hgpio, hchannel, hpin⟩ := configureCompletes s pins hphase
  rw [hconf n hn hfail] at h
  match n, hn, hfail with
  | 0, _, hfail => cases (hgpio hfail).symm.trans h; rfl
  | 1, _, hfail => cases (hchannel hfail).symm.trans h; rfl
  | k + 2, hn, hfail =>
    have hk : k < (pinOrder pins).length := by simp only [pinOrder, List.length_cons, List.length_nil]; omega
    cases (hpin k _ (List.getElem?_eq_getElem hk) (by rwa [Nat.add_comm])).symm.trans h
    rfl

/-- An INIT that ends with `TransferError` did so at one of ten calls; where that call was a D/C write, what it left tells
which transfer it was of. -/
theorem exec_init_dcWriteFails {s t : State} {pins : PinMap} {c : Byte} (h : exec (.init pins c) s = .next t)
    (hres : t.lastResult = some (.err .transfer)) :
    ∃ done p, t.trace = s.trace ++ (done ++ [p]) ∧
      (∀ pin level, p = .write pin level .dc .fail → DcWriteFailedInInit c done t) := by
  have hphase : s.phase = .uninitialized := by
    cases hphase : s.phase with
    | uninitialized => rfl
    | initialized =>
      rw [exec_init_initialized hphase] at h
      cases h
      cases hres
  rcases s.answersOk_or_failsAfter 18 with hok | ⟨n, hn, hfail⟩
  · rw [exec_init_of_body hphase (initBody_ok hok pins c)] at h
    cases h
    cases hres
  by_cases hearly : n < 8
  · rw [exec_init_busInit hphase hearly hfail h] at hres
    cases hres
  obtain ⟨-, ms, -, hlow, hhigh, hcontrast, hcontrastSerial, hhome, hhomeSerial, hzeros, hzerosSerial, hreturn,
    hreturnSerial⟩ := initFailuresFollowTheirPseudocode s pins c hphase
  have hnoSerial := initEvents_take_noSerial s.cfg ⟨pins, (s.drawAt (s.drawn + 1)).handle⟩ c ms
  have hsent {k : Nat} (hk : 13 ≤ k) :=
    contrast_mem_initEvents_take s.cfg ⟨pins, (s.drawAt (s.drawn + 1)).handle⟩ c ms hk
  obtain rfl | rfl | rfl | rfl | rfl | rfl | rfl | rfl | rfl | rfl : n = 8 ∨ n = 9 ∨ n = 10 ∨ n = 11 ∨ n = 12 ∨
    n = 13 ∨ n = 14 ∨ n = 15 ∨ n = 16 ∨ n = 17 := by omega
  · cases (hlow hfail).symm.trans h
    exact ⟨_, _, rfl, by simp⟩
  · cases (hhigh hfail).symm.trans h
    exact ⟨_, _, rfl, by simp⟩
  · cases (hcontrast hfail).symm.trans h
    exact ⟨_, _, rfl, fun _ _ _ => .inl ⟨hnoSerial, rfl⟩⟩
  · cases (hcontrastSerial hfail).symm.trans h
    exact ⟨_, _, rfl, by simp⟩
  · cases (hhome hfail).symm.trans h
    exact ⟨_, _, rfl, fun _ _ _ => .inr ⟨hsent (by omega), rfl, rfl⟩⟩
  · cases (hhomeSerial hfail).symm.trans h
    exact ⟨_, _, rfl, by simp⟩
  · cases (hzeros hfail).symm.trans h
    exact ⟨_, _, rfl, fun _ _ _ => .inr ⟨hsent (by omega), rfl, rfl⟩⟩
  · cases (hzerosSerial hfail).symm.trans h
    exact ⟨_, _, rfl, by simp⟩
  · cases (hreturn hfail).symm.trans h
    exact ⟨_, _, rfl, fun _ _ _ => .inr ⟨hsent (by omega), rfl, rfl⟩⟩
  · cases (hreturnSerial hfail).symm.trans h
    exact ⟨_, _, rfl, by simp⟩

/-- Settles O35: what the last event's call leaves, and for INIT which transfer its D/C write was of. -/
theorem transferErrorForgetsRegisters : Obligations.TransferErrorForgetsRegisters := by
  unfold Obligations.TransferErrorForgetsRegisters
  intro s t i hi h hres
  obtain ⟨p, hlast, hforgets, hunset⟩ := exec_transferError hi h hres
  have hforgets (q : Event) (hq : t.trace.getLast? = some q) : t.Forgets q := by
    rw [hlast] at hq
    cases hq
    exact hforgets
  have hunset (j : Instr) (hj : i = j) : t.Unset j := hj ▸ hunset
  refine ⟨?_, fun _ _ => hunset _, fun _ _ => hunset _, hunset _, fun _ _ _ => hunset _, fun _ => hunset _,
    fun _ => hunset _, fun _ _ => hforgets _, fun _ _ => hforgets _, fun _ _ _ => hforgets _,
    fun _ _ _ _ => hforgets _, fun _ _ => hforgets _, ?_⟩
  · by_contra hphase
    obtain ⟨-, -, hok, -⟩ := exec_changes_phase h hphase
    rw [hok] at hres
    cases hres
  · rintro pins c events pin level rfl htrace hevents
    obtain ⟨done, q, hdone, hq⟩ := exec_init_dcWriteFails h hres
    obtain rfl : events = done ++ [q] := List.append_cancel_left (htrace.symm.trans hdone)
    obtain rfl : q = .write pin level .dc .fail := by simpa using hevents
    rcases hq pin level rfl with ⟨hnoSerial, hcontrast⟩ | ⟨⟨ch, bs, hsent⟩, hcontrast, hpos⟩
    · refine ⟨fun _ => hcontrast, fun ⟨ch, bs, hmem⟩ => ?_⟩
      exact absurd (by simpa using hmem) (hnoSerial ch bs _ _)
    · exact ⟨fun hnone => absurd (List.mem_append_left _ hsent) (hnone ch bs _ _), fun _ => ⟨hcontrast, hpos⟩⟩

end Sys2Proof.Machine

/-! ### Reset and hazards: the bound on backend calls, and the state after INIT (R212, R222) -/

namespace Sys2Proof.Machine

/-! #### The number of backend calls (R222)

Each piece gets a bound on its own calls, and a sequence the sum of its pieces'. -/

/-- A piece of an operation that starts in `s` makes at most `n` backend calls. -/
def Ran.CallsAtMost {α : Type} (s : State) (n : Nat) (r : Ran α) : Prop := r.st.drawn ≤ s.drawn + n

theorem Ran.CallsAtMost.done (s : State) : (Ran.done s).CallsAtMost s 0 := Nat.le_refl _

/-- The bounds of two pieces in sequence add up to at most the whole's, and an error makes no further call (R186). -/
theorem Ran.CallsAtMost.andThen {α β : Type} {s : State} {m n l : Nat} {r : Ran α} {k : α → State → Ran β}
    (hr : r.CallsAtMost s m) (hk : ∀ a t, (k a t).CallsAtMost t n) (hl : m + n ≤ l := by omega) :
    (r.andThen k).CallsAtMost s l := by
  obtain ⟨t, res⟩ := r
  have hfirst : t.drawn ≤ s.drawn + m := hr
  cases res with
  | ok a =>
    have hsecond : (k a t).st.drawn ≤ t.drawn + n := hk a t
    show (k a t).st.drawn ≤ s.drawn + l
    omega
  | error e =>
    show t.drawn ≤ s.drawn + l
    omega

/-- A cleanup writes registers and makes no call (R188). -/
theorem Ran.CallsAtMost.onError {α : Type} {s : State} {n : Nat} {r : Ran α} {clean : State → State}
    (hr : r.CallsAtMost s n) (hclean : ∀ t, (clean t).drawn = t.drawn := by intro; rfl) :
    (r.onError clean).CallsAtMost s n :=
  Ran.onError_keeps (P := fun t => t.drawn ≤ s.drawn + n) hr fun t ht => (hclean t).le.trans ht

theorem attempt_callsAtMost {ev : Answer → Event} {e : Error} {onFail onOk : State → State} (s : State)
    (hfail : ∀ t, (onFail t).drawn = t.drawn := by intro; rfl)
    (hok : ∀ t, (onOk t).drawn = t.drawn := by intro; rfl) : (attempt ev e onFail onOk s).CallsAtMost s 1 :=
  attempt_keeps (P := fun t => t.drawn ≤ s.drawn + 1) (State.call_drawn s ev).le
    (fun t ht => (hfail t).le.trans ht) fun t ht => (hok t).le.trans ht

section

variable (s : State)

theorem frame_callsAtMost (h : Handle) (isCmd : Bool) (bytes : List Byte) (kind : Kind) :
    (frame h isCmd bytes kind s).CallsAtMost s 2 :=
  (attempt_callsAtMost s).andThen fun _ t => attempt_callsAtMost t

theorem setPositionBody_callsAtMost (h : Handle) (p : Segment × Bank) : (setPositionBody h p s).CallsAtMost s 2 :=
  (frame_callsAtMost s h _ _ _).onError.andThen fun _ _ => .done _

theorem clearBody_callsAtMost (h : Handle) : (clearBody h s).CallsAtMost s 6 :=
  (setPositionBody_callsAtMost s h _).andThen fun _ t =>
    (frame_callsAtMost t h _ _ _).onError.andThen (l := 4) fun _ u => setPositionBody_callsAtMost u h _

theorem sendContrast_callsAtMost (h : Handle) (v : Byte) : (sendContrast h v s).CallsAtMost s 2 :=
  (frame_callsAtMost s h _ _ _).onError.andThen fun _ _ => .done _

theorem drawChars_callsAtMost (h : Handle) (chars : List CharCode) :
    (drawChars h chars s).CallsAtMost s (2 * chars.length) := by
  induction chars generalizing s with
  | nil => exact .done s
  | cons c cs ih =>
    rw [List.length_cons]
    unfold drawChars
    split
    · exact Nat.le_add_right _ _
    · exact (frame_callsAtMost s h _ _ _).onError.andThen fun _ t => ih t

theorem driveBacklight_callsAtMost (on : Bool) (pins : PinMap) : (driveBacklight on pins s).CallsAtMost s 1 :=
  attempt_callsAtMost s

theorem driveReset_callsAtMost (pins : PinMap) (level : Level) : (driveReset pins level s).CallsAtMost s 1 :=
  attempt_callsAtMost s

theorem setOutputs_callsAtMost (ps : List Pin) : (setOutputs ps s).CallsAtMost s ps.length := by
  induction ps generalizing s with
  | nil => exact .done s
  | cons p ps ih =>
    rw [List.length_cons]
    exact (attempt_callsAtMost s).andThen fun _ t => ih t

/-- CONFIGURE calls the GPIO setup, the channel setup and the mode of each of the six pins (R111). -/
theorem configureBody_callsAtMost (pins : PinMap) : (configureBody pins s).CallsAtMost s 8 := by
  have hpins (u : State) : (setOutputs (pinOrder pins) u).CallsAtMost u 6 := setOutputs_callsAtMost u (pinOrder pins)
  have hgpio : (attempt .setupGpio .busInit id id { s with pins := some pins }).CallsAtMost s 1 :=
    attempt_callsAtMost { s with pins := some pins }
  exact hgpio.andThen fun _ t => (attempt_callsAtMost t).andThen (l := 7) fun _ u =>
    (hpins u).andThen (n := 0) (l := 6) fun _ _ => Nat.le_refl _

/-- INIT adds to CONFIGURE's calls the two ends of the reset pulse, the contrast and the clear screen; the hold between
the pulse's ends is no call (R150, R184). -/
theorem initBody_callsAtMost (pins : PinMap) (contrast : Byte) : (initBody pins contrast s).CallsAtMost s 18 := by
  have hhigh (u : State) : (driveReset pins .high u.hold).CallsAtMost u 1 := driveReset_callsAtMost u.hold pins .high
  exact (configureBody_callsAtMost s pins).andThen fun h t =>
    (driveReset_callsAtMost t pins .low).andThen (l := 10) fun _ u =>
      (hhigh u).andThen (l := 9) fun _ v =>
        (sendContrast_callsAtMost v h contrast).andThen (l := 8) fun _ w =>
          (clearBody_callsAtMost w h).andThen (l := 6) fun _ _ => .done _

end

section

variable {s t : State}

/-- An operation makes the calls of its body, or none. -/
theorem operate_drawn_le {α β : Type} {check : Except Error β} {read : State → Except Fault α}
    {body : β → α → State → Ran Unit} {n : Nat} (hbody : ∀ b a, (body b a s).CallsAtMost s n)
    (h : operate check read body s = .next t) : t.drawn ≤ s.drawn + n := by
  rcases operate_cases h with ⟨-, rfl⟩ | ⟨-, e, -, rfl⟩ | ⟨-, b, a, -, -, rfl⟩
  · exact Nat.le_add_right _ _
  · exact Nat.le_add_right _ _
  · exact hbody b a

theorem exec_init_drawn_le {pins : PinMap} {contrast : Byte} (h : exec (.init pins contrast) s = .next t) :
    t.drawn ≤ s.drawn + 18 := by
  cases hphase : s.phase with
  | uninitialized =>
    rw [exec_init_uninitialized hphase] at h
    cases h
    exact initBody_callsAtMost s pins contrast
  | initialized =>
    rw [exec_init_initialized hphase] at h
    cases h
    exact Nat.le_add_right _ _

theorem exec_configure_drawn_le {pins : PinMap} (h : exec (.configure pins) s = .next t) :
    t.drawn ≤ s.drawn + 8 := by
  cases hphase : s.phase with
  | uninitialized =>
    rw [exec_configure_uninitialized hphase] at h
    cases h
    exact (configureBody_callsAtMost s pins).andThen fun _ _ => .done _
  | initialized =>
    rw [exec_configure_initialized hphase] at h
    cases h
    exact Nat.le_add_right _ _

end

/-- Settles O37: each operation makes at most the calls of its body's pieces, and a wire row is one event and no call. -/
theorem operationsMakeBoundedCalls : Obligations.OperationsMakeBoundedCalls := by
  unfold Obligations.OperationsMakeBoundedCalls
  intro s t i h
  cases i with
  | init => exact exec_init_drawn_le h
  | configure => exact exec_configure_drawn_le h
  | cmd => exact operate_drawn_le (fun _ a => frame_callsAtMost s a _ _ _) ((exec_cmd ..).symm.trans h)
  | data => exact operate_drawn_le (fun _ a => frame_callsAtMost s a _ _ _) ((exec_data ..).symm.trans h)
  | backlight on =>
    exact operate_drawn_le (fun _ pins => driveBacklight_callsAtMost s on pins) ((exec_backlight ..).symm.trans h)
  | setpos => exact operate_drawn_le (fun p a => setPositionBody_callsAtMost s a p) ((exec_setpos ..).symm.trans h)
  | locate => exact operate_drawn_le (fun p a => setPositionBody_callsAtMost s a p) ((exec_locate ..).symm.trans h)
  | cls => exact operate_drawn_le (fun _ a => clearBody_callsAtMost s a) ((exec_cls ..).symm.trans h)
  | contrast v => exact operate_drawn_le (fun _ a => sendContrast_callsAtMost s a v) ((exec_contrast ..).symm.trans h)
  | text _ _ chars =>
    exact operate_drawn_le (n := 2 + 2 * chars.length)
      (fun p a => (setPositionBody_callsAtMost s a p).andThen fun _ u => drawChars_callsAtMost u a chars)
      ((exec_text ..).symm.trans h)
  | setBank | setSegment | functionSetExtended | cmd0x14 | setVop | functionSetNormal | displayControlNormal
  | dataByte | positionSequence | contrastSequence =>
    obtain ⟨op, rfl⟩ := exec_wire rfl h
    exact Nat.le_refl _

/-! #### The state after INIT from power-on (R212) -/

/-- The pins added to a set of output pins, and those it held (R34). -/
theorem mem_foldl_insertPin {p : Pin} {ps outputs : List Pin} :
    p ∈ ps.foldl (fun o q => insertPin q o) outputs ↔ p ∈ ps ∨ p ∈ outputs := by
  induction ps generalizing outputs with
  | nil => simp
  | cons q ps ih => rw [List.foldl_cons, ih, mem_insertPin, List.mem_cons, or_left_comm, or_assoc]

section

variable {wrap : Option (Segment × Bank)}

/-- A clear screen in normal mode fills the frame with zero bytes, brings the cursor home, and leaves the mode, the Vop
byte and the display setting (R54 to R56). -/
theorem Panel.foldl_clearEvents_normal {p : Panel} (hmode : p.mode = some .normal) (c : Config) (h : Handle) {q : Panel}
    (hq : (clearEvents c h).foldl (Panel.step wrap) p = q) :
    (∀ bank segment, q.cell bank segment = some 0x00#8) ∧ q.cursor = some (0, 0) ∧ q.mode = some .normal ∧
      q.vop = p.vop ∧ q.display = p.display := by
  have hcursor : (p.position 0 0).cursor = some (0, 0) := Panel.position_cursor hmode (by decide) 0
  have hcells := Panel.dataBytes_zeros_cell (wrap := wrap) hcursor
  obtain ⟨hmode', hvop, hdisplay, -⟩ := Panel.dataBytes_registers (wrap := wrap) (p.position 0 0) (zeros frameBytes)
  rw [Panel.foldl_clearEvents] at hq
  -- The facts above are all that is used of the 504 writes.
  generalize (p.position 0 0).dataBytes wrap (zeros frameBytes) = filled at hcells hmode' hvop hdisplay hq
  subst hq
  have hnormal : filled.mode = some .normal := hmode'.trans hmode
  exact ⟨hcells, Panel.position_cursor hnormal (by decide) 0, hnormal, hvop, hdisplay⟩

/-- To the panel an INIT is a reset pulse, a contrast sequence and a clear screen (R56, R58, R150). -/
theorem Panel.foldl_initEvents (c : Config) (h : Handle) (v : Byte) (ms : Nat) (p : Panel) :
    (initEvents c h v ms).foldl (Panel.step wrap) p =
      (clearEvents c h).foldl (Panel.step wrap) (p.resetPulse.contrast v) := by
  rw [initEvents, List.foldl_append, List.foldl_append, Panel.foldl_transferEvents]
  rfl

end

/-- Settles O27: the port issues INIT, INIT completes, and its nineteen events bring the panel to R212's table. -/
theorem initFromPowerOnReachesTheTable : Obligations.InitFromPowerOnReachesTheTable := by
  unfold Obligations.InitFromPowerOnReachesTheTable
  rintro cfg script pins c s hcfg hlevel rfl hok
  obtain ⟨ms, hms, hexec⟩ := initCompletes _ pins c rfl hok
  obtain ⟨hstep, -⟩ := stepRunsTheAbstractOperation _ _ (.init pins c) rfl rfl hcfg rfl rfl (by simp) hexec
  obtain ⟨hcells, hcursor, hmode, hvop, hdisplay⟩ :=
    Panel.foldl_clearEvents_normal (wrap := cfg.panelLastWrap) (p := Panel.powerOn.resetPulse.contrast c) rfl cfg _
      (Panel.foldl_initEvents cfg _ c ms Panel.powerOn).symm
  refine ⟨_, hstep rfl, rfl, rfl, rfl, ?_, rfl, rfl, rfl, rfl, rfl, fun p => ?_, ⟨ms, hms, rfl⟩, rfl, rfl, rfl,
    hcells, hcursor, hmode, hvop, hdisplay⟩
  · exact congrArg some hlevel
  · exact mem_foldl_insertPin.trans (by simp [State.reset])

end Sys2Proof.Machine
